-- ==== Sys2Proof/Word.lean ====
section
/-!
DEFINITION. The two word types of the SFC: the byte (a symbol, a buffer cell) and the 32-bit word (a control
register, a command word, a bus offset, bus data). Bit 0 is the least significant bit (spec 00_scope.md R12).
-/

namespace Sys2Proof

/-- A byte: one buffer cell, one symbol (R9, R12). -/
abbrev Byte := BitVec 8

/-- A 32-bit word: register contents, command words, bus offsets and bus data (R12, R22, R90, R96). -/
abbrev Word := BitVec 32

end Sys2Proof
end

