-- ==== Sys2Proof/Config.lean ====
section
/-!
DEFINITION. What one implementation fixes (the OPEN parameters of spec 00_scope.md R8) and the free values the
spec leaves open (its UNSPEC, R14). Every constant here is opaque and has no body, so no proof can learn a value
of it: what is proved holds for every value.
-/

namespace Sys2Proof

/-- The OPEN parameters of one SFC (R8), which "the model takes as arguments". LATENCY is not among them: the model
has no time (R252, R333), and when a command completes is read from `State.moves` (assumption 2). -/
structure Params where
  /-- `IN_CAP`: capacity in bytes of RAWBUF and of DBUF (R8, D1); the hardwired register IN_CAP_REG reads it (R38). -/
  inCap : Nat
  /-- `PB_CAP`: capacity in bytes of PBUF, header byte included (R8, D2); PB_CAP_REG reads it (R39). -/
  pbCap : Nat
  /-- `P_SINGLE_CODE_BIT`: the code bit of a lone symbol (R8, R155, D4); `true` is the bit 1. -/
  singleCodeBit : Bool
  /-- `BASE`: the bus address of the block's offset 0 (R8, D3); no rule depends on it. DESIGN CHOICE (assumption 19): it
  is 32 bits wide, where the spec says only "platform-defined". -/
  base : Word
deriving DecidableEq, Repr

/-- IN_CAP less 1, so that every value gives 1 ≤ IN_CAP ≤ 2^24 (R8). -/
opaque Config.inCapLessOne : Fin 16777216

/-- PB_CAP less 2, so that every value gives 2 ≤ PB_CAP ≤ 2^28 (R8). -/
opaque Config.pbCapLessTwo : Fin 268435455

/-- P_SINGLE_CODE_BIT (R8, R155): 0 or 1, and "a reader must not assume 0" (91_not_in_source.md). -/
opaque Config.singleCodeBit : Bool

/-- BASE, platform-defined (R8, R61); its width is the model's (assumption 19). -/
opaque Config.base : Word

/-- The parameters of the machine that `State.reset` describes: any values in R8's legal ranges. -/
def Config.params : Params where
  inCap := Config.inCapLessOne.val + 1
  pbCap := Config.pbCapLessTwo.val + 2
  singleCodeBit := Config.singleCodeBit
  base := Config.base

/-- FREE VALUE. What a byte of a buffer or table reads as while it is UNSPEC (R79, S2, S3): drawn once per offset and
per generation of its region, hence stable until it is written, or until a fault or a reset makes the region UNSPEC
anew. First argument: the region's generation (`State.gens`); second: the block offset. -/
opaque Config.unspecByte : Nat → Nat → Byte

/-- FREE VALUE. One byte of a host read of a pending command's destination (R45, S1: "per byte, per read"). The
argument is a fresh draw number (`State.draws`). -/
opaque Config.freeByte : Nat → Byte

/-- FREE VALUE. A register that is UNSPEC after a fault (R290), or one host read of a pending command's destination
register (R45; test vector C14: "any 32-bit draw"). The argument is a fresh draw number. -/
opaque Config.freeWord : Nat → Word

/-- FREE VALUE. FT_COUNT after a faulted ANALYZE (R33, R290), within the bound R50 sets for every reachable state. -/
opaque Config.freeCount : Nat → Fin 257

end Sys2Proof
end

