-- ==== Sys2Proof/Syntax.lean ====
section
/-!
DEFINITION. The instructions of the SFC: one constructor for each of the nine rows of spec/opcode_table.json. Five
are commands (format CMDFMT, a 32-bit word written to CMD, R90 and R92), four are host bus transactions (format
HOSTBUS, the triple KIND, OFFSET, DATA, R96). The block fetches no instruction (R21, R77): a command comes to the
Core through PENDING, a transaction comes from the Host.
-/

namespace Sys2Proof

/-- One instruction: a command of R92 or a host transaction of R96. Operands of commands are implicit (R95). -/
inductive Instr where
  /-- ANALYZE, word 0x0000_0001: the FrequencyAnalyzer (R134). -/
  | analyze
  /-- BUILD, word 0x0000_0002: the CodeTreeBuilder (R154). -/
  | build
  /-- ENCODE, word 0x0000_0003: the Encoder (R202). -/
  | encode
  /-- DECODE, word 0x0000_0004: the Decoder (R224). -/
  | decode
  /-- CLEAR, word 0x0000_0080: the soft reset performed at the CMD write (R254). -/
  | clear
  /-- RD8, KIND 0b00: read one byte at an offset (R258). -/
  | rd8 (offset : Word)
  /-- RD32, KIND 0b01: read one word at an offset (R256, R258). -/
  | rd32 (offset : Word)
  /-- WR8, KIND 0b10: write one byte; "WR8 uses only DATA[7:0]" (R96), so that byte is the operand (R259). -/
  | wr8 (offset : Word) (data : Byte)
  /-- WR32, KIND 0b11: write one word (R257, R259). -/
  | wr32 (offset data : Word)
deriving DecidableEq, Repr

/-- A host bus request, format HOSTBUS (R96): OFFSET is relative to BASE. -/
structure Request where
  kind : BitVec 2
  offset : Word
  data : Word
deriving DecidableEq, Repr

/-- What reaches the hardware: a command word (CMDFMT, R90) or a bus request (HOSTBUS, R96). -/
inductive Encoding where
  | command (w : Word)
  | bus (r : Request)
deriving DecidableEq, Repr

end Sys2Proof
end

