-- ==== Sys2Proof/WellFormed.lean ====
section
/-!
DEFINITION. The checks on what is written from outside: a command word (R90, R93), a bus request in the form the
encoder gives it (R96), and the parameters (R8). The operands of `Instr` are typed at the width of their fields, so
every term of `Instr` is an instruction of the spec and needs no check of its own.
-/

namespace Sys2Proof

/-- OPCODE, bits 7:0 of a command word (R90). -/
def CmdWord.opcode (w : Word) : Byte := w.extractLsb' 0 8

/-- MBZ, bits 31:8 of a command word (R90). -/
def CmdWord.mbz (w : Word) : BitVec 24 := w.extractLsb' 8 24

/-- A command word is legal when MBZ is zero and OPCODE is one of the five of R92; every other word is illegal (R93). -/
def CmdWord.wellFormed (w : Word) : Bool :=
  CmdWord.mbz w == 0 && [0x01#8, 0x02#8, 0x03#8, 0x04#8, 0x80#8].contains (CmdWord.opcode w)

/-- A bus request that sets no bit its transaction leaves unused: DATA "is used only by writes, and WR8 uses only
DATA[7:0]" (R96). A request with such bits set is still a transaction; the decoder ignores the bits. -/
def Request.wellFormed (r : Request) : Bool :=
  if r.kind == 0b11#2 then true
  else if r.kind == 0b10#2 then r.data.extractLsb' 8 24 == 0
  else r.data == 0

/-- The two formats together. -/
def Encoding.wellFormed : Encoding → Bool
  | .command w => CmdWord.wellFormed w
  | .bus r => r.wellFormed

/-- The legal ranges of the parameters (R8): 1 ≤ IN_CAP ≤ 2^24 and 2 ≤ PB_CAP ≤ 2^28. -/
def Params.wellFormed (p : Params) : Bool :=
  (1 ≤ p.inCap && p.inCap ≤ 2 ^ 24) && (2 ≤ p.pbCap && p.pbCap ≤ 2 ^ 28)

end Sys2Proof
end

