-- ==== Sys2Proof/Decode.lean ====
section
/-!
DEFINITION. The decoders (R107 for a command word, R96 for a bus request), total and rejecting by name, and after
them the encoder, written from the same tables. The SFC fetches no bytes (R77): a command word is the data of a CMD
write, a request is the triple on the bus.
-/

namespace Sys2Proof

/-- Why a decoder gives no instruction. -/
inductive DecodeError where
  /-- The word is none of R92's five: R107's verdict ILLEGAL, which completes with Fault(ILLEGAL_CMD) (R93). -/
  | illegalCommand (w : Word)
  /-- A number with more bits than its format has; raised only by the numbered-bits reader `Encoding.ofNat`. -/
  | tooWide (nbits w : Nat)
deriving DecidableEq, Repr

/-- The whole words of R92. -/
abbrev analyzeWord : Word := 0x00000001#32
abbrev buildWord : Word := 0x00000002#32
abbrev encodeWord : Word := 0x00000003#32
abbrev decodeWord : Word := 0x00000004#32
abbrev clearWord : Word := 0x00000080#32

/-- `decode_cmd` (R107): a total function of the 32-bit word. -/
def decodeCmd (w : Word) : Except DecodeError Instr :=
  if w = analyzeWord then .ok .analyze
  else if w = buildWord then .ok .build
  else if w = encodeWord then .ok .encode
  else if w = decodeWord then .ok .decode
  else if w = clearWord then .ok .clear
  else .error (.illegalCommand w)

/-- The transaction a bus request asks for (R96): KIND selects it; reads ignore DATA, WR8 takes DATA[7:0]. -/
def decodeRequest (r : Request) : Instr :=
  if r.kind = 0b00#2 then .rd8 r.offset
  else if r.kind = 0b01#2 then .rd32 r.offset
  else if r.kind = 0b10#2 then .wr8 r.offset (r.data.extractLsb' 0 8)
  else .wr32 r.offset r.data

/-- The decoder of both formats. -/
def decode : Encoding → Except DecodeError Instr
  | .command w => decodeCmd w
  | .bus r => .ok (decodeRequest r)

/-- The encoder, from R92 and R96: unused DATA bits are written as 0. -/
def encode : Instr → Encoding
  | .analyze => .command analyzeWord
  | .build => .command buildWord
  | .encode => .command encodeWord
  | .decode => .command decodeWord
  | .clear => .command clearWord
  | .rd8 offset => .bus ⟨0b00#2, offset, 0⟩
  | .rd32 offset => .bus ⟨0b01#2, offset, 0⟩
  | .wr8 offset data => .bus ⟨0b10#2, offset, data.setWidth 32⟩
  | .wr32 offset data => .bus ⟨0b11#2, offset, data⟩

/-! ## Instructions as one number, bit 0 first

spec/opcode_table.json numbers a command's bits 31:0, and puts KIND in bits 1:0 of a request. It gives OFFSET and
DATA their widths, not their places: DESIGN CHOICE, safe (assumption 8): OFFSET is bits 33:2 and DATA bits 65:34. -/

/-- The bits of a format: 32 for CMDFMT (R90), 2 + 32 + 32 for HOSTBUS (R96). -/
def Encoding.nbits : Encoding → Nat
  | .command _ => 32
  | .bus _ => 66

/-- The number whose bits are the encoding's. -/
def Encoding.toNat : Encoding → Nat
  | .command w => w.toNat
  | .bus r => r.kind.toNat + 2 ^ 2 * (r.offset.toNat + 2 ^ 32 * r.data.toNat)

/-- A number read as an encoding: 32 bits are a command word, any other count the low bits of a bus request whose
further bits are 0. -/
def Encoding.ofNat (nbits w : Nat) : Except DecodeError Encoding :=
  if nbits = 32 then
    if w < 2 ^ 32 then .ok (.command (BitVec.ofNat 32 w)) else .error (.tooWide nbits w)
  else if w < 2 ^ 66 then
    .ok (.bus ⟨BitVec.ofNat 2 w, BitVec.ofNat 32 (w / 2 ^ 2), BitVec.ofNat 32 (w / 2 ^ 34)⟩)
  else .error (.tooWide nbits w)

/-- The instruction the decoder reads from the number `w`, whose first `nbits` bits the opcode table gives. -/
def decodeTableWord (nbits w : Nat) : Option Instr :=
  match Encoding.ofNat nbits w with
  | .error _ => none
  | .ok e =>
    match decode e with
    | .ok i => some i
    | .error _ => none

end Sys2Proof
end

