-- ==== Sys2Proof/Machine/State.lean ====
section
/-!
DEFINITION. The state of the machine as plain data: everything spec 10_state.md R20 names (control registers, buffers
and tables, PENDING), the platform's reset input (R320), the moves the two agents still have to make (R11, R72), the
record of bus responses (R262), and the counters that number the free values. Reset values are R52's.
-/

namespace Sys2Proof.Machine

/-- The thirteen control registers (R22). -/
inductive Reg where
  | id | ctrl | status | errcode | cmd | rawLen | ftCount | ctCount | pbLen | decLen | totalBits | inCapReg | pbCapReg
deriving DecidableEq, Repr

/-- The six ranges of the address map (R60). -/
inductive Region where
  | registers | ftab | ctab | rawbuf | dbuf | pbuf
deriving DecidableEq, Repr

/-- What a command may write (R253): a region with the registers that go with it. -/
inductive Dest where
  /-- ANALYZE: FTAB and FT_COUNT. -/
  | frequency
  /-- BUILD: CTAB and CT_COUNT. -/
  | codeTable
  /-- ENCODE: PBUF, PB_LEN and TOTAL_BITS. -/
  | packed
  /-- DECODE: DBUF, DEC_LEN and TOTAL_BITS. -/
  | decoded
  /-- An illegal word: none. -/
  | nothing
deriving DecidableEq, Repr

/-- The causes ERRCODE.CAUSE can hold (R281). The reserved codes 0x11 to 0xFF are "never written" (R281, S11), so no
constructor stands for them. -/
inductive Cause where
  /-- 0x00 NONE: no fault since reset or CLEAR. -/
  | noFault
  | illegalCmd | emptyInput | rawLenRange | emptyFreq | emptyTable | ctCountRange | badCodeLen | noCode | dupSymbol
  | pbOverflow | pbEmpty | pbLenRange | badHeader | noMatch | ambiguous | dbOverflow
deriving DecidableEq, Repr

/-- The direction of a host transaction. -/
inductive Access where
  | read | write
deriving DecidableEq, Repr

/-- Which check of R261 refuses a transaction; the response is BUSERR for each (R262). -/
inductive BusError where
  | unmapped | badSize | misaligned | readOnly
deriving DecidableEq, Repr

/-- What a transaction that passes R261 reaches. -/
inductive Target where
  | register (r : Reg)
  | window (r : Region)
deriving DecidableEq, Repr

/-- The block's answer to one transaction (R96). -/
inductive Response where
  /-- `OK(data)` of a read. -/
  | data (v : Word)
  /-- `OK` of a write. -/
  | ok
  /-- `BUSERR` (R262): recorded, "so that a claim can take 'no BUSERR in the run' as a premise". -/
  | busErr
  /-- A transaction while `rst` is asserted: the block ignores it, the response "is left to the platform" (R320). -/
  | platform
deriving DecidableEq, Repr

/-- One atomic step of the total order of R72. -/
inductive Move where
  /-- The Host issues a bus transaction (R255). -/
  | request (r : Request)
  /-- The Core takes its step, if one is enabled (R252). -/
  | core
  /-- The platform asserts `rst` (R320). -/
  | assertRst
  /-- The platform deasserts `rst` (R320). -/
  | releaseRst
deriving DecidableEq, Repr

/-- What the machine does next, read from the state (`nextTurn`). -/
inductive Turn where
  | idle
  | completion (w : Word)
  | transaction (r : Request)
  | ignored (r : Request)
  | assertReset
  | releaseReset
deriving DecidableEq, Repr

/-- The bytes of the tables and buffers that have a value: (block offset, byte) pairs, offsets strictly rising
(`Memory.wf`). An offset not listed holds no written value: it is UNSPEC (R79) and reads as a free value. -/
abbrev Memory := List Host.Cell

/-- The model's own counters: how often each region became UNSPEC (power-on is 0). A region's generation selects the
free values its unlisted bytes read as. -/
structure Gens where
  ftab : Nat
  ctab : Nat
  rawbuf : Nat
  dbuf : Nat
  pbuf : Nat
deriving DecidableEq, Repr

/-- The state of one SFC (R20). -/
structure State where
  /-- The parameters of R8, among them the hardwired registers IN_CAP_REG (R38) and PB_CAP_REG (R39); no step
  changes them. -/
  params : Params
  /-- CTRL.IE (R24). -/
  ie : Bool
  /-- STATUS.BUSY (R25). -/
  busy : Bool
  /-- STATUS.DONE (R26). -/
  done : Bool
  /-- STATUS.ERR (R27). -/
  err : Bool
  /-- STATUS.WERR (R28). -/
  werr : Bool
  /-- ERRCODE.CAUSE (R30). -/
  cause : Cause
  /-- RAW_LEN (R32). -/
  rawLen : Word
  /-- FT_COUNT (R33), bits 8:0, never above 256 (R50). -/
  ftCount : Fin 257
  /-- CT_COUNT (R34). -/
  ctCount : Word
  /-- PB_LEN (R35). -/
  pbLen : Word
  /-- DEC_LEN (R36). -/
  decLen : Word
  /-- TOTAL_BITS (R37). -/
  totalBits : Word
  /-- PENDING (R47): the command word that has issued and not completed. -/
  pending : Option Word
  /-- RAWBUF, DBUF, PBUF, FTAB and CTAB (R40 to R44) at their block offsets (R60). -/
  mem : Memory
  /-- The reset input `rst` (R320). -/
  rst : Bool
  /-- MODEL'S OWN: the generation of each region's UNSPEC values. -/
  gens : Gens
  /-- MODEL'S OWN: the number of the next free value. -/
  draws : Nat
  /-- MODEL'S OWN: the steps the Host, the Core and the platform take next, first first (R72). -/
  moves : List Move
  /-- MODEL'S OWN: the responses given so far, newest first (R255, R262). -/
  responses : List Response
deriving DecidableEq, Repr

/-- Reasons for which the machine stops with a fault: NONE. "No behaviour of this hardware is treated as `stuck`. Every
command completes" (93_implementation_defined.md); a command's fault is a next state with ERR and ERRCODE set (R290),
and an access to an offset that does not exist is answered BUSERR with no state change (R262). -/
inductive Fault where
deriving DecidableEq, Repr

/-- Reasons for which a step has no meaning. -/
inductive Refusal where
  /-- Raised by an arm of `exec` whose instruction has no meaning yet; no arm of this model raises it. Safe. -/
  | notModelled (mnemonic : String)
deriving DecidableEq, Repr

/-- The machine right after hard reset (R52, R320): every register 0, PENDING none, every byte UNSPEC, `rst`
deasserted. The parameters are any legal ones (`Config.params`). The model's own counters start at 0, nothing is
scheduled and no response has been given (DESIGN CHOICE, assumption 6). -/
def State.reset : State where
  params := Config.params
  ie := false
  busy := false
  done := false
  err := false
  werr := false
  cause := .noFault
  rawLen := 0
  ftCount := 0
  ctCount := 0
  pbLen := 0
  decLen := 0
  totalBits := 0
  pending := none
  mem := []
  rst := false
  gens := ⟨0, 0, 0, 0, 0⟩
  draws := 0
  moves := []
  responses := []

end Sys2Proof.Machine
end

