-- ==== Sys2Proof/Machine/AddressMap.lean ====
section
/-!
DEFINITION. The address map (R60, R61, R106), the access rights (R22, R65), and the check every host transaction
passes first (R261: mapped, size, alignment, writable, in that order).
-/

namespace Sys2Proof.Machine

/-- The register's offset (R22, R106). -/
def Reg.offset : Reg → Nat
  | .id => 0x000
  | .ctrl => 0x004
  | .status => 0x008
  | .errcode => 0x00C
  | .cmd => 0x010
  | .rawLen => 0x014
  | .ftCount => 0x018
  | .ctCount => 0x01C
  | .pbLen => 0x020
  | .decLen => 0x024
  | .totalBits => 0x028
  | .inCapReg => 0x02C
  | .pbCapReg => 0x030

/-- The control register file in the order of R22. -/
def Reg.all : List Reg :=
  [.id, .ctrl, .status, .errcode, .cmd, .rawLen, .ftCount, .ctCount, .pbLen, .decLen, .totalBits, .inCapReg, .pbCapReg]

/-- The register at a block offset. -/
def Reg.ofOffset? (a : Nat) : Option Reg := Reg.all.find? fun r => r.offset == a

/-- A host write to the register is no bus error: it is RW, WO, or STATUS with its W1C bits (R22, R65). -/
def Reg.writable : Reg → Bool
  | .ctrl | .status | .cmd | .rawLen | .ctCount | .pbLen => true
  | .id | .errcode | .ftCount | .decLen | .totalBits | .inCapReg | .pbCapReg => false

/-- Where a range of the map starts (R60). -/
def Region.start : Region → Nat
  | .registers => 0x00000000
  | .ftab => 0x00001000
  | .ctab => 0x00010000
  | .rawbuf => 0x10000000
  | .dbuf => 0x20000000
  | .pbuf => 0x30000000

/-- How many bytes a range of the map has (R60). -/
def Region.size (p : Params) : Region → Nat
  | .registers => 4 * 13
  | .ftab => 256 * 8
  | .ctab => 256 * 64
  | .rawbuf => p.inCap
  | .dbuf => p.inCap
  | .pbuf => p.pbCap

/-- Host writes reach the window (R60, R65); for the registers, `Reg.writable` decides. -/
def Region.writable : Region → Bool
  | .ctab | .rawbuf | .pbuf => true
  | .registers | .ftab | .dbuf => false

/-- The six ranges in the order of R60. -/
def Region.all : List Region := [.registers, .ftab, .ctab, .rawbuf, .dbuf, .pbuf]

/-- The offset lies in the range. -/
def Region.covers (p : Params) (r : Region) (a : Nat) : Bool := r.start ≤ a && a < r.start + r.size p

/-- The range of the map an offset lies in; none where it is unmapped (R60, R61). -/
def regionOf (p : Params) (a : Nat) : Option Region := Region.all.find? fun r => r.covers p a

/-- Every byte of the access lies in one and the same range (R64; R261 check 1). -/
def insideRegion (p : Params) (r : Region) (size a : Nat) : Bool :=
  (List.range size).all fun i => regionOf p (a + i) == some r

/-- The check of R261 on an access of `size` bytes at offset `a`: the first check that fails, or what the access
reaches. -/
def busCheck (p : Params) (acc : Access) (size a : Nat) : Except BusError Target :=
  match regionOf p a with
  | none => .error .unmapped
  | some r =>
    if !insideRegion p r size a then .error .unmapped
    else if r = .registers ∧ size ≠ 4 then .error .badSize
    else if size = 4 ∧ a % 4 ≠ 0 then .error .misaligned
    else if r = .registers then
      match Reg.ofOffset? a with
      | none => .error .unmapped
      | some reg => if acc = .write ∧ reg.writable = false then .error .readOnly else .ok (.register reg)
    else if acc = .write ∧ r.writable = false then .error .readOnly
    else .ok (.window r)

/-- Offset of FTAB entry k (R60, R100). -/
def ftabEntry (k : Nat) : Nat := Region.ftab.start + 8 * k

/-- Offset of CTAB entry k (R60, R101). -/
def ctabEntry (k : Nat) : Nat := Region.ctab.start + 64 * k

/-- The bus address of a block offset: `BASE + OFFSET` (R60, R96; which BASE is the platform's choice, D3). DESIGN CHOICE
(assumption 19): a bus address has 32 bits and the sum wraps modulo 2^32; the spec gives 32 bits to OFFSET alone. -/
def busAddress (p : Params) (offset : Word) : Word := p.base + offset

/-- The offset the block decodes from a bus address (R60). DESIGN CHOICE (assumption 19): the difference wraps modulo
2^32. -/
def busOffset (p : Params) (address : Word) : Word := address - p.base

end Sys2Proof.Machine
end

