-- ==== Sys2Proof/Machine/BitPacker.lean ====
section
/-!
DEFINITION. The BitPacker (42_bit_packer.md): PACK and UNPACK as pure functions on bit sequences and byte sequences,
LSB-first in each byte (R67, R99), and the little-endian byte order of words (R66). A bit sequence is a `List Bool`,
element 0 first (R13).
-/

namespace Sys2Proof.Machine

/-- Bits as a number, bit 0 first. -/
def bitsToNat : List Bool → Nat
  | [] => 0
  | b :: bs => (if b then 1 else 0) + 2 * bitsToNat bs

/-- `ceil(N/8)`: the bytes N bits take. -/
def bytesFor (n : Nat) : Nat := (n + 7) / 8

/-- The number of padding bits, `pad(N) = 8·ceil(N/8) − N` (R181). -/
def padBits (n : Nat) : Nat := 8 * bytesFor n - n

/-- PACK (R180): logical bit i is bit `i mod 8` of byte `i div 8`; the unused bits of the last byte are 0 (R181). -/
def pack (b : List Bool) : List Byte :=
  (List.range (bytesFor b.length)).map fun q => BitVec.ofNat 8 (bitsToNat ((b.drop (8 * q)).take 8))

/-- Bit i of a byte sequence, LSB-first (R99). -/
def bitOf (P : List Byte) (i : Nat) : Bool := (P.getD (i / 8) 0).getLsbD (i % 8)

/-- UNPACK (R182): the bits of the bytes but for the last h, whose values are never looked at (R183). -/
def unpack (P : List Byte) (h : Nat) : List Bool := (List.range (8 * P.length - h)).map (bitOf P)

/-- A byte sequence as a number, lowest byte first (R66). -/
def bytesToNat : List Byte → Nat
  | [] => 0
  | b :: bs => b.toNat + 256 * bytesToNat bs

/-- The word four bytes make, little-endian (R12, R66). One byte makes a word that is 0 above bit 7 (R258). -/
def wordOfBytes (bs : List Byte) : Word := BitVec.ofNat 32 (bytesToNat bs)

/-- The lowest n bytes of a word, lowest first: what a write of size n stores (R66, R259). -/
def bytesOfWord (n : Nat) (v : Word) : List Byte := (List.range n).map fun i => v.extractLsb' (8 * i) 8

end Sys2Proof.Machine
end

