-- ==== Sys2Proof/Machine/Flags.lean ====
section
/-!
DEFINITION. STATUS, CTRL, ERRCODE and the interrupt output: the words software reads (R24 to R30), the effect of
writing them (R24, R29), and every rule that sets or clears a status bit (R26 to R28).
-/

namespace Sys2Proof.Machine

/-- A one-bit field as the number 0 or 1. -/
def bitVal (b : Bool) : Nat := if b then 1 else 0

/-- The code a cause leaves in ERRCODE.CAUSE (R281). -/
def Cause.code : Cause → Byte
  | .noFault => 0x00#8
  | .illegalCmd => 0x01#8
  | .emptyInput => 0x02#8
  | .rawLenRange => 0x03#8
  | .emptyFreq => 0x04#8
  | .emptyTable => 0x05#8
  | .ctCountRange => 0x06#8
  | .badCodeLen => 0x07#8
  | .noCode => 0x08#8
  | .dupSymbol => 0x09#8
  | .pbOverflow => 0x0A#8
  | .pbEmpty => 0x0B#8
  | .pbLenRange => 0x0C#8
  | .badHeader => 0x0D#8
  | .noMatch => 0x0E#8
  | .ambiguous => 0x0F#8
  | .dbOverflow => 0x10#8

/-- STATUS as read: BUSY bit 0, DONE bit 1, ERR bit 2, WERR bit 3, bits 31:4 read 0 (R25 to R29). -/
def State.statusWord (s : State) : Word :=
  BitVec.ofNat 32 (bitVal s.busy + 2 * bitVal s.done + 4 * bitVal s.err + 8 * bitVal s.werr)

/-- CTRL as read: IE bit 0, bits 31:1 read 0 (R24). -/
def State.ctrlWord (s : State) : Word := BitVec.ofNat 32 (bitVal s.ie)

/-- ERRCODE as read: CAUSE bits 7:0, bits 31:8 read 0 (R30). -/
def State.errcodeWord (s : State) : Word := s.cause.code.setWidth 32

/-- The interrupt output, a level: `irq = CTRL.IE ∧ STATUS.DONE` (R49, R298). -/
def State.irq (s : State) : Bool := s.ie && s.done

/-- A host write of CTRL: bit 0 into IE, bits 31:1 discarded (R24). -/
def State.writeCtrl (s : State) (v : Word) : State := { s with ie := v.getLsbD 0 }

/-- A host write of STATUS: a 1 in bit 1 clears DONE, a 1 in bit 3 clears WERR, every other bit is ignored (R29). -/
def State.writeStatus (s : State) (v : Word) : State :=
  { s with done := s.done && !v.getLsbD 1, werr := s.werr && !v.getLsbD 3 }

/-- A host write dropped because BUSY = 1: nothing changes but STATUS.WERR, which is set (R28, R260). -/
def State.dropWrite (s : State) : State := { s with werr := true }

/-- A command turned away because ERR = 1: DONE is set and nothing else changes (R251). -/
def State.reject (s : State) : State := { s with done := true }

/-- A command issues: DONE cleared, BUSY set, the word PENDING (R250). -/
def State.issue (s : State) (w : Word) : State := { s with done := false, busy := true, pending := some w }

/-- The end of every completion step: BUSY cleared, PENDING none, DONE set (R252). -/
def State.finish (s : State) : State := { s with busy := false, pending := none, done := true }

end Sys2Proof.Machine
end

