-- ==== Sys2Proof/Machine/Ops.lean ====
section
/-!
DEFINITION. The named operations on memory and registers, fault entry (R290) as one shared operation with the return
from it (CLEAR, R254) beside it, the completion step (R252), hard reset (R320), and which step comes next (R72).
-/

namespace Sys2Proof.Machine

/-! ## Memory: a list of (offset, byte) pairs, offsets strictly rising -/

/-- The canonical form. Every listed byte has been written; no listed byte can equal what an unlisted offset holds,
since that is no value at all. -/
abbrev Memory.wf (m : Memory) : Prop := m.Pairwise fun c d => c.1 < d.1

/-- The byte written at an offset, if there is one. -/
def Memory.get? : Memory → Nat → Option Byte
  | [], _ => none
  | (k, b) :: m, a => if k = a then some b else Memory.get? m a

/-- `MemWrite(a, 1, v)` (R14): the pair goes to its place in the rising order. -/
def Memory.set : Memory → Nat → Byte → Memory
  | [], a, v => [(a, v)]
  | (k, b) :: m, a, v =>
    if a < k then (a, v) :: (k, b) :: m
    else if a = k then (a, v) :: m
    else (k, b) :: Memory.set m a v

/-- Bytes written at consecutive offsets, lowest first. -/
def Memory.setBytes : Memory → Nat → List Byte → Memory
  | m, _, [] => m
  | m, a, v :: vs => Memory.setBytes (m.set a v) (a + 1) vs

/-- The bytes of `n` consecutive offsets lose their values. -/
def Memory.erase (m : Memory) (a n : Nat) : Memory := m.filter fun c => !(a ≤ c.1 && c.1 < a + n)

/-- The generation of a region's UNSPEC bytes. The registers are no bytes of memory. -/
def Gens.of (g : Gens) : Region → Nat
  | .registers => 0
  | .ftab => g.ftab
  | .ctab => g.ctab
  | .rawbuf => g.rawbuf
  | .dbuf => g.dbuf
  | .pbuf => g.pbuf

/-- A region becomes UNSPEC anew. -/
def Gens.next (g : Gens) : Region → Gens
  | .registers => g
  | .ftab => { g with ftab := g.ftab + 1 }
  | .ctab => { g with ctab := g.ctab + 1 }
  | .rawbuf => { g with rawbuf := g.rawbuf + 1 }
  | .dbuf => { g with dbuf := g.dbuf + 1 }
  | .pbuf => { g with pbuf := g.pbuf + 1 }

/-- Every region becomes UNSPEC anew (R320). -/
def Gens.nextAll (g : Gens) : Gens := ⟨g.ftab + 1, g.ctab + 1, g.rawbuf + 1, g.dbuf + 1, g.pbuf + 1⟩

/-- `MemRead(a, 1)` in region r (R14, R79): the byte written there, or, where nothing has been written since the region
last became UNSPEC, the free value of that offset in that generation. -/
def State.readByte (s : State) (r : Region) (a : Nat) : Byte :=
  match s.mem.get? a with
  | some b => b
  | none => Config.unspecByte (s.gens.of r) a

/-- The byte at a block offset, as `MemRead(a, 1)` gives it; none at an unmapped offset and in the registers. -/
def State.byteAt? (s : State) (a : Nat) : Option Byte :=
  match regionOf s.params a with
  | none | some .registers => none
  | some r => some (s.readByte r a)

/-- n consecutive bytes of region r, lowest offset first. -/
def State.readBytes (s : State) (r : Region) (a n : Nat) : List Byte :=
  (List.range n).map fun i => s.readByte r (a + i)

/-- `MemRead(a, 4)` in region r, little-endian (R66). -/
def State.readWord (s : State) (r : Region) (a : Nat) : Word := wordOfBytes (s.readBytes r a 4)

/-- `MemWrite` of consecutive bytes. -/
def State.writeBytes (s : State) (a : Nat) (bs : List Byte) : State := { s with mem := s.mem.setBytes a bs }

/-- Every byte of a region becomes UNSPEC. -/
def State.scramble (s : State) (r : Region) : State :=
  { s with mem := s.mem.erase r.start (r.size s.params), gens := s.gens.next r }

/-! ## Control registers -/

/-- The current value of a register (R22 to R39); reserved bits read 0, and CMD reads 0 (R31). -/
def State.regWord (s : State) : Reg → Word
  | .id => 0x53464301#32
  | .ctrl => s.ctrlWord
  | .status => s.statusWord
  | .errcode => s.errcodeWord
  | .cmd => 0
  | .rawLen => s.rawLen
  | .ftCount => BitVec.ofNat 32 s.ftCount.val
  | .ctCount => s.ctCount
  | .pbLen => s.pbLen
  | .decLen => s.decLen
  | .totalBits => s.totalBits
  | .inCapReg => BitVec.ofNat 32 s.params.inCap
  | .pbCapReg => BitVec.ofNat 32 s.params.pbCap

/-- The response to a transaction is given, and recorded (R255, R262). -/
def State.respond (s : State) (r : Response) : State := { s with responses := r :: s.responses }

/-! ## Destinations (R253) -/

/-- The region of a destination. -/
def Dest.region : Dest → Option Region
  | .frequency => some .ftab
  | .codeTable => some .ctab
  | .packed => some .pbuf
  | .decoded => some .dbuf
  | .nothing => none

/-- The registers of a destination. -/
def Dest.regs : Dest → List Reg
  | .frequency => [.ftCount]
  | .codeTable => [.ctCount]
  | .packed => [.pbLen, .totalBits]
  | .decoded => [.decLen, .totalBits]
  | .nothing => []

/-- The destination of an instruction that completes (R253); CLEAR and host transactions never pend. -/
def Dest.ofInstr : Instr → Dest
  | .analyze => .frequency
  | .build => .codeTable
  | .encode => .packed
  | .decode => .decoded
  | .clear => .nothing
  | .rd8 _ => .nothing
  | .rd32 _ => .nothing
  | .wr8 _ _ => .nothing
  | .wr32 _ _ => .nothing

/-- The destination of a command word; none for an illegal one (R253). -/
def Dest.ofCommand (w : Word) : Dest :=
  match decodeCmd w with
  | .ok i => Dest.ofInstr i
  | .error _ => .nothing

/-- What host reads find UNSPEC just now: the pending command's destination while BUSY = 1 (R45). -/
def State.busyDest (s : State) : Dest :=
  if s.busy then
    match s.pending with
    | some w => Dest.ofCommand w
    | none => .nothing
  else .nothing

/-! ## Faults: entry, completion, return -/

/-- The state with every part of a destination UNSPEC (R290, U7, S3): its region loses its bytes, its registers take
free values. -/
def State.unspecify (s : State) : Dest → State
  | .frequency => { s.scramble .ftab with ftCount := Config.freeCount s.draws, draws := s.draws + 1 }
  | .codeTable => { s.scramble .ctab with ctCount := Config.freeWord s.draws, draws := s.draws + 1 }
  | .packed =>
    { s.scramble .pbuf with
      pbLen := Config.freeWord s.draws, totalBits := Config.freeWord (s.draws + 1), draws := s.draws + 2 }
  | .decoded =>
    { s.scramble .dbuf with
      decLen := Config.freeWord s.draws, totalBits := Config.freeWord (s.draws + 1), draws := s.draws + 2 }
  | .nothing => s

/-- Fault entry (R290): the cause into ERRCODE, ERR set, the destination UNSPEC. "The block saves no other state,
changes no mode, uses no stack and jumps to no vector." -/
def State.faultEntry (s : State) (c : Cause) (d : Dest) : State := { s.unspecify d with cause := c, err := true }

/-- The completion step (R252) of a command with destination `d` whose run ended with `r`: its result, or fault entry
on the state before it. -/
def State.complete (s : State) (d : Dest) (r : Except Cause State) : State :=
  match r with
  | .ok t => t.finish
  | .error c => (s.faultEntry c d).finish

/-- The completion of a word that is no command: Fault(ILLEGAL_CMD), no destination (R93, R252). -/
def State.completeIllegal (s : State) : State := s.complete .nothing (.error .illegalCmd)

/-- CLEAR's effect (R254), which is also the return from a fault (R294): STATUS, ERRCODE, the counts and the lengths
become 0, PENDING none; CTRL, buffers and tables stay. -/
def State.clear (s : State) : State :=
  { s with
    busy := false, done := false, err := false, werr := false, cause := .noFault,
    rawLen := 0, ftCount := 0, ctCount := 0, pbLen := 0, decLen := 0, totalBits := 0, pending := none }

/-- A write of w to CMD (R250): dropped while BUSY, CLEAR at once, rejected while ERR, issued otherwise. -/
def State.writeCmd (s : State) (w : Word) : State :=
  if s.busy then s.dropWrite
  else if decodeCmd w = .ok .clear then s.clear
  else if s.err then s.reject
  else s.issue w

/-! ## Reset -/

/-- Hard reset (R52, R320): every register and PENDING as after reset, every byte UNSPEC anew, `rst` asserted. The
parameters stay; so do the model's own draw numbers, moves and responses, so that no free value is drawn twice. -/
def State.hardReset (s : State) : State :=
  { State.reset with
    params := s.params, rst := true, gens := s.gens.nextAll, draws := s.draws, moves := s.moves,
    responses := s.responses }

/-- `rst` is deasserted (R320); nothing else has changed since it was asserted. -/
def State.releaseReset (s : State) : State := { s with rst := false }

/-! ## Which step comes next -/

/-- The scheduled move is used up. -/
def State.popMove (s : State) : State := { s with moves := s.moves.tail }

/-- The step the machine takes next (R72): the first scheduled move. The Core's step is enabled exactly when PENDING is
not none (R252); with no move scheduled it is taken, which is the weak fairness R252 assumes. While `rst` is asserted
the Core takes no step (R322) and transactions are ignored (R320). -/
def nextTurn (s : State) : Turn :=
  match s.moves with
  | .request r :: _ => if s.rst then .ignored r else .transaction r
  | .assertRst :: _ => .assertReset
  | .releaseRst :: _ => .releaseReset
  | .core :: _ | [] =>
    if s.rst then .idle
    else
      match s.pending with
      | none => .idle
      | some w => .completion w

end Sys2Proof.Machine
end

