-- ==== Sys2Proof/Machine/Operands.lean ====
section
/-!
DEFINITION. The implicit operands of the commands (R95) in their byte formats: the raw input, FTAB entries (R100),
CTAB entries (R101, R102) and the packed buffer (R98).
-/

namespace Sys2Proof.Machine

/-- FrequencyEntry: "(symbol: byte, count: unsigned integer ≥ 1)" (R9). -/
structure FreqEntry where
  sym : Byte
  cnt : Nat
deriving DecidableEq, Repr

/-- One CTAB entry as the coders use it: the symbol and the code of its first `len` bits (R102); the length of `code`
is `len`. -/
structure CodeEntry where
  sym : Byte
  code : List Bool
deriving DecidableEq, Repr

/-- `RAW[0..n)` (R14, R40). -/
def State.rawInput (s : State) (n : Nat) : List Byte := s.readBytes .rawbuf Region.rawbuf.start n

/-- FT[k] as decoded from its bytes (R100). -/
def State.freqEntry (s : State) (k : Nat) : FreqEntry where
  sym := s.readByte .ftab (ftabEntry k)
  cnt := (s.readWord .ftab (ftabEntry k + 4)).toNat

/-- FT[0..n). -/
def State.freqTable (s : State) (n : Nat) : List FreqEntry := (List.range n).map s.freqEntry

/-- The eight bytes ANALYZE writes for an entry (R100, R134): sym, three zeros, the count little-endian. -/
def FreqEntry.bytes (e : FreqEntry) : List Byte :=
  [e.sym, 0, 0, 0] ++ bytesOfWord 4 (BitVec.ofNat 32 e.cnt)

/-- Code bit j of CT[k]: bit `j mod 8` of byte `32 + j div 8` of the entry (R102). -/
def State.codeBit (s : State) (k j : Nat) : Bool :=
  (s.readByte .ctab (ctabEntry k + 32 + j / 8)).getLsbD (j % 8)

/-- CT[k].len (R101). -/
def State.codeLen (s : State) (k : Nat) : Nat := (s.readByte .ctab (ctabEntry k + 1)).toNat

/-- CT[k]: the symbol and `CT[k].code⟨0..CT[k].len)` (R101, R102). -/
def State.codeEntry (s : State) (k : Nat) : CodeEntry where
  sym := s.readByte .ctab (ctabEntry k)
  code := (List.range (s.codeLen k)).map (s.codeBit k)

/-- The CodeTable, CT[0..n) (R44). -/
def State.codeTable (s : State) (n : Nat) : List CodeEntry := (List.range n).map s.codeEntry

/-- The sixty-four bytes BUILD writes for an entry (R101, R157): sym, len, thirty zeros, the code bits LSB-first with
zeros after them. -/
def CodeEntry.bytes (e : CodeEntry) : List Byte :=
  [e.sym, BitVec.ofNat 8 e.code.length] ++ List.replicate 30 0 ++
    pack (e.code ++ List.replicate (256 - e.code.length) false)

/-- PBUF[0], the header H (R98). -/
def State.header (s : State) : Nat := (s.readByte .pbuf Region.pbuf.start).toNat

/-- The payload PBUF[1..n) of a PackedBuffer of n bytes (R98). -/
def State.payload (s : State) (n : Nat) : List Byte := s.readBytes .pbuf (Region.pbuf.start + 1) (n - 1)

end Sys2Proof.Machine
end

