-- ==== Sys2Proof/Machine/CodeTreeBuilder.lean ====
section
/-!
DEFINITION. The CodeTreeBuilder and the command BUILD (41_code_tree_builder.md).
-/

namespace Sys2Proof.Machine

/-- The imbalance of a split that leaves `left` of `total` on the left: `|left − (total − left)|`, exact (R151). -/
def imbalance (total left : Nat) : Nat := ((left : Int) - ((total : Int) - (left : Int))).natAbs

/-- The loop of SPLIT (R151) over the counts still to come: `j` is the next candidate, `left` the sum before it, `best`
the least imbalance so far with its index. The last count is no candidate (R152); a later equal imbalance does not
replace an earlier one (R153). -/
def splitLoop (total : Nat) : List Nat → Nat → Nat → Option (Nat × Nat) → Option (Nat × Nat)
  | c :: c' :: cs, j, left, best =>
    let d := imbalance total (left + c)
    let best' :=
      match best with
      | none => some (d, j)
      | some (bd, bj) => if d < bd then some (d, j) else some (bd, bj)
    splitLoop total (c' :: cs) (j + 1) (left + c) best'
  | [_], _, _, best => best
  | [], _, _, best => best

/-- SPLIT (R151): the smallest index of least imbalance. It is called on two counts or more. -/
def split (cs : List Nat) : Nat :=
  match splitLoop cs.sum cs 0 0 none with
  | some (_, j) => j
  | none => 0

/-- ASSIGN (R154): the codes of a sub-list, in its order. `fuel` bounds the depth; the list's length is enough (R156),
and a sub-list left when it runs out (which never happens then) keeps its path. -/
def assign : Nat → List Nat → List Bool → List (List Bool)
  | _, [], _ => []
  | _, [_], path => [path]
  | 0, cs, path => cs.map fun _ => path
  | fuel + 1, cs, path =>
    let mid := split cs
    assign fuel (cs.take (mid + 1)) (path ++ [false]) ++ assign fuel (cs.drop (mid + 1)) (path ++ [true])

/-- The codes of a FrequencyList's counts: one bit for a lone symbol (R155), the partition's paths otherwise (R154). -/
def buildCodes (single : Bool) (cs : List Nat) : List (List Bool) :=
  match cs with
  | [_] => [[single]]
  | _ => assign cs.length cs []

/-- The CodeTable of a FrequencyList, entry k for entry k (R157). -/
def buildTable (single : Bool) (fl : List FreqEntry) : List CodeEntry :=
  List.zipWith (fun e c => ⟨e.sym, c⟩) fl (buildCodes single (fl.map (·.cnt)))

/-- BUILD (R154, R157) with its fault (R160). -/
def buildRun (s : State) : Except Cause State :=
  let n := s.ftCount.val
  if n = 0 then .error .emptyFreq
  else
    let table := buildTable s.params.singleCodeBit (s.freqTable n)
    .ok { s.writeBytes (ctabEntry 0) (table.flatMap CodeEntry.bytes) with ctCount := BitVec.ofNat 32 n }

/-- BUILD, at its completion (R154, R252). -/
def execBuild (s : State) : Host.Outcome State Fault Refusal := .next (s.complete .codeTable (buildRun s))

end Sys2Proof.Machine
end

