-- ==== Sys2Proof/Machine/Control.lean ====
section
/-!
DEFINITION. The command CLEAR (R254). The other commands' issue is `State.writeCmd`, their completion
`State.complete` (Machine/Ops.lean).
-/

namespace Sys2Proof.Machine

/-- CLEAR, "performed at the CMD write itself, when BUSY = 0, whatever ERR is" (R254); while BUSY = 1 it is dropped
like any other CMD write (R250, R260). -/
def execClear (s : State) : Host.Outcome State Fault Refusal := .next (s.writeCmd clearWord)

end Sys2Proof.Machine
end

