-- ==== Sys2Proof/Machine/Encoder.lean ====
section
/-!
DEFINITION. The Encoder and the command ENCODE (43_encoder.md).
-/

namespace Sys2Proof.Machine

/-- `lookup(s)` (R201): the code of the one entry whose symbol is `x`; no entry is NO_CODE, two or more DUP_SYMBOL. -/
def lookupCode (table : List CodeEntry) (x : Byte) : Except Cause (List Bool) :=
  match table.filter fun e => e.sym == x with
  | [] => .error .noCode
  | [e] => .ok e.code
  | _ :: _ :: _ => .error .dupSymbol

/-- The concatenated codes of the input in input order, or the first byte's fault (R202, R205 step 6). -/
def encodeBits (table : List CodeEntry) : List Byte → Except Cause (List Bool)
  | [] => .ok []
  | x :: xs =>
    match lookupCode table x with
    | .error c => .error c
    | .ok code =>
      match encodeBits table xs with
      | .error c => .error c
      | .ok bits => .ok (code ++ bits)

/-- The PackedBuffer of a bit sequence: the header `8·nb − N` and the packed bytes (R98, R203). -/
def packedBuffer (bits : List Bool) : List Byte := BitVec.ofNat 8 (padBits bits.length) :: pack bits

/-- Some entry of CT[0..n) has `len = 0` (R205 step 5, R221 step 3). -/
def State.hasZeroLen (s : State) (n : Nat) : Bool := (List.range n).any fun k => s.codeLen k == 0

/-- The checks ENCODE and DECODE make of the table, in order: EMPTY_TABLE, CT_COUNT_RANGE, BAD_CODE_LEN (R205 steps 3
to 5, R221 steps 1 to 3). -/
def State.tableCheck (s : State) : Except Cause (List CodeEntry) :=
  let n := s.ctCount.toNat
  if n = 0 then .error .emptyTable
  else if 256 < n then .error .ctCountRange
  else if s.hasZeroLen n then .error .badCodeLen
  else .ok (s.codeTable n)

/-- ENCODE (R202) with its faults in order (R205). -/
def encodeRun (s : State) : Except Cause State :=
  let n := s.rawLen.toNat
  if n = 0 then .error .emptyInput
  else if s.params.inCap < n then .error .rawLenRange
  else
    match s.tableCheck with
    | .error c => .error c
    | .ok table =>
      match encodeBits table (s.rawInput n) with
      | .error c => .error c
      | .ok bits =>
        if s.params.pbCap < 1 + bytesFor bits.length then .error .pbOverflow
        else
          .ok { s.writeBytes Region.pbuf.start (packedBuffer bits) with
                pbLen := BitVec.ofNat 32 (1 + bytesFor bits.length), totalBits := BitVec.ofNat 32 bits.length }

/-- ENCODE, at its completion (R202, R252). -/
def execEncode (s : State) : Host.Outcome State Fault Refusal := .next (s.complete .packed (encodeRun s))

end Sys2Proof.Machine
end

