-- ==== Sys2Proof/Machine/Decoder.lean ====
section
/-!
DEFINITION. The Decoder and the command DECODE (44_decoder.md).
-/

namespace Sys2Proof.Machine

/-- `Match(p)` (R223), with `rest` the bits from p on: the entries whose whole code the remaining bits begin with. A
code longer than the remaining bits does not match. -/
def matchSet (table : List CodeEntry) (rest : List Bool) : List CodeEntry :=
  table.filter fun e => e.code.isPrefixOf rest

/-- The loop of DECODE (R224) over the bits from position p on. `skip` counts the bits of the last matched code that
lie ahead of p's next value; `room` is `IN_CAP − out`. At each position the match set decides: none is NO_MATCH, two or
more AMBIGUOUS, and a unique match with no room left DB_OVERFLOW (R227). -/
def decodeLoop (table : List CodeEntry) : List Bool → Nat → Nat → Except Cause (List Byte)
  | [], _, _ => .ok []
  | _ :: bits, skip + 1, room => decodeLoop table bits skip room
  | b :: bits, 0, room =>
    match matchSet table (b :: bits) with
    | [] => .error .noMatch
    | _ :: _ :: _ => .error .ambiguous
    | [e] =>
      match room with
      | 0 => .error .dbOverflow
      | room' + 1 => (decodeLoop table bits (e.code.length - 1) room').map (e.sym :: ·)

/-- The symbols a bit sequence decodes to, at most `room` of them (R224). -/
def decodeBits (table : List CodeEntry) (bits : List Bool) (room : Nat) : Except Cause (List Byte) :=
  decodeLoop table bits 0 room

/-- DECODE (R224): the table's checks, then the packed buffer's (R221), then the matching (R227). -/
def decodeRun (s : State) : Except Cause State :=
  match s.tableCheck with
  | .error c => .error c
  | .ok table =>
    let n := s.pbLen.toNat
    let h := s.header
    if n = 0 then .error .pbEmpty
    else if s.params.pbCap < n then .error .pbLenRange
    else if 7 < h then .error .badHeader
    else if 8 * (n - 1) < h then .error .badHeader
    else
      let u := unpack (s.payload n) h
      match decodeBits table u s.params.inCap with
      | .error c => .error c
      | .ok out =>
        .ok { s.writeBytes Region.dbuf.start out with
              decLen := BitVec.ofNat 32 out.length, totalBits := BitVec.ofNat 32 u.length }

/-- DECODE, at its completion (R224, R252). -/
def execDecode (s : State) : Host.Outcome State Fault Refusal := .next (s.complete .decoded (decodeRun s))

end Sys2Proof.Machine
end

