-- ==== Sys2Proof/Machine/FrequencyAnalyzer.lean ====
section
/-!
DEFINITION. The FrequencyAnalyzer and the command ANALYZE (40_frequency_analyzer.md).
-/

namespace Sys2Proof.Machine

/-- The distinct bytes of the input in the order they are first seen (R132, R134). -/
def firstSeen (raw : List Byte) : List Byte :=
  raw.foldl (fun order x => if order.contains x then order else order ++ [x]) []

/-- `x` put behind every element whose key is at least its own. -/
def insertDescending (key : Byte → Nat) (x : Byte) : List Byte → List Byte
  | [] => [x]
  | y :: ys => if key x ≤ key y then y :: insertDescending key x ys else x :: y :: ys

/-- `stable_sort(…, descending)` (R134): elements of equal key keep their order. -/
def stableSort (key : Byte → Nat) (xs : List Byte) : List Byte :=
  xs.foldl (fun acc x => insertDescending key x acc) []

/-- The FrequencyList of an input (R131 to R134). -/
def frequencyList (raw : List Byte) : List FreqEntry :=
  (stableSort (fun x => raw.count x) (firstSeen raw)).map fun x => ⟨x, raw.count x⟩

/-- ANALYZE (R134) with its faults in order (R135). -/
def analyzeRun (s : State) : Except Cause State :=
  let n := s.rawLen.toNat
  if n = 0 then .error .emptyInput
  else if s.params.inCap < n then .error .rawLenRange
  else
    let fl := frequencyList (s.rawInput n)
    .ok { s.writeBytes (ftabEntry 0) (fl.flatMap FreqEntry.bytes) with ftCount := Fin.ofNat 257 fl.length }

/-- ANALYZE, at its completion (R134, R252). -/
def execAnalyze (s : State) : Host.Outcome State Fault Refusal := .next (s.complete .frequency (analyzeRun s))

end Sys2Proof.Machine
end

