-- ==== Sys2Proof/Machine/HostBus.lean ====
section
/-!
DEFINITION. The four host transactions (R255 to R262). Each is checked by R261 first; a transaction that fails is
answered BUSERR and changes nothing else.
-/

namespace Sys2Proof.Machine

/-- RD32 of a register (R256): its current value, or a free value while it is in the pending command's destination. -/
def State.readRegister (s : State) (r : Reg) : State :=
  if s.busyDest.regs.contains r then
    { s.respond (.data (Config.freeWord s.draws)) with draws := s.draws + 1 }
  else s.respond (.data (s.regWord r))

/-- RD8 or RD32 in a window (R258): the current bytes, or a free value per byte while they lie in the pending command's
destination. -/
def State.readWindow (s : State) (r : Region) (size a : Nat) : State :=
  if s.busyDest.region = some r then
    { s.respond (.data (wordOfBytes ((List.range size).map fun i => Config.freeByte (s.draws + i)))) with
      draws := s.draws + size }
  else s.respond (.data (wordOfBytes (s.readBytes r a size)))

/-- WR32 of a register (R257). The read-only registers are "never reached" (R261); for them nothing changes. -/
def State.writeRegister (s : State) (r : Reg) (v : Word) : State :=
  match r with
  | .ctrl => s.writeCtrl v
  | .status => s.writeStatus v
  | .cmd => s.writeCmd v
  | .rawLen => if s.busy then s.dropWrite else { s with rawLen := v }
  | .ctCount => if s.busy then s.dropWrite else { s with ctCount := v }
  | .pbLen => if s.busy then s.dropWrite else { s with pbLen := v }
  | .id | .errcode | .ftCount | .decLen | .totalBits | .inCapReg | .pbCapReg => s

/-- WR8 or WR32 in a writable window (R259): dropped while BUSY, stored otherwise. -/
def State.writeWindow (s : State) (size a : Nat) (v : Word) : State :=
  if s.busy then s.dropWrite else s.writeBytes a (bytesOfWord size v)

/-- A read transaction of `size` bytes (R255, R256, R258). -/
def State.hostRead (s : State) (size : Nat) (offset : Word) : State :=
  match busCheck s.params .read size offset.toNat with
  | .error _ => s.respond .busErr
  | .ok (.register r) => s.readRegister r
  | .ok (.window r) => s.readWindow r size offset.toNat

/-- A write transaction of `size` bytes (R255, R257, R259). -/
def State.hostWrite (s : State) (size : Nat) (offset v : Word) : State :=
  match busCheck s.params .write size offset.toNat with
  | .error _ => s.respond .busErr
  | .ok (.register r) => (s.writeRegister r v).respond .ok
  | .ok (.window _) => (s.writeWindow size offset.toNat v).respond .ok

/-- RD8 (R258). -/
def execRd8 (offset : Word) (s : State) : Host.Outcome State Fault Refusal := .next (s.hostRead 1 offset)

/-- RD32 (R256, R258). -/
def execRd32 (offset : Word) (s : State) : Host.Outcome State Fault Refusal := .next (s.hostRead 4 offset)

/-- WR8 (R259). -/
def execWr8 (offset : Word) (data : Byte) (s : State) : Host.Outcome State Fault Refusal :=
  .next (s.hostWrite 1 offset (data.setWidth 32))

/-- WR32 (R257, R259). -/
def execWr32 (offset data : Word) (s : State) : Host.Outcome State Fault Refusal :=
  .next (s.hostWrite 4 offset data)

end Sys2Proof.Machine
end

