-- ==== Sys2Proof/Machine/Dispatch.lean ====
section
/-!
DEFINITION. One arm per instruction: a command's completion step (R252), CLEAR at its CMD write (R254), a host
transaction (R255).
-/

namespace Sys2Proof.Machine

def exec (i : Instr) (s : State) : Host.Outcome State Fault Refusal :=
  match i with
  | .analyze => Sys2Proof.Machine.execAnalyze s
  | .build => Sys2Proof.Machine.execBuild s
  | .encode => Sys2Proof.Machine.execEncode s
  | .decode => Sys2Proof.Machine.execDecode s
  | .clear => Sys2Proof.Machine.execClear s
  | .rd8 offset => Sys2Proof.Machine.execRd8 offset s
  | .rd32 offset => Sys2Proof.Machine.execRd32 offset s
  | .wr8 offset data => Sys2Proof.Machine.execWr8 offset data s
  | .wr32 offset data => Sys2Proof.Machine.execWr32 offset data s

end Sys2Proof.Machine
end

