-- ==== Sys2Proof/Machine/Step.lean ====
section
/-!
DEFINITION. One atomic step of the total order of R72: what `nextTurn` says comes next is carried out. The SFC fetches
nothing (R77); the step that runs a command is the Core's completion of PENDING (R252), the step that runs a
transaction is the Host's (R255).
-/

namespace Sys2Proof.Machine

/-- One step of the machine. -/
def step (s : State) : Host.Outcome State Fault Refusal :=
  match nextTurn s with
  | .idle => .next s.popMove
  | .ignored _ => .next (s.popMove.respond .platform)
  | .assertReset => .next s.popMove.hardReset
  | .releaseReset => .next s.popMove.releaseReset
  | .transaction r => exec (decodeRequest r) s.popMove
  | .completion w =>
    match decodeCmd w with
    | .ok i => exec i s.popMove
    | .error _ => .next s.popMove.completeIllegal

/-- `s` with an instruction placed so that the very next step runs it: a command word is made PENDING with the Core's
step next, as its issue leaves it (R250); CLEAR, which never pends (R254), and the bus requests are placed as the Host's
next transaction (assumption 8). -/
def State.withFetchWord (s : State) (nbits w : Nat) : State :=
  match Encoding.ofNat nbits w with
  | .error _ => s
  | .ok (.bus r) => { s with moves := .request r :: s.moves }
  | .ok (.command c) =>
    if c = clearWord then { s with moves := .request ⟨0b11#2, 0x010#32, clearWord⟩ :: s.moves }
    else { s.issue c with moves := .core :: s.moves }

end Sys2Proof.Machine
end

