-- ==== Sys2Proof/Safety.lean ====
section
/-!
DEFINITION. What a safe state and a finished run are, in the terms the statements use: the invariants of R50 and of
the rules they rest on, the end of a run (R335), and a run with no bus error (R262).
-/

namespace Sys2Proof.Machine

/-- The invariants of every reachable state: R50's list, and what the rules imply beside it. -/
structure State.Inv (s : State) : Prop where
  /-- R8: the parameters are in their legal ranges. -/
  params : s.params.wellFormed = true
  /-- R47, R50: PENDING ≠ none exactly when BUSY = 1. -/
  pending_iff_busy : s.pending.isSome = s.busy
  /-- R50: BUSY = 1 ⇒ DONE = 0. -/
  busy_not_done : s.busy = true → s.done = false
  /-- R50: ERR = 0 ⇒ ERRCODE = 0. -/
  no_err_no_cause : s.err = false → s.cause = .noFault
  /-- R50: ERR = 1 ⇒ ERRCODE ∈ 0x01..0x10. -/
  err_cause : s.err = true → s.cause ≠ .noFault
  /-- R292, R295: while ERR = 1 no command runs. -/
  busy_not_err : s.busy = true → s.err = false
  /-- R252, R254: CLEAR never pends. -/
  clear_not_pending : s.pending ≠ some clearWord
  /-- R20: the buffers and tables in their canonical form. -/
  mem_wf : s.mem.wf
  /-- R60, R61: a byte is held only at a mapped offset outside the registers. -/
  mem_mapped : ∀ c ∈ s.mem, ∃ r, r ≠ .registers ∧ regionOf s.params c.1 = some r
  /-- R320, R322: while `rst` is asserted the block holds its reset state; nothing is pending. -/
  rst_idle : s.rst = true → s.pending = none

/-- What the completion of a command with destination `d` leaves as it was (R253, R290, R293): the parameters, CTRL,
WERR and `rst`, every register that is not in the destination (STATUS and ERRCODE have rules of their own), every byte
outside the destination's region, and the model's schedule and record of responses. -/
structure State.KeptOutside (d : Dest) (s t : State) : Prop where
  params : t.params = s.params
  ie : t.ie = s.ie
  werr : t.werr = s.werr
  rst : t.rst = s.rst
  moves : t.moves = s.moves
  responses : t.responses = s.responses
  regs : ∀ r : Reg, r ≠ .status → r ≠ .errcode → r ∉ d.regs → t.regWord r = s.regWord r
  bytes : ∀ a : Nat, (∀ r : Region, d.region = some r → r.covers s.params a = false) → t.byteAt? a = s.byteAt? a

/-- Every part of destination `d` is UNSPEC in `t`, after a command that started in `s` (R253, R290): its registers hold
fresh free values, and every byte of its region the free value of the region's next generation. -/
def State.Unspec (d : Dest) (s t : State) : Prop :=
  match d with
  | .frequency =>
    t.ftCount = Config.freeCount s.draws ∧
      ∀ a, regionOf s.params a = some .ftab → t.byteAt? a = some (Config.unspecByte (s.gens.ftab + 1) a)
  | .codeTable =>
    t.ctCount = Config.freeWord s.draws ∧
      ∀ a, regionOf s.params a = some .ctab → t.byteAt? a = some (Config.unspecByte (s.gens.ctab + 1) a)
  | .packed =>
    t.pbLen = Config.freeWord s.draws ∧ t.totalBits = Config.freeWord (s.draws + 1) ∧
      ∀ a, regionOf s.params a = some .pbuf → t.byteAt? a = some (Config.unspecByte (s.gens.pbuf + 1) a)
  | .decoded =>
    t.decLen = Config.freeWord s.draws ∧ t.totalBits = Config.freeWord (s.draws + 1) ∧
      ∀ a, regionOf s.params a = some .dbuf → t.byteAt? a = some (Config.unspecByte (s.gens.dbuf + 1) a)
  | .nothing => True

/-- A completion that ended with the fault `c` (R252, R290): the cause recorded, ERR and DONE set, BUSY and PENDING
cleared, the destination UNSPEC, all else kept. -/
structure State.FaultTaken (d : Dest) (c : Cause) (s t : State) : Prop where
  cause : t.cause = c
  err : t.err = true
  done : t.done = true
  busy : t.busy = false
  pending : t.pending = none
  unspec : State.Unspec d s t
  kept : State.KeptOutside d s t

/-- A completion without fault (R252): DONE set, BUSY and PENDING cleared, ERR and ERRCODE as they were, everything
outside the destination kept. -/
structure State.Completed (d : Dest) (s t : State) : Prop where
  cause : t.cause = s.cause
  err : t.err = s.err
  done : t.done = true
  busy : t.busy = false
  pending : t.pending = none
  kept : State.KeptOutside d s t

/-- The register is in the pending command's destination while BUSY = 1 (R45, R253). -/
def State.RegHidden (s : State) (r : Reg) : Prop :=
  s.busy = true ∧
    ((s.pending = some analyzeWord ∧ r = .ftCount) ∨ (s.pending = some buildWord ∧ r = .ctCount) ∨
      (s.pending = some encodeWord ∧ (r = .pbLen ∨ r = .totalBits)) ∨
      (s.pending = some decodeWord ∧ (r = .decLen ∨ r = .totalBits)))

/-- The region is in the pending command's destination while BUSY = 1 (R45, R253). -/
def State.RegionHidden (s : State) (r : Region) : Prop :=
  s.busy = true ∧
    ((s.pending = some analyzeWord ∧ r = .ftab) ∨ (s.pending = some buildWord ∧ r = .ctab) ∨
      (s.pending = some encodeWord ∧ r = .pbuf) ∨ (s.pending = some decodeWord ∧ r = .dbuf))

/-- `size` bytes at an offset lie in one region, at an address the size allows (R261 checks 1 to 3). -/
def InWindow (p : Params) (r : Region) (size : Nat) (offset : Word) : Prop :=
  r ≠ .registers ∧ (∀ i < size, regionOf p (offset.toNat + i) = some r) ∧ (size = 4 → offset.toNat % 4 = 0)

/-- R45 covers the read: it passes the check of R261 and reaches a register or a window of the pending command's
destination while BUSY = 1. -/
def State.ReadHidden (s : State) (size : Nat) (offset : Word) : Prop :=
  (∃ r, busCheck s.params .read size offset.toNat = .ok (.register r) ∧ s.RegHidden r) ∨
    ∃ r, busCheck s.params .read size offset.toNat = .ok (.window r) ∧ s.RegionHidden r

/-- The next step is the transaction `i`. -/
def State.NextIs (s : State) (i : Instr) : Prop := ∃ r, nextTurn s = .transaction r ∧ decodeRequest r = i

/-- ASSIGN as the spec writes it (R154): a leaf takes its path, a longer sub-list is split and each half takes one more
bit. -/
inductive AssignTree : List Nat → List Bool → List (List Bool) → Prop where
  | leaf (c : Nat) (path : List Bool) : AssignTree [c] path [path]
  | node (cs : List Nat) (path : List Bool) (l r : List (List Bool)) (h : 2 ≤ cs.length)
      (hl : AssignTree (cs.take (split cs + 1)) (path ++ [false]) l)
      (hr : AssignTree (cs.drop (split cs + 1)) (path ++ [true]) r) : AssignTree cs path (l ++ r)

/-- Exactly one of the entries CT[0..n) has symbol `x`, the one at `k`: `E(x) = {k}` (R201). -/
def State.OnlyEntry (s : State) (n : Nat) (x : Byte) (k : Nat) : Prop :=
  k < n ∧ (s.codeEntry k).sym = x ∧ ∀ j < n, (s.codeEntry j).sym = x → j = k

/-- `Match(p) = {k}` where the remaining bits are `rest` (R223). -/
def State.OnlyMatch (s : State) (n : Nat) (rest : List Bool) (k : Nat) : Prop :=
  k < n ∧ (s.codeEntry k).code <+: rest ∧ ∀ j < n, (s.codeEntry j).code <+: rest → j = k

/-- The codes of a list of entries one after the other. -/
def State.codesOf (s : State) (ks : List Nat) : List Bool := ks.flatMap fun k => (s.codeEntry k).code

/-- The entries `ks` are what the loop of R224 matches, one after the other, on bits that go on with `tail`. -/
def State.Parses (s : State) (n : Nat) (ks : List Nat) (tail : List Bool) : Prop :=
  ∀ before k after, ks = before ++ k :: after → s.OnlyMatch n (s.codesOf (k :: after) ++ tail) k

/-- The table passes the checks ENCODE and DECODE make of it (R205 steps 3 to 5, R221 steps 1 to 3). -/
def State.TableOk (s : State) : Prop :=
  1 ≤ s.ctCount.toNat ∧ s.ctCount.toNat ≤ 256 ∧ ∀ k < s.ctCount.toNat, s.codeLen k ≠ 0

/-- The packed buffer passes DECODE's checks (R221 steps 4 to 7). -/
def State.PackedOk (s : State) : Prop :=
  1 ≤ s.pbLen.toNat ∧ s.pbLen.toNat ≤ s.params.pbCap ∧ s.header ≤ 7 ∧ s.header ≤ 8 * (s.pbLen.toNat - 1)

/-- The bits DECODE matches: `u` of R222. -/
def State.payloadBits (s : State) : List Bool := unpack (s.payload s.pbLen.toNat) s.header

/-- A run is finished (R335): no transaction left, no command in flight, no reset asserted. -/
def State.finished (s : State) : Bool := s.moves.isEmpty && s.pending.isNone && !s.rst

/-- No transaction of the run so far was refused with BUSERR (R262, R335). -/
def State.noBusErr (s : State) : Bool := !s.responses.contains .busErr

/-- The marks R335 puts on a run that ends in this state: some transaction of it received BUSERR, or ERR = 1. DESIGN
CHOICE (assumption 20): R335 does not say at which moment ERR counts; here it is the ERR of the end, so a fault that
CLEAR or a reset has wiped leaves no mark, while BUSERR is kept for the whole run. -/
def State.runMarked (s : State) : Bool := !s.noBusErr || s.err

end Sys2Proof.Machine
end

