-- ==== Sys2Proof/Certificates/Slice0/Obligations.lean ====
section
/-!
DEFINITION. The statements for the provers, from the numbered rules of spec/. Vocabulary beyond the machine's own is in
Sys2Proof/Safety.lean. Three things a statement names are the model's own form of what the spec says, never a value of
it: UNSPEC is a free value numbered by `draws` or `gens` (assumptions 3 to 5), the order of the atomic steps is `moves`
(assumption 2), and the responses given are listed in `responses` (assumption 10). No statement rests on what a free
value is.
-/

open Sys2Proof Sys2Proof.Machine

/-! ## Encodings -/

/-- R92, R96: every instruction, encoded as the number of its bits, is decoded back, with every operand at every
value. -/
def Obligations.DecodeOfEncodedBits : Prop :=
  ∀ i : Instr, decodeTableWord (encode i).nbits (encode i).toNat = some i

/-- R90, R92, R93, R96: a well-formed command word or request that decodes is what the encoder gives; and every
request, its unused DATA bits set or not, decodes by its KIND: reads ignore DATA, WR8 takes DATA[7:0] only. -/
def Obligations.EncodeOfDecoded : Prop :=
  (∀ (e : Encoding) (i : Instr), e.wellFormed = true → decode e = .ok i → encode i = e) ∧
  ∀ offset data : Word,
    decode (.bus ⟨0b00#2, offset, data⟩) = .ok (.rd8 offset) ∧
    decode (.bus ⟨0b01#2, offset, data⟩) = .ok (.rd32 offset) ∧
    decode (.bus ⟨0b10#2, offset, data⟩) = .ok (.wr8 offset (BitVec.ofNat 8 (data.toNat % 2 ^ 8))) ∧
    decode (.bus ⟨0b11#2, offset, data⟩) = .ok (.wr32 offset data)

/-- R107: `decode_cmd` is total, with exactly the six outcomes. -/
def Obligations.CommandWordOutcomes : Prop :=
  ∀ w : Word,
    (decodeCmd w = .ok .analyze ↔ w = 0x00000001#32) ∧ (decodeCmd w = .ok .build ↔ w = 0x00000002#32) ∧
    (decodeCmd w = .ok .encode ↔ w = 0x00000003#32) ∧ (decodeCmd w = .ok .decode ↔ w = 0x00000004#32) ∧
    (decodeCmd w = .ok .clear ↔ w = 0x00000080#32) ∧
    ((∃ e, decodeCmd w = .error e) ↔
      w ≠ 0x00000001#32 ∧ w ≠ 0x00000002#32 ∧ w ≠ 0x00000003#32 ∧ w ≠ 0x00000004#32 ∧ w ≠ 0x00000080#32)

/-- R92, R96: words written out from the spec's tables decode to their instructions (a sanity statement). -/
def Obligations.SpecWordsDecode : Prop :=
  decodeTableWord 32 0x00000001 = some .analyze ∧ decodeTableWord 32 0x00000002 = some .build ∧
  decodeTableWord 32 0x00000003 = some .encode ∧ decodeTableWord 32 0x00000004 = some .decode ∧
  decodeTableWord 32 0x00000080 = some .clear ∧ decodeTableWord 32 0x00000101 = none ∧
  decode (.bus ⟨0b00#2, 0x30000000#32, 0⟩) = .ok (.rd8 0x30000000#32) ∧
  decode (.bus ⟨0b01#2, 0x00000008#32, 0⟩) = .ok (.rd32 0x00000008#32) ∧
  decode (.bus ⟨0b10#2, 0x10000004#32, 0x00000063#32⟩) = .ok (.wr8 0x10000004#32 0x63#8) ∧
  decode (.bus ⟨0b11#2, 0x00000014#32, 0x00000005#32⟩) = .ok (.wr32 0x00000014#32 0x00000005#32)

/-! ## Steps -/

/-- R72, R252, R255: a step runs the decoded instruction. A host request that comes next is executed on the state with
that move used up; so is the pending command's instruction when the Core's turn comes, or when nothing is scheduled.
That the order is read from `moves` is the model's choice (assumption 2). -/
def Obligations.StepRunsDecodedInstruction : Prop :=
  (∀ (s : State) (r : Request) (ms : List Move), s.rst = false → s.moves = .request r :: ms →
    step s = exec (decodeRequest r) { s with moves := ms }) ∧
  (∀ (s : State) (ms : List Move) (w : Word) (i : Instr), s.rst = false → s.moves = .core :: ms →
    s.pending = some w → decodeCmd w = .ok i → step s = exec i { s with moves := ms }) ∧
  ∀ (s : State) (w : Word) (i : Instr), s.rst = false → s.moves = [] → s.pending = some w →
    decodeCmd w = .ok i → step s = exec i s

/-- R335: in a finished run a step changes nothing. -/
def Obligations.FinishedRunStaysFinished : Prop := ∀ s : State, s.finished = true → step s = .next s

/-- 93_implementation_defined.md: no behaviour is `stuck`; every step answers a next state. -/
def Obligations.EveryStepAnswersNext : Prop := ∀ s : State, ∃ t, step s = .next t

/-- R252, R335: under the fairness R252 assumes, every run ends with no transaction left and no command in flight. That
the Core moves once the schedule is used up is the model's form of the fairness (assumption 2). -/
def Obligations.EveryRunEndsWithNothingPending : Prop :=
  ∀ s : State, s.Inv → ∃ t, core.run (s.moves.length + 1) s = .next t ∧ t.moves = [] ∧ t.pending = none

/-- R93: a word that is none of the five is issued like a command when ERR = 0, rejected when ERR = 1, and its
completion raises ILLEGAL_CMD and changes no destination. -/
def Obligations.IllegalWordFaults : Prop :=
  ∀ (s : State) (w : Word),
    w ≠ 0x00000001#32 → w ≠ 0x00000002#32 → w ≠ 0x00000003#32 → w ≠ 0x00000004#32 → w ≠ 0x00000080#32 →
    (s.busy = false → s.err = false →
      exec (.wr32 0x010#32 w) s =
        .next { s with busy := true, done := false, pending := some w, responses := .ok :: s.responses }) ∧
    (s.busy = false → s.err = true →
      exec (.wr32 0x010#32 w) s = .next { s with done := true, responses := .ok :: s.responses }) ∧
    ∀ ms, s.rst = false → s.moves = .core :: ms → s.pending = some w →
      step s = .next { s with
        moves := ms, cause := .illegalCmd, err := true, busy := false, pending := none, done := true }

/-! ## Invariants -/

/-- R50, R47: the invariant holds after reset. -/
def Obligations.InvariantAtReset : Prop := State.reset.Inv

/-- R50, R47, R60: every step from a state that meets the invariant leads to one that meets it. -/
def Obligations.StepKeepsInvariant : Prop := ∀ s t : State, s.Inv → step s = .next t → t.Inv

/-- R50: the five invariants in every state reachable from reset under every schedule of moves, and CT_COUNT, RAW_LEN
and PB_LEN can hold any 32-bit value. -/
def Obligations.ReachableStatesMeetR50 : Prop :=
  (∀ (moves : List Move) (k : Nat) (s : State), core.run k { State.reset with moves := moves } = .next s →
    (s.regWord .ftCount).toNat ≤ 256 ∧
    (s.pending ≠ none ↔ s.busy = true) ∧
    (s.busy = true → s.done = false) ∧
    (s.err = false → s.regWord .errcode = 0) ∧
    (s.err = true → 0x01 ≤ (s.regWord .errcode).toNat ∧ (s.regWord .errcode).toNat ≤ 0x10)) ∧
  ∀ v : Word, ∃ (moves : List Move) (k : Nat) (s : State),
    core.run k { State.reset with moves := moves } = .next s ∧ s.ctCount = v ∧ s.rawLen = v ∧ s.pbLen = v

/-- R23, R38, R39: ID, IN_CAP_REG and PB_CAP_REG are hardwired: in every state they read their constants, and no step,
reset included, changes the parameters behind them. -/
def Obligations.HardwiredRegistersNeverChange : Prop :=
  (∀ s : State,
    exec (.rd32 0x000#32) s = .next (s.respond (.data 0x53464301#32)) ∧
    exec (.rd32 0x02C#32) s = .next (s.respond (.data (BitVec.ofNat 32 s.params.inCap))) ∧
    exec (.rd32 0x030#32) s = .next (s.respond (.data (BitVec.ofNat 32 s.params.pbCap)))) ∧
  ∀ s t : State, step s = .next t → t.params = s.params

/-! ## Reset -/

/-- R52: the table of values after hard reset and after CLEAR. UNSPEC bytes read as free values of a new generation
(assumption 3). -/
def Obligations.ResetAndClearValues : Prop :=
  ∀ s : State,
    (∀ ms, s.moves = .assertRst :: .releaseRst :: ms →
      ∃ t u, step s = .next t ∧ step t = .next u ∧ u.rst = false ∧ u.moves = ms ∧
        u.regWord .id = 0x53464301#32 ∧ u.regWord .inCapReg = BitVec.ofNat 32 s.params.inCap ∧
        u.regWord .pbCapReg = BitVec.ofNat 32 s.params.pbCap ∧
        (∀ r, r ≠ .id → r ≠ .inCapReg → r ≠ .pbCapReg → u.regWord r = 0) ∧
        u.pending = none ∧ u.irq = false ∧
        ∀ (r : Region) (a : Nat), r ≠ .registers → regionOf s.params a = some r →
          u.byteAt? a = some (Config.unspecByte (s.gens.of r + 1) a)) ∧
    (s.busy = false → ∃ t, exec .clear s = .next t ∧
        t.regWord .id = 0x53464301#32 ∧ t.regWord .inCapReg = BitVec.ofNat 32 s.params.inCap ∧
        t.regWord .pbCapReg = BitVec.ofNat 32 s.params.pbCap ∧ t.ie = s.ie ∧
        (∀ r, r ≠ .id → r ≠ .inCapReg → r ≠ .pbCapReg → r ≠ .ctrl → t.regWord r = 0) ∧
        t.pending = none ∧ t.irq = false ∧ ∀ a, t.byteAt? a = s.byteAt? a)

/-- R322, R320: reset while a command is pending abandons it: nothing of it is left, no completion happens while `rst`
is asserted, and a transaction then changes nothing but the record of responses. Nothing but completion and reset ends
a pending command. That the reset values stand from assertion on, and that an ignored transaction is recorded as
`platform`, are the model's choices (assumption 7). -/
def Obligations.ResetAbandonsPendingCommand : Prop :=
  (∀ (s : State) (ms : List Move), s.moves = .assertRst :: ms →
    step s = .next { State.reset with
      params := s.params, rst := true, moves := ms, responses := s.responses, draws := s.draws,
      gens := ⟨s.gens.ftab + 1, s.gens.ctab + 1, s.gens.rawbuf + 1, s.gens.dbuf + 1, s.gens.pbuf + 1⟩ }) ∧
  (∀ s : State, s.rst = true → ∀ w, nextTurn s ≠ .completion w) ∧
  (∀ (s : State) (r : Request) (ms : List Move), s.rst = true → s.moves = .request r :: ms →
    step s = .next { s with moves := ms, responses := .platform :: s.responses }) ∧
  (∀ (s : State) (ms : List Move), s.moves = .releaseRst :: ms →
    step s = .next { s with moves := ms, rst := false }) ∧
  ∀ (s t : State) (w : Word), s.Inv → s.pending = some w → step s = .next t → t.pending = none →
    nextTurn s = .completion w ∨ nextTurn s = .assertReset

/-- R321: right after reset the block is idle, and BUILD, ENCODE and DECODE fault with the causes the reset values
give. -/
def Obligations.CommandsRightAfterResetFault : Prop :=
  State.reset.busy = false ∧
  (∃ t, exec .build State.reset = .next t ∧ State.FaultTaken .codeTable .emptyFreq State.reset t) ∧
  (∃ t, exec .encode State.reset = .next t ∧ State.FaultTaken .packed .emptyInput State.reset t) ∧
  ∃ t, exec .decode State.reset = .next t ∧ State.FaultTaken .decoded .emptyTable State.reset t

/-! ## Commands: issue, rejection, CLEAR, faults -/

/-- R250, R251: the four cases of a CMD write; a one-byte write of CMD is a bus error; an illegal word, once pending,
faults at its completion. -/
def Obligations.CommandIssue : Prop :=
  (∀ (s : State) (w : Word), ∃ t, exec (.wr32 0x010#32 w) s = .next (t.respond .ok) ∧
    (s.busy = true → t = { s with werr := true }) ∧
    (s.busy = false → w = 0x00000080#32 → exec .clear s = .next t) ∧
    (s.busy = false → w ≠ 0x00000080#32 → s.err = true → t = { s with done := true }) ∧
    (s.busy = false → w ≠ 0x00000080#32 → s.err = false →
      t = { s with done := false, busy := true, pending := some w })) ∧
  (∀ (s : State) (b : Byte), exec (.wr8 0x010#32 b) s = .next { s with responses := .busErr :: s.responses }) ∧
  ∀ (s : State) (w : Word) (e : DecodeError), decodeCmd w = .error e → s.pending = some w →
    nextTurn s = .completion w → ∃ t, step s = .next t ∧ t.err = true ∧ t.cause = .illegalCmd ∧ t.done = true

/-- R254: CLEAR's effect when BUSY = 0, whatever ERR is; while BUSY = 1 it is dropped. -/
def Obligations.ClearEffect : Prop :=
  ∀ s : State,
    (s.busy = false → exec .clear s = .next { s with
      busy := false, done := false, err := false, werr := false, cause := .noFault, rawLen := 0, ftCount := 0,
      ctCount := 0, pbLen := 0, decLen := 0, totalBits := 0, pending := none }) ∧
    (s.busy = true → exec .clear s = .next { s with werr := true })

/-- R253, R290, R293, and R130, R150, R200, R220: completing a command changes no state outside its destination but
STATUS and ERRCODE, whether it succeeds or faults. -/
def Obligations.CommandFrames : Prop :=
  ∀ s : State,
    (∃ t, exec .analyze s = .next t ∧ State.KeptOutside .frequency s t) ∧
    (∃ t, exec .build s = .next t ∧ State.KeptOutside .codeTable s t) ∧
    (∃ t, exec .encode s = .next t ∧ State.KeptOutside .packed s t) ∧
    ∃ t, exec .decode s = .next t ∧ State.KeptOutside .decoded s t

/-- R290: fault entry. Whenever a command's run ends with Fault(c), its completion records c, sets ERR and DONE, clears
BUSY and PENDING, makes its destination UNSPEC (free values, assumptions 3 and 4) and keeps everything else; ERRCODE
then reads the code of R281. So does the completion of an illegal word, whose destination is empty. -/
def Obligations.FaultEntry : Prop :=
  ∀ (s : State) (c : Cause),
    (analyzeRun s = .error c →
      ∃ t, exec .analyze s = .next t ∧ State.FaultTaken .frequency c s t ∧ t.regWord .errcode = c.code.setWidth 32) ∧
    (buildRun s = .error c →
      ∃ t, exec .build s = .next t ∧ State.FaultTaken .codeTable c s t ∧ t.regWord .errcode = c.code.setWidth 32) ∧
    (encodeRun s = .error c →
      ∃ t, exec .encode s = .next t ∧ State.FaultTaken .packed c s t ∧ t.regWord .errcode = c.code.setWidth 32) ∧
    (decodeRun s = .error c →
      ∃ t, exec .decode s = .next t ∧ State.FaultTaken .decoded c s t ∧ t.regWord .errcode = c.code.setWidth 32) ∧
    State.FaultTaken .nothing .illegalCmd s s.completeIllegal

/-- R281: the code each cause leaves in ERRCODE. -/
def Obligations.FaultCodes : Prop :=
  ∀ (s : State) (c : Cause), (∀ code : Nat, (c, code) ∈
    [(Cause.noFault, 0x00), (.illegalCmd, 0x01), (.emptyInput, 0x02), (.rawLenRange, 0x03), (.emptyFreq, 0x04),
     (.emptyTable, 0x05), (.ctCountRange, 0x06), (.badCodeLen, 0x07), (.noCode, 0x08), (.dupSymbol, 0x09),
     (.pbOverflow, 0x0A), (.pbEmpty, 0x0B), (.pbLenRange, 0x0C), (.badHeader, 0x0D), (.noMatch, 0x0E),
     (.ambiguous, 0x0F), (.dbOverflow, 0x10)] →
    exec (.rd32 0x00C#32) { s with cause := c } =
      .next ({ s with cause := c }.respond (.data (BitVec.ofNat 32 code)))) ∧
    (s.regWord .errcode).toNat ≤ 0x10

/-- R280: ERR is set by the completion of the pending command and by nothing else. -/
def Obligations.FaultsOnlyAtCompletion : Prop :=
  ∀ s t : State, step s = .next t → s.err = false → t.err = true →
    ∃ w, s.pending = some w ∧ nextTurn s = .completion w

/-- R291: while ERR stays 1, ERRCODE keeps the first fault's code, and no command runs. -/
def Obligations.FirstFaultCodeKept : Prop :=
  ∀ s t : State, s.Inv → s.err = true → step s = .next t →
    (∀ w, nextTurn s ≠ .completion w) ∧ (t.err = true → t.cause = s.cause)

/-- R27, R294: ERR is cleared only by CLEAR and by reset. That a reset clears it at the assertion of `rst` is the model's
choice (assumption 7). -/
def Obligations.ErrClearedOnlyByClearOrReset : Prop :=
  ∀ s t : State, s.Inv → step s = .next t → s.err = true → t.err = false →
    s.NextIs (.wr32 0x010#32 0x00000080#32) ∨ nextTurn s = .assertReset

/-- R26: what sets DONE and what clears it. That a reset clears it at the assertion of `rst` is the model's choice
(assumption 7). -/
def Obligations.DoneSetAndCleared : Prop :=
  ∀ s t : State, s.Inv → step s = .next t →
    (∀ w, nextTurn s = .completion w → t.done = true) ∧
    (∀ w, s.NextIs (.wr32 0x010#32 w) → w ≠ 0x00000080#32 → s.busy = false → s.err = true → t.done = true) ∧
    (s.done = false → t.done = true →
      (∃ w, nextTurn s = .completion w) ∨
      ∃ w, s.NextIs (.wr32 0x010#32 w) ∧ w ≠ 0x00000080#32 ∧ s.busy = false ∧ s.err = true) ∧
    (∀ w, s.NextIs (.wr32 0x010#32 w) → w ≠ 0x00000080#32 → s.busy = false → s.err = false → t.done = false) ∧
    (∀ v, s.NextIs (.wr32 0x008#32 v) → v.getLsbD 1 = true → t.done = false) ∧
    (s.NextIs (.wr32 0x010#32 0x00000080#32) → s.busy = false → t.done = false) ∧
    (nextTurn s = .assertReset → t.done = false) ∧
    (s.done = true → t.done = false →
      (∃ w, s.NextIs (.wr32 0x010#32 w) ∧ (w = 0x00000080#32 ∨ s.err = false)) ∨
      (∃ v, s.NextIs (.wr32 0x008#32 v) ∧ v.getLsbD 1 = true) ∨ nextTurn s = .assertReset)

/-- R28, R260, R261: WERR is set by a dropped write, which is one that passes the check while BUSY = 1 and writes
neither CTRL nor STATUS, and by nothing else; and what clears it. That a reset clears it at the assertion of `rst` is the
model's choice (assumption 7). -/
def Obligations.WerrSetAndCleared : Prop :=
  ∀ s t : State, s.Inv → step s = .next t →
    (s.werr = false → t.werr = true →
      s.busy = true ∧
        ((∃ o v x, s.NextIs (.wr8 o v) ∧ busCheck s.params .write 1 o.toNat = .ok x) ∨
          ∃ o v x, s.NextIs (.wr32 o v) ∧ o ≠ 0x004#32 ∧ o ≠ 0x008#32 ∧
            busCheck s.params .write 4 o.toNat = .ok x)) ∧
    (∀ o v x, s.busy = true → s.NextIs (.wr8 o v) → busCheck s.params .write 1 o.toNat = .ok x → t.werr = true) ∧
    (∀ o v x, s.busy = true → s.NextIs (.wr32 o v) → o ≠ 0x004#32 → o ≠ 0x008#32 →
      busCheck s.params .write 4 o.toNat = .ok x → t.werr = true) ∧
    (∀ v, s.NextIs (.wr32 0x008#32 v) → v.getLsbD 3 = true → t.werr = false) ∧
    (s.NextIs (.wr32 0x010#32 0x00000080#32) → s.busy = false → t.werr = false) ∧
    (nextTurn s = .assertReset → t.werr = false) ∧
    (s.werr = true → t.werr = false →
      (∃ v, s.NextIs (.wr32 0x008#32 v) ∧ v.getLsbD 3 = true) ∨
      (s.NextIs (.wr32 0x010#32 0x00000080#32) ∧ s.busy = false) ∨ nextTurn s = .assertReset)

/-- R298, R299, R49: masking leaves DONE, setting IE raises `irq` at once if DONE = 1,
and a STATUS write with bit 1 set, the next issue, CLEAR and reset lower it; every completion and every rejection raises
it if IE = 1. That a reset lowers it at the assertion of `rst` is the model's choice (assumption 7, unsafe for `irq`). -/
def Obligations.InterruptLevel : Prop :=
  ∀ s : State,
    (∀ v, ∃ t, exec (.wr32 0x004#32 v) s = .next t ∧ t.done = s.done ∧ t.irq = (v.getLsbD 0 && s.done)) ∧
    (∀ v, v.getLsbD 1 = true → ∃ t, exec (.wr32 0x008#32 v) s = .next t ∧ t.irq = false ∧ t.ie = s.ie) ∧
    (∀ w, s.busy = false → s.err = false → w ≠ 0x00000080#32 →
      ∃ t, exec (.wr32 0x010#32 w) s = .next t ∧ t.irq = false ∧ t.ie = s.ie) ∧
    (s.busy = false → ∃ t, exec .clear s = .next t ∧ t.irq = false ∧ t.ie = s.ie) ∧
    (∀ ms, s.moves = .assertRst :: ms → ∃ t, step s = .next t ∧ t.irq = false) ∧
    (∀ w, s.busy = false → s.err = true → w ≠ 0x00000080#32 →
      ∃ t, exec (.wr32 0x010#32 w) s = .next t ∧ t.irq = s.ie) ∧
    s.completeIllegal.irq = s.ie ∧
    (∃ t, exec .analyze s = .next t ∧ t.irq = s.ie) ∧ (∃ t, exec .build s = .next t ∧ t.irq = s.ie) ∧
    (∃ t, exec .encode s = .next t ∧ t.irq = s.ie) ∧ ∃ t, exec .decode s = .next t ∧ t.irq = s.ie

/-! ## Host transactions -/

/-- R60, R61: the address map, range by range; every other offset is unmapped. -/
def Obligations.AddressMap : Prop :=
  ∀ (p : Params) (a : Nat), p.wellFormed = true →
    (regionOf p a = some .registers ↔ a ≤ 0x00000033) ∧
    (regionOf p a = some .ftab ↔ 0x00001000 ≤ a ∧ a ≤ 0x000017FF) ∧
    (regionOf p a = some .ctab ↔ 0x00010000 ≤ a ∧ a ≤ 0x00013FFF) ∧
    (regionOf p a = some .rawbuf ↔ 0x10000000 ≤ a ∧ a ≤ 0x10000000 + p.inCap - 1) ∧
    (regionOf p a = some .dbuf ↔ 0x20000000 ≤ a ∧ a ≤ 0x20000000 + p.inCap - 1) ∧
    (regionOf p a = some .pbuf ↔ 0x30000000 ≤ a ∧ a ≤ 0x30000000 + p.pbCap - 1) ∧
    (regionOf p a = none ↔
      (0x034 ≤ a ∧ a ≤ 0xFFF) ∨ (0x1800 ≤ a ∧ a ≤ 0xFFFF) ∨ (0x14000 ≤ a ∧ a ≤ 0xFFFFFFF) ∨
      (0x10000000 + p.inCap ≤ a ∧ a ≤ 0x1FFFFFFF) ∨ (0x20000000 + p.inCap ≤ a ∧ a ≤ 0x2FFFFFFF) ∨
      0x30000000 + p.pbCap ≤ a)

/-- R261, R63, R64, R65: exactly which accesses of size 1 and 4 pass the check. -/
def Obligations.TransactionCheck : Prop :=
  ∀ (p : Params) (acc : Access) (size a : Nat), size = 1 ∨ size = 4 →
    ((∃ t, busCheck p acc size a = .ok t) ↔
      ∃ r, (∀ i < size, regionOf p (a + i) = some r) ∧ (r = .registers → size = 4) ∧ (size = 4 → a % 4 = 0) ∧
        (acc = .write → r = .ctab ∨ r = .rawbuf ∨ r = .pbuf ∨
          (r = .registers ∧ a ∈ [0x004, 0x008, 0x010, 0x014, 0x01C, 0x020])))

/-- R262, R296: a transaction that fails the check is answered BUSERR, and that response is all that changes. -/
def Obligations.BusErrorChangesNothing : Prop :=
  ∀ (s : State) (offset v : Word) (b : Byte) (e : BusError),
    (busCheck s.params .read 1 offset.toNat = .error e →
      exec (.rd8 offset) s = .next { s with responses := .busErr :: s.responses }) ∧
    (busCheck s.params .read 4 offset.toNat = .error e →
      exec (.rd32 offset) s = .next { s with responses := .busErr :: s.responses }) ∧
    (busCheck s.params .write 1 offset.toNat = .error e →
      exec (.wr8 offset b) s = .next { s with responses := .busErr :: s.responses }) ∧
    (busCheck s.params .write 4 offset.toNat = .error e →
      exec (.wr32 offset v) s = .next { s with responses := .busErr :: s.responses })

/-- R256: RD32 of each register; UNSPEC, a free value (assumption 5), exactly for the pending command's destination
registers. -/
def Obligations.RegisterReads : Prop :=
  ∀ (s : State) (r : Reg),
    (s.RegHidden r → exec (.rd32 (BitVec.ofNat 32 r.offset)) s = .next { s with
      responses := .data (Config.freeWord s.draws) :: s.responses, draws := s.draws + 1 }) ∧
    (¬ s.RegHidden r → exec (.rd32 (BitVec.ofNat 32 r.offset)) s = .next { s with
      responses := .data
        (match r with
        | .id => 0x53464301#32
        | .ctrl => BitVec.ofNat 32 s.ie.toNat
        | .status => BitVec.ofNat 32 (s.busy.toNat + 2 * s.done.toNat + 4 * s.err.toNat + 8 * s.werr.toNat)
        | .errcode => s.cause.code.setWidth 32
        | .cmd => 0
        | .rawLen => s.rawLen
        | .ftCount => BitVec.ofNat 32 s.ftCount.val
        | .ctCount => s.ctCount
        | .pbLen => s.pbLen
        | .decLen => s.decLen
        | .totalBits => s.totalBits
        | .inCapReg => BitVec.ofNat 32 s.params.inCap
        | .pbCapReg => BitVec.ofNat 32 s.params.pbCap) :: s.responses })

/-- R257, R24, R29: WR32 of each register. -/
def Obligations.RegisterWrites : Prop :=
  ∀ (s : State) (v : Word),
    exec (.wr32 0x004#32 v) s = .next { s with ie := v.getLsbD 0, responses := .ok :: s.responses } ∧
    exec (.wr32 0x008#32 v) s = .next { s with
      done := s.done && !v.getLsbD 1, werr := s.werr && !v.getLsbD 3, responses := .ok :: s.responses } ∧
    exec (.wr32 0x010#32 v) s = .next ((s.writeCmd v).respond .ok) ∧
    (s.busy = false →
      exec (.wr32 0x014#32 v) s = .next { s with rawLen := v, responses := .ok :: s.responses } ∧
      exec (.wr32 0x01C#32 v) s = .next { s with ctCount := v, responses := .ok :: s.responses } ∧
      exec (.wr32 0x020#32 v) s = .next { s with pbLen := v, responses := .ok :: s.responses }) ∧
    (s.busy = true → ∀ o ∈ [0x014#32, 0x01C#32, 0x020#32],
      exec (.wr32 o v) s = .next { s with werr := true, responses := .ok :: s.responses }) ∧
    ∀ o ∈ [0x000#32, 0x00C#32, 0x018#32, 0x024#32, 0x028#32, 0x02C#32, 0x030#32],
      exec (.wr32 o v) s = .next { s with responses := .busErr :: s.responses }

/-- R258: RD8 and RD32 in a window: the current bytes, little-endian, or a free value for each byte (assumption 5) while
the window is the pending command's destination. -/
def Obligations.WindowReads : Prop :=
  ∀ (s : State) (r : Region) (offset : Word),
    (InWindow s.params r 1 offset →
      (¬ s.RegionHidden r → exec (.rd8 offset) s = .next { s with
        responses := .data ((s.readByte r offset.toNat).setWidth 32) :: s.responses }) ∧
      (s.RegionHidden r → exec (.rd8 offset) s = .next { s with
        responses := .data ((Config.freeByte s.draws).setWidth 32) :: s.responses, draws := s.draws + 1 })) ∧
    (InWindow s.params r 4 offset →
      (¬ s.RegionHidden r → ∃ v, exec (.rd32 offset) s = .next { s with responses := .data v :: s.responses } ∧
        ∀ j < 4, v.extractLsb' (8 * j) 8 = s.readByte r (offset.toNat + j)) ∧
      (s.RegionHidden r → ∃ v,
        exec (.rd32 offset) s = .next { s with responses := .data v :: s.responses, draws := s.draws + 4 } ∧
        ∀ j < 4, v.extractLsb' (8 * j) 8 = Config.freeByte (s.draws + j)))

/-- R259, R66, R69: WR8 and WR32 in a writable window: the bytes stored, and nothing else changed; dropped with WERR
while BUSY. -/
def Obligations.WindowWrites : Prop :=
  ∀ (s : State) (r : Region) (offset v : Word) (b : Byte), (r = .ctab ∨ r = .rawbuf ∨ r = .pbuf) →
    (InWindow s.params r 1 offset →
      (s.busy = true → exec (.wr8 offset b) s = .next { s with werr := true, responses := .ok :: s.responses }) ∧
      (s.busy = false → ∃ m, exec (.wr8 offset b) s = .next { s with mem := m, responses := .ok :: s.responses } ∧
        { s with mem := m }.byteAt? offset.toNat = some b ∧
        ∀ a, a ≠ offset.toNat → { s with mem := m }.byteAt? a = s.byteAt? a)) ∧
    (InWindow s.params r 4 offset →
      (s.busy = true → exec (.wr32 offset v) s = .next { s with werr := true, responses := .ok :: s.responses }) ∧
      (s.busy = false → ∃ m, exec (.wr32 offset v) s = .next { s with mem := m, responses := .ok :: s.responses } ∧
        (∀ j < 4, { s with mem := m }.byteAt? (offset.toNat + j) = some (v.extractLsb' (8 * j) 8)) ∧
        ∀ a, (a < offset.toNat ∨ offset.toNat + 4 ≤ a) → { s with mem := m }.byteAt? a = s.byteAt? a))

/-- R260: the writes dropped while BUSY = 1, CLEAR among them, and the transactions that are never dropped. -/
def Obligations.WritesDroppedWhileBusy : Prop :=
  ∀ s : State, s.busy = true →
    (∀ (r : Region) (offset v : Word) (b : Byte), (r = .ctab ∨ r = .rawbuf ∨ r = .pbuf) →
      (InWindow s.params r 1 offset →
        exec (.wr8 offset b) s = .next { s with werr := true, responses := .ok :: s.responses }) ∧
      (InWindow s.params r 4 offset →
        exec (.wr32 offset v) s = .next { s with werr := true, responses := .ok :: s.responses })) ∧
    (∀ v, ∀ o ∈ [0x010#32, 0x014#32, 0x01C#32, 0x020#32],
      exec (.wr32 o v) s = .next { s with werr := true, responses := .ok :: s.responses }) ∧
    (∀ v, ∃ t, exec (.wr32 0x004#32 v) s = .next t ∧ t.ie = v.getLsbD 0 ∧ t.werr = s.werr) ∧
    (∀ v, ∃ t, exec (.wr32 0x008#32 v) s = .next t ∧ t.werr = (s.werr && !v.getLsbD 3)) ∧
    ∀ offset,
      (∀ t, busCheck s.params .read 1 offset.toNat = .ok t →
        ∃ u v, exec (.rd8 offset) s = .next u ∧ u.responses = .data v :: s.responses ∧ u.werr = s.werr) ∧
      ∀ t, busCheck s.params .read 4 offset.toNat = .ok t →
        ∃ u v, exec (.rd32 offset) s = .next u ∧ u.responses = .data v :: s.responses ∧ u.werr = s.werr

/-- R46, R73: while BUSY = 1 no host transaction changes what a command reads, nor the pending command. -/
def Obligations.SourcesStableWhileBusy : Prop :=
  ∀ (s t : State) (r : Request), s.busy = true → exec (decodeRequest r) s = .next t →
    t.mem = s.mem ∧ t.gens = s.gens ∧ t.rawLen = s.rawLen ∧ t.ftCount = s.ftCount ∧ t.ctCount = s.ctCount ∧
    t.pbLen = s.pbLen ∧ t.decLen = s.decLen ∧ t.totalBits = s.totalBits ∧ t.pending = s.pending ∧ t.busy = true

/-- R69: a read changes no state: only its response is given, and the model's draw counter may advance; the two
counters aside, the state is the one before. -/
def Obligations.ReadsHaveNoSideEffects : Prop :=
  ∀ (s : State) (offset : Word),
    (∃ v d, exec (.rd8 offset) s = .next { s with responses := v :: s.responses, draws := d } ∧
      (s.busy = false → d = s.draws)) ∧
    ∃ v d, exec (.rd32 offset) s = .next { s with responses := v :: s.responses, draws := d } ∧
      (s.busy = false → d = s.draws)

/-- R70: two reads of the same offset with no step between them get the same response, BUSY or not, unless R45 covers
the read. -/
def Obligations.ReadsAreIdempotent : Prop :=
  ∀ (s t u : State) (offset : Word) (i : Instr),
    (i = .rd8 offset ∧ ¬ s.ReadHidden 1 offset) ∨ (i = .rd32 offset ∧ ¬ s.ReadHidden 4 offset) →
    exec i s = .next t → exec i t = .next u → ∃ v, t.responses = v :: s.responses ∧ u.responses = v :: t.responses

/-- R66: a word written to a writable window reads back, and a size-1 read of byte j of it sees exactly that byte. -/
def Obligations.LittleEndianReadBack : Prop :=
  ∀ (s : State) (r : Region) (offset v : Word), (r = .ctab ∨ r = .rawbuf ∨ r = .pbuf) → s.busy = false →
    InWindow s.params r 4 offset → ∃ t, exec (.wr32 offset v) s = .next t ∧
      exec (.rd32 offset) t = .next (t.respond (.data v)) ∧
      ∀ j < 4, exec (.rd8 (offset + BitVec.ofNat 32 j)) t =
        .next (t.respond (.data ((v.extractLsb' (8 * j) 8).setWidth 32)))

/-- R45: while BUSY = 1, what a read of the pending command's destination answers does not depend on what stands
there. -/
def Obligations.BusyReadsIgnoreDestination : Prop :=
  ∀ (s : State) (r : Region) (offset : Word) (bs : List Byte), s.RegionHidden r →
    (InWindow s.params r 1 offset → ∃ t u, exec (.rd8 offset) s = .next t ∧
      exec (.rd8 offset) (s.writeBytes offset.toNat bs) = .next u ∧ u.responses = t.responses) ∧
    (InWindow s.params r 4 offset → ∃ t u, exec (.rd32 offset) s = .next t ∧
      exec (.rd32 offset) (s.writeBytes offset.toNat bs) = .next u ∧ u.responses = t.responses)

/-! ## ANALYZE -/

/-- R131, R133: after a successful ANALYZE, FTAB holds the FrequencyList: every byte of the input exactly once with
its count, by descending count, ties by first-seen index; n = FT_COUNT entries, the rest of FTAB as before. -/
def Obligations.AnalyzeWritesFrequencyList : Prop :=
  ∀ s : State, s.params.wellFormed = true → 1 ≤ s.rawLen.toNat → s.rawLen.toNat ≤ s.params.inCap →
    ∃ t, exec .analyze s = .next t ∧ State.Completed .frequency s t ∧
      (∀ x : Byte, x ∈ s.rawInput s.rawLen.toNat ↔ ∃ k < t.ftCount.val, (t.freqEntry k).sym = x) ∧
      (∀ k < t.ftCount.val, (t.freqEntry k).cnt = (s.rawInput s.rawLen.toNat).count (t.freqEntry k).sym ∧
        1 ≤ (t.freqEntry k).cnt) ∧
      (∀ j k, j < k → k < t.ftCount.val → (t.freqEntry k).cnt < (t.freqEntry j).cnt ∨
        ((t.freqEntry j).cnt = (t.freqEntry k).cnt ∧
          (s.rawInput s.rawLen.toNat).idxOf (t.freqEntry j).sym <
            (s.rawInput s.rawLen.toNat).idxOf (t.freqEntry k).sym)) ∧
      (1 ≤ t.ftCount.val ∧ t.ftCount.val ≤ min 256 s.rawLen.toNat) ∧
      (∀ k < t.ftCount.val, ∀ j, 1 ≤ j → j ≤ 3 → t.readByte .ftab (ftabEntry k + j) = 0) ∧
      ∀ a, ftabEntry t.ftCount.val ≤ a → t.byteAt? a = s.byteAt? a

/-- R135: ANALYZE's faults in their order, and no other fault. -/
def Obligations.AnalyzeFaults : Prop :=
  ∀ s : State,
    (s.rawLen.toNat = 0 → ∃ t, exec .analyze s = .next t ∧ State.FaultTaken .frequency .emptyInput s t) ∧
    (s.rawLen.toNat ≠ 0 → s.params.inCap < s.rawLen.toNat →
      ∃ t, exec .analyze s = .next t ∧ State.FaultTaken .frequency .rawLenRange s t) ∧
    (1 ≤ s.rawLen.toNat → s.rawLen.toNat ≤ s.params.inCap →
      ∃ t, exec .analyze s = .next t ∧ State.Completed .frequency s t)

/-! ## BUILD -/

/-- R151, R152, R153, R163: SPLIT of two or more counts gives a candidate position (both halves non-empty) whose
imbalance is least, and the smallest such. -/
def Obligations.SplitIsSmallestBalanced : Prop :=
  ∀ (cs : List Nat) (d : Nat → Int), 2 ≤ cs.length →
    (∀ j, d j = |((cs.take (j + 1)).sum : Int) - ((cs.sum : Int) - ((cs.take (j + 1)).sum : Int))|) →
    split cs ≤ cs.length - 2 ∧ (∀ j, j ≤ cs.length - 2 → d (split cs) ≤ d j) ∧
    ∀ j, j < split cs → d (split cs) < d j

/-- R154, R155: the codes are the paths ASSIGN gives in the whole list's partition, one bit a split; a lone symbol's
code is the single bit P_SINGLE_CODE_BIT. -/
def Obligations.BuildCodesFollowAssign : Prop :=
  (∀ (single : Bool) (c : Nat), buildCodes single [c] = [[single]]) ∧
  ∀ (single : Bool) (cs : List Nat), 2 ≤ cs.length → AssignTree cs [] (buildCodes single cs)

/-- R157: what BUILD writes: entry k belongs to FTAB entry k; reserved bytes and unused code bits are 0; CTAB beyond
entry n is as before; CT_COUNT is n. -/
def Obligations.BuildWritesCodeTable : Prop :=
  ∀ s : State, 1 ≤ s.ftCount.val →
    ∃ t, exec .build s = .next t ∧ State.Completed .codeTable s t ∧ t.ctCount.toNat = s.ftCount.val ∧
      (∀ (k : Nat) (c : List Bool),
        (buildCodes s.params.singleCodeBit ((s.freqTable s.ftCount.val).map (·.cnt)))[k]? = some c →
        t.readByte .ctab (ctabEntry k) = s.readByte .ftab (ftabEntry k) ∧
        (t.readByte .ctab (ctabEntry k + 1)).toNat = c.length ∧
        (∀ j, 2 ≤ j → j ≤ 31 → t.readByte .ctab (ctabEntry k + j) = 0) ∧
        (∀ j, j ≤ 255 → t.codeBit k j = (decide (j < c.length) && c.getD j false))) ∧
      ∀ a, ctabEntry s.ftCount.val ≤ a → t.byteAt? a = s.byteAt? a

/-- R158: no code of BUILD is a prefix of another, and its symbols are distinct when those of FTAB's entries are (as
ANALYZE leaves them). -/
def Obligations.BuildCodesPrefixFree : Prop :=
  ∀ s t : State, 1 ≤ s.ftCount.val → exec .build s = .next t →
    (∀ j k, j < t.ctCount.toNat → k < t.ctCount.toNat → j ≠ k → ¬ (t.codeEntry j).code <+: (t.codeEntry k).code) ∧
    ((∀ j k, j < s.ftCount.val → k < s.ftCount.val → j ≠ k → (s.freqEntry j).sym ≠ (s.freqEntry k).sym) →
      ∀ j k, j < t.ctCount.toNat → k < t.ctCount.toNat → j ≠ k → (t.codeEntry j).sym ≠ (t.codeEntry k).sym)

/-- R156: code lengths: 1 for one symbol; from 1 to n − 1, hence at most 255, for more. -/
def Obligations.BuildCodeLengths : Prop :=
  (∀ s t : State, 1 ≤ s.ftCount.val → exec .build s = .next t →
    (s.ftCount.val = 1 → t.codeLen 0 = 1) ∧
    (2 ≤ s.ftCount.val → ∀ k < s.ftCount.val,
      1 ≤ t.codeLen k ∧ t.codeLen k ≤ s.ftCount.val - 1 ∧ t.codeLen k ≤ 255)) ∧
  ∀ single : Bool, (buildCodes single [13, 8, 5, 3, 2, 1, 1]).map List.length = [1, 2, 3, 4, 5, 6, 6]

/-- R159: the code is complete: Kraft's sum is 1, and every bit sequence of 255 bits or more begins with exactly one
code; for a lone symbol the sum is 1/2. -/
def Obligations.BuildCodeComplete : Prop :=
  ∀ (single : Bool) (cs : List Nat),
    (cs.length = 1 → ((buildCodes single cs).map fun c => (1 / 2 : Rat) ^ c.length).sum = 1 / 2) ∧
    (2 ≤ cs.length → ((buildCodes single cs).map fun c => (1 / 2 : Rat) ^ c.length).sum = 1) ∧
    (2 ≤ cs.length → cs.length ≤ 256 → ∀ bits : List Bool, 255 ≤ bits.length →
      ∃ (k : Nat) (c : List Bool), (buildCodes single cs)[k]? = some c ∧ c <+: bits ∧
        ∀ (j : Nat) (c' : List Bool), (buildCodes single cs)[j]? = some c' → c' <+: bits → j = k)

/-- R160: BUILD's one fault, whose condition reset and CLEAR leave. -/
def Obligations.BuildFaults : Prop :=
  State.reset.ftCount.val = 0 ∧
  (∀ s t : State, s.busy = false → exec .clear s = .next t → t.ftCount.val = 0) ∧
  ∀ s : State,
    (s.ftCount.val = 0 → ∃ t, exec .build s = .next t ∧ State.FaultTaken .codeTable .emptyFreq s t) ∧
    (s.ftCount.val ≠ 0 → ∃ t, exec .build s = .next t ∧ State.Completed .codeTable s t)

/-! ## PACK and UNPACK -/

/-- R180, R181: PACK's length, where each bit goes, the zeros after the last bit, and the number of padding bits. -/
def Obligations.PackPlacesBits : Prop :=
  ∀ b : List Bool,
    (pack b).length = (b.length + 7) / 8 ∧
    (∀ (i : Nat) (x : Bool), b[i]? = some x → ∃ P, (pack b)[i / 8]? = some P ∧ P.getLsbD (i % 8) = x) ∧
    (∀ i, b.length ≤ i → i < 8 * (pack b).length →
      ∃ P, (pack b)[i / 8]? = some P ∧ P.getLsbD (i % 8) = false) ∧
    padBits b.length = 8 * (pack b).length - b.length ∧ padBits b.length ≤ 7

/-- R184: both round trips. -/
def Obligations.PackUnpackRoundTrips : Prop :=
  (∀ b : List Bool, unpack (pack b) (padBits b.length) = b) ∧
  ∀ (P : List Byte) (h : Nat), 1 ≤ P.length → h ≤ 7 →
    (pack (unpack P h)).length = P.length ∧
    (∀ q, q + 1 < P.length → (pack (unpack P h))[q]? = P[q]?) ∧
    ∀ x y, (pack (unpack P h))[P.length - 1]? = some x → P[P.length - 1]? = some y →
      ∀ j < 8, x.getLsbD j = (y.getLsbD j && decide (j < 8 - h))

/-- R183, R226: UNPACK does not look at the bits it drops, and DECODE does the same whatever they are: with another
last payload byte `x`, alike in the bits that are not padding, it leaves the same registers and the same DBUF. -/
def Obligations.PaddingIsIgnored : Prop :=
  (∀ (P : List Byte) (x y : Byte) (h : Nat), (∀ j, j + h < 8 → x.getLsbD j = y.getLsbD j) →
    unpack (P ++ [x]) h = unpack (P ++ [y]) h) ∧
  ∀ (s : State) (x : Byte), s.params.wellFormed = true → 2 ≤ s.pbLen.toNat → s.pbLen.toNat ≤ s.params.pbCap →
    (∀ j, j + s.header < 8 →
      x.getLsbD j = (s.readByte .pbuf (Region.pbuf.start + (s.pbLen.toNat - 1))).getLsbD j) →
    ∃ t u, exec .decode s = .next t ∧
      exec .decode (s.writeBytes (Region.pbuf.start + (s.pbLen.toNat - 1)) [x]) = .next u ∧
      (∀ r, u.regWord r = t.regWord r) ∧ ∀ a, regionOf s.params a = some .dbuf → u.byteAt? a = t.byteAt? a

/-! ## ENCODE -/

/-- R202, R203, R204: a successful ENCODE. `idx` names for each byte of the input its one entry; N is the sum of the
lengths of its codes. -/
def Obligations.EncodeWritesPackedBuffer : Prop :=
  ∀ (s : State) (idx : Byte → Nat), s.params.wellFormed = true → 1 ≤ s.rawLen.toNat →
    s.rawLen.toNat ≤ s.params.inCap → s.TableOk →
    (∀ x ∈ s.rawInput s.rawLen.toNat, s.OnlyEntry s.ctCount.toNat x (idx x)) →
    ∀ bits, bits = s.codesOf ((s.rawInput s.rawLen.toNat).map idx) →
    1 + (bits.length + 7) / 8 ≤ s.params.pbCap →
    ∃ t, exec .encode s = .next t ∧ State.Completed .packed s t ∧
      t.pbLen.toNat = 1 + (bits.length + 7) / 8 ∧ 2 ≤ t.pbLen.toNat ∧ t.pbLen.toNat ≤ s.params.pbCap ∧
      t.totalBits.toNat = bits.length ∧ s.rawLen.toNat ≤ bits.length ∧
      t.header = 8 * ((bits.length + 7) / 8) - bits.length ∧ t.header ≤ 7 ∧
      t.payload t.pbLen.toNat = pack bits ∧
      ∀ a, Region.pbuf.start + t.pbLen.toNat ≤ a → t.byteAt? a = s.byteAt? a

/-- R205: ENCODE's faults in their order. -/
def Obligations.EncodeFaults : Prop :=
  ∀ s : State,
    (s.rawLen.toNat = 0 → ∃ t, exec .encode s = .next t ∧ State.FaultTaken .packed .emptyInput s t) ∧
    (s.rawLen.toNat ≠ 0 → s.params.inCap < s.rawLen.toNat →
      ∃ t, exec .encode s = .next t ∧ State.FaultTaken .packed .rawLenRange s t) ∧
    (1 ≤ s.rawLen.toNat → s.rawLen.toNat ≤ s.params.inCap →
      (s.ctCount.toNat = 0 → ∃ t, exec .encode s = .next t ∧ State.FaultTaken .packed .emptyTable s t) ∧
      (256 < s.ctCount.toNat → ∃ t, exec .encode s = .next t ∧ State.FaultTaken .packed .ctCountRange s t) ∧
      (1 ≤ s.ctCount.toNat → s.ctCount.toNat ≤ 256 → (∃ k < s.ctCount.toNat, s.codeLen k = 0) →
        ∃ t, exec .encode s = .next t ∧ State.FaultTaken .packed .badCodeLen s t) ∧
      (s.TableOk → ∀ (before after : List Byte) (x : Byte),
        s.rawInput s.rawLen.toNat = before ++ x :: after →
        (∀ y ∈ before, ∃ k, s.OnlyEntry s.ctCount.toNat y k) →
        ((∀ k < s.ctCount.toNat, (s.codeEntry k).sym ≠ x) →
          ∃ t, exec .encode s = .next t ∧ State.FaultTaken .packed .noCode s t) ∧
        ((∃ j < s.ctCount.toNat, ∃ k < s.ctCount.toNat,
            j ≠ k ∧ (s.codeEntry j).sym = x ∧ (s.codeEntry k).sym = x) →
          ∃ t, exec .encode s = .next t ∧ State.FaultTaken .packed .dupSymbol s t)) ∧
      (s.TableOk → ∀ idx : Byte → Nat,
        (∀ x ∈ s.rawInput s.rawLen.toNat, s.OnlyEntry s.ctCount.toNat x (idx x)) →
        s.params.pbCap < 1 + ((s.codesOf ((s.rawInput s.rawLen.toNat).map idx)).length + 7) / 8 →
        ∃ t, exec .encode s = .next t ∧ State.FaultTaken .packed .pbOverflow s t))

/-! ## DECODE -/

/-- R222, R223, R224: DECODE of bits that are a sequence of codes, each the only match where it stands, when DBUF has
room for the symbols. -/
def Obligations.DecodeWritesSymbols : Prop :=
  ∀ (s : State) (ks : List Nat), s.params.wellFormed = true → s.TableOk → s.PackedOk →
    s.payloadBits = s.codesOf ks → s.Parses s.ctCount.toNat ks [] → ks.length ≤ s.params.inCap →
    ∃ t, exec .decode s = .next t ∧ State.Completed .decoded s t ∧
      t.decLen.toNat = ks.length ∧
      t.readBytes .dbuf Region.dbuf.start ks.length = ks.map (fun k => (s.codeEntry k).sym) ∧
      t.totalBits.toNat = 8 * (s.pbLen.toNat - 1) - s.header ∧
      ∀ a, Region.dbuf.start + ks.length ≤ a → t.byteAt? a = s.byteAt? a

/-- R228: what a successful DECODE means: the bits were a sequence of codes, each the only match where it stood, and
DBUF holds their symbols in order. -/
def Obligations.DecodeSuccessMeansParsed : Prop :=
  ∀ s t : State, s.params.wellFormed = true → s.err = false → exec .decode s = .next t → t.err = false →
    ∃ ks : List Nat, s.TableOk ∧ s.PackedOk ∧ s.payloadBits = s.codesOf ks ∧ s.Parses s.ctCount.toNat ks [] ∧
      t.decLen.toNat = ks.length ∧ t.decLen.toNat ≤ s.params.inCap ∧
      t.readBytes .dbuf Region.dbuf.start ks.length = ks.map (fun k => (s.codeEntry k).sym) ∧
      t.totalBits.toNat = 8 * (s.pbLen.toNat - 1) - s.header ∧
      (ks.map fun k => s.codeLen k).sum = t.totalBits.toNat

/-- R221: DECODE's checks before any bit is matched, in their order. -/
def Obligations.DecodeChecks : Prop :=
  ∀ s : State,
    (s.ctCount.toNat = 0 → ∃ t, exec .decode s = .next t ∧ State.FaultTaken .decoded .emptyTable s t) ∧
    (256 < s.ctCount.toNat → ∃ t, exec .decode s = .next t ∧ State.FaultTaken .decoded .ctCountRange s t) ∧
    (1 ≤ s.ctCount.toNat → s.ctCount.toNat ≤ 256 → (∃ k < s.ctCount.toNat, s.codeLen k = 0) →
      ∃ t, exec .decode s = .next t ∧ State.FaultTaken .decoded .badCodeLen s t) ∧
    (s.TableOk →
      (s.pbLen.toNat = 0 → ∃ t, exec .decode s = .next t ∧ State.FaultTaken .decoded .pbEmpty s t) ∧
      (s.pbLen.toNat ≠ 0 → s.params.pbCap < s.pbLen.toNat →
        ∃ t, exec .decode s = .next t ∧ State.FaultTaken .decoded .pbLenRange s t) ∧
      (1 ≤ s.pbLen.toNat → s.pbLen.toNat ≤ s.params.pbCap → (7 < s.header ∨ 8 * (s.pbLen.toNat - 1) < s.header) →
        ∃ t, exec .decode s = .next t ∧ State.FaultTaken .decoded .badHeader s t))

/-- R227: DECODE's faults at the first position where one applies: `ks` is what matched before it, `rest` the bits from
there on. Two matches need a table that is not prefix-free. -/
def Obligations.DecodeMatchFaults : Prop :=
  ∀ (s : State) (ks : List Nat) (rest : List Bool), s.TableOk → s.PackedOk →
    s.payloadBits = s.codesOf ks ++ rest → rest ≠ [] → s.Parses s.ctCount.toNat ks rest →
    ks.length ≤ s.params.inCap →
    ((∀ k < s.ctCount.toNat, ¬ (s.codeEntry k).code <+: rest) →
      ∃ t, exec .decode s = .next t ∧ State.FaultTaken .decoded .noMatch s t) ∧
    ((∃ j < s.ctCount.toNat, ∃ k < s.ctCount.toNat,
        j ≠ k ∧ (s.codeEntry j).code <+: rest ∧ (s.codeEntry k).code <+: rest) →
      (∃ t, exec .decode s = .next t ∧ State.FaultTaken .decoded .ambiguous s t) ∧
      ∃ j < s.ctCount.toNat, ∃ k < s.ctCount.toNat, j ≠ k ∧ (s.codeEntry j).code <+: (s.codeEntry k).code) ∧
    ((∃ k, s.OnlyMatch s.ctCount.toNat rest k) → ks.length = s.params.inCap →
      ∃ t, exec .decode s = .next t ∧ State.FaultTaken .decoded .dbOverflow s t)

/-- R230: no scan order of the table is observable. -/
def Obligations.ScanOrderUnobservable : Prop :=
  ∀ (table table' : List CodeEntry), table.Perm table' → ∀ (bits : List Bool) (room : Nat),
    decodeBits table bits room = decodeBits table' bits room

/-! ## The round trip -/

/-- R231: ANALYZE, BUILD, ENCODE and DECODE run on an input in that order, without fault in ENCODE, give the input
back. -/
def Obligations.RoundTrip : Prop :=
  ∀ s t u v : State, s.params.wellFormed = true → s.err = false → 1 ≤ s.rawLen.toNat →
    s.rawLen.toNat ≤ s.params.inCap →
    exec .analyze s = .next t → exec .build t = .next u → exec .encode u = .next v → v.err = false →
    ∃ z, exec .decode v = .next z ∧ z.err = false ∧ z.decLen = s.rawLen ∧
      z.readBytes .dbuf Region.dbuf.start s.rawLen.toNat = s.rawInput s.rawLen.toNat
end

