-- ==== Sys2Proof/Laws/AddressMap.lean ====
section
/-!
SUPPORT. The laws of the address map (R60, R61) and of the check every transaction passes (R261).
-/

namespace Sys2Proof

theorem Params.wellFormed_iff (p : Params) :
    p.wellFormed = true ↔ (1 ≤ p.inCap ∧ p.inCap ≤ 16777216) ∧ (2 ≤ p.pbCap ∧ p.pbCap ≤ 268435456) := by
  simp [Params.wellFormed]

/-- The parameters of reset are legal, whatever they are (R8). -/
theorem Config.params_wellFormed : Config.params.wellFormed = true := by
  rw [Params.wellFormed_iff]
  have h1 := Config.inCapLessOne.isLt
  have h2 := Config.pbCapLessTwo.isLt
  simp only [Config.params]
  omega

namespace Machine

theorem Region.covers_iff (p : Params) (r : Region) (a : Nat) :
    r.covers p a = true ↔ r.start ≤ a ∧ a < r.start + r.size p := by simp [Region.covers]

theorem covers_of_regionOf {p : Params} {a : Nat} {r : Region} (h : regionOf p a = some r) :
    r.covers p a = true := by
  have := List.find?_some (p := fun r : Region => r.covers p a) h
  exact this

/-- No offset lies in two ranges of the map (R60, D6). -/
theorem Region.covers_unique {p : Params} (hp : p.wellFormed = true) {r q : Region} {a : Nat}
    (hr : r.covers p a = true) (hq : q.covers p a = true) : r = q := by
  rw [Params.wellFormed_iff] at hp
  rw [Region.covers_iff] at hr hq
  cases r <;> cases q <;> first | rfl | (exfalso; simp only [Region.start, Region.size] at hr hq; omega)

/-- With legal parameters the map answers an offset's one range. -/
theorem regionOf_eq_some_iff {p : Params} (hp : p.wellFormed = true) {a : Nat} {r : Region} :
    regionOf p a = some r ↔ r.covers p a = true := by
  refine ⟨covers_of_regionOf, fun h => ?_⟩
  cases hq : regionOf p a with
  | none =>
    have := List.find?_eq_none.1 hq r (by cases r <;> decide)
    exact absurd h this
  | some q => rw [Region.covers_unique hp h (covers_of_regionOf hq)]

/-- An offset is unmapped exactly when it lies in none of the ranges (R61). -/
theorem regionOf_eq_none_iff {p : Params} {a : Nat} :
    regionOf p a = none ↔ ∀ r : Region, r.covers p a = false := by
  constructor
  · intro h r
    have := List.find?_eq_none.1 h r (by cases r <;> decide)
    simpa using this
  · intro h
    exact List.find?_eq_none.2 fun r _ => by simp [h r]

theorem regionOf_registers {p : Params} {a : Nat} (h : a < 0x34) : regionOf p a = some .registers := by
  have : Region.registers.covers p a = true := by rw [Region.covers_iff]; simp [Region.start, Region.size, h]
  simp [regionOf, Region.all, this]

/-! ## Registers -/

@[simp] theorem Reg.ofOffset?_offset (r : Reg) : Reg.ofOffset? r.offset = some r := by cases r <;> rfl

theorem Reg.ofOffset?_eq_some_iff {a : Nat} {r : Reg} : Reg.ofOffset? a = some r ↔ r.offset = a := by
  constructor
  · intro h
    simpa using List.find?_some h
  · rintro rfl; simp

theorem Reg.offset_injective {r q : Reg} (h : r.offset = q.offset) : r = q := by
  have := Reg.ofOffset?_offset r
  rw [h, Reg.ofOffset?_offset] at this
  exact (Option.some.inj this).symm

theorem Reg.offset_lt (r : Reg) : r.offset + 3 < 0x34 := by cases r <;> decide

theorem Reg.offset_mod (r : Reg) : r.offset % 4 = 0 := by cases r <;> decide

/-- Every aligned offset below 0x34 is a register's (R22). -/
theorem Reg.exists_of_aligned {a : Nat} (h : a < 0x34) (h4 : a % 4 = 0) : ∃ r : Reg, r.offset = a := by
  have : ∀ k < 13, ∃ r ∈ Reg.all, r.offset = 4 * k := by decide
  obtain ⟨r, -, hr⟩ := this (a / 4) (by omega)
  exact ⟨r, by omega⟩

/-! ## The transaction check -/

theorem insideRegion_iff (p : Params) (r : Region) (size a : Nat) :
    insideRegion p r size a = true ↔ ∀ i < size, regionOf p (a + i) = some r := by
  simp [insideRegion]

/-- A size-4 access at a register's offset passes, but for a write to a read-only one (R261). -/
theorem busCheck_register (p : Params) (acc : Access) (r : Reg) (h : acc = .write → r.writable = true) :
    busCheck p acc 4 r.offset = .ok (.register r) := by
  have hlt := r.offset_lt
  have h0 : regionOf p r.offset = some .registers := regionOf_registers (by omega)
  have hin : insideRegion p .registers 4 r.offset = true :=
    (insideRegion_iff ..).2 fun i hi => regionOf_registers (by omega)
  have hw : ¬(acc = .write ∧ r.writable = false) := by
    rintro ⟨h1, h2⟩
    rw [h h1] at h2
    cases h2
  simp [busCheck, h0, hin, Reg.offset_mod, hw]

/-- An access inside a window passes when it is aligned and, for a write, the window is writable (R261). -/
theorem busCheck_window {p : Params} {acc : Access} {r : Region} {size a : Nat} (hr : r ≠ .registers)
    (hs : 0 < size) (hin : ∀ i < size, regionOf p (a + i) = some r) (ha : size = 4 → a % 4 = 0)
    (hw : acc = .write → r.writable = true) : busCheck p acc size a = .ok (.window r) := by
  have h0 : regionOf p a = some r := hin 0 hs
  have hin' := (insideRegion_iff p r size a).2 hin
  have h4 : ¬(size = 4 ∧ a % 4 ≠ 0) := fun ⟨h1, h2⟩ => h2 (ha h1)
  have hw' : ¬(acc = .write ∧ r.writable = false) := by
    rintro ⟨h1, h2⟩
    rw [hw h1] at h2
    cases h2
  simp [busCheck, h0, hin', hr, h4, hw']

/-- What a transaction that passes reaches: the register at the offset, by a size-4 access, or a window that holds
every byte of the access. -/
theorem busCheck_ok {p : Params} {acc : Access} {size a : Nat} {t : Target} (h : busCheck p acc size a = .ok t) :
    (∃ reg, t = .register reg ∧ reg.offset = a ∧ size = 4 ∧ (acc = .write → reg.writable = true)) ∨
    (∃ r, t = .window r ∧ r ≠ .registers ∧ regionOf p a = some r ∧ (∀ i < size, regionOf p (a + i) = some r) ∧
      (size = 4 → a % 4 = 0) ∧ (acc = .write → r.writable = true)) := by
  unfold busCheck at h
  split at h
  · cases h
  · rename_i r hr
    split_ifs at h with h1 h2 h3 h4 h5
    · split at h
      · cases h
      · rename_i reg hreg
        split_ifs at h with h6
        cases h
        left
        refine ⟨reg, rfl, Reg.ofOffset?_eq_some_iff.1 hreg, by by_contra hne; exact h2 ⟨h4, hne⟩, fun hw => ?_⟩
        by_contra hf
        exact h6 ⟨hw, by simpa using hf⟩
    · cases h
      right
      refine ⟨r, rfl, h4, hr, (insideRegion_iff ..).1 (by simpa using h1), fun hs => by by_contra hne; exact h3 ⟨hs, hne⟩,
        fun hw => ?_⟩
      by_contra hf
      exact h5 ⟨hw, by simpa using hf⟩

end Machine
end Sys2Proof
end

