-- ==== Sys2Proof/Laws/BitPacker.lean ====
section
/-!
SUPPORT. The laws of PACK and UNPACK (R180 to R184) and of the little-endian byte order (R66).
-/

namespace Sys2Proof.Machine

theorem bitsToNat_testBit (bs : List Bool) (i : Nat) : (bitsToNat bs).testBit i = bs.getD i false := by
  induction bs generalizing i with
  | nil => simp [bitsToNat]
  | cons b bs ih =>
    cases i with
    | zero => cases b <;> simp [bitsToNat, Nat.testBit_zero]
    | succ i =>
      rw [Nat.testBit_succ, List.getD_cons_succ, ← ih]
      congr 1
      cases b
      · simp [bitsToNat]
      · simp only [bitsToNat, if_true]; omega

theorem bytesFor_le (n : Nat) : n ≤ 8 * bytesFor n := by unfold bytesFor; omega

theorem padBits_lt (n : Nat) : padBits n < 8 := by unfold padBits bytesFor; omega

theorem padBits_add (n : Nat) : n + padBits n = 8 * bytesFor n := by unfold padBits bytesFor; omega

theorem bytesFor_pos {n : Nat} (h : 0 < n) : 0 < bytesFor n := by unfold bytesFor; omega

@[simp] theorem length_pack (b : List Bool) : (pack b).length = bytesFor b.length := by simp [pack]

/-- Bit i of the packed bytes is bit i of the sequence, and 0 beyond its end (R180, R181). -/
theorem bitOf_pack (b : List Bool) (i : Nat) : bitOf (pack b) i = b.getD i false := by
  by_cases h : i / 8 < bytesFor b.length
  · have : (pack b).getD (i / 8) 0 = BitVec.ofNat 8 (bitsToNat ((b.drop (8 * (i / 8))).take 8)) := by
      rw [List.getD_eq_getElem?_getD, List.getElem?_eq_getElem (by simpa using h)]
      simp [pack]
    rw [bitOf, this, BitVec.getLsbD_ofNat, bitsToNat_testBit]
    have hlt : i % 8 < 8 := Nat.mod_lt _ (by omega)
    simp only [hlt, decide_true, Bool.true_and, List.getD_eq_getElem?_getD, List.getElem?_take, if_true,
      List.getElem?_drop]
    rw [show 8 * (i / 8) + i % 8 = i by omega]
  · have h1 : (pack b).getD (i / 8) 0 = 0 := by
      rw [List.getD_eq_getElem?_getD, List.getElem?_eq_none (by simpa using h)]; rfl
    have h2 : b.length ≤ i := by unfold bytesFor at h; omega
    rw [bitOf, h1, List.getD_eq_getElem?_getD, List.getElem?_eq_none h2]
    simp

@[simp] theorem length_unpack (P : List Byte) (h : Nat) : (unpack P h).length = 8 * P.length - h := by simp [unpack]

@[simp] theorem getElem_unpack (P : List Byte) (h i : Nat) (hi : i < (unpack P h).length) :
    (unpack P h)[i] = bitOf P i := by simp [unpack]

/-- R184, first half. -/
theorem unpack_pack (b : List Bool) : unpack (pack b) (padBits b.length) = b := by
  apply List.ext_getElem
  · have := padBits_add b.length; simp; omega
  · intro i h1 h2
    rw [getElem_unpack, bitOf_pack, List.getD_eq_getElem?_getD, List.getElem?_eq_getElem h2]
    rfl

theorem getElem_eq_of_bitOf {P Q : List Byte} (hl : P.length = Q.length)
    (h : ∀ i, i < 8 * P.length → bitOf P i = bitOf Q i) : P = Q := by
  apply List.ext_getElem hl
  intro q h1 h2
  apply BitVec.eq_of_getLsbD_eq
  intro j hj
  have := h (8 * q + j) (by omega)
  rw [bitOf, bitOf, show (8 * q + j) / 8 = q by omega, show (8 * q + j) % 8 = j by omega,
    List.getD_eq_getElem?_getD, List.getElem?_eq_getElem h1, List.getD_eq_getElem?_getD,
    List.getElem?_eq_getElem h2] at this
  exact this

/-- UNPACK looks only at the bits it keeps (R183). -/
theorem unpack_congr {P Q : List Byte} {h : Nat} (hl : P.length = Q.length)
    (hb : ∀ i, i < 8 * P.length - h → bitOf P i = bitOf Q i) : unpack P h = unpack Q h := by
  apply List.ext_getElem (by simp [hl])
  intro i h1 h2
  rw [getElem_unpack, getElem_unpack]
  exact hb i (by simpa using h1)

/-- R184, second half: packing what was unpacked keeps the kept bits and clears the dropped ones. -/
theorem bitOf_pack_unpack (P : List Byte) (h i : Nat) :
    bitOf (pack (unpack P h)) i = if i < 8 * P.length - h then bitOf P i else false := by
  rw [bitOf_pack, List.getD_eq_getElem?_getD]
  split
  · rename_i hi
    rw [List.getElem?_eq_getElem (by simpa using hi), getElem_unpack]
    rfl
  · rename_i hi
    rw [List.getElem?_eq_none (by simpa using hi)]
    rfl

/-! ## Byte order -/

theorem bytesToNat_lt (bs : List Byte) : bytesToNat bs < 256 ^ bs.length := by
  induction bs with
  | nil => simp [bytesToNat]
  | cons b bs ih =>
    have := b.isLt
    simp only [bytesToNat, List.length_cons, pow_succ]
    omega

@[simp] theorem length_bytesOfWord (n : Nat) (v : Word) : (bytesOfWord n v).length = n := by simp [bytesOfWord]

theorem toNat_extractByte (v : Word) (i : Nat) : (v.extractLsb' (8 * i) 8).toNat = v.toNat / 256 ^ i % 256 := by
  rw [BitVec.extractLsb'_toNat, Nat.shiftRight_eq_div_pow, Nat.pow_mul]

/-- A word read back from the four bytes written for it (R66). -/
@[simp] theorem wordOfBytes_bytesOfWord (v : Word) : wordOfBytes (bytesOfWord 4 v) = v := by
  apply BitVec.eq_of_toNat_eq
  have hv := v.isLt
  simp only [wordOfBytes, bytesOfWord, List.range, List.range.loop, List.map_cons, List.map_nil, bytesToNat,
    BitVec.toNat_ofNat, toNat_extractByte]
  omega

/-- One byte as a word: 0 above bit 7 (R258). -/
@[simp] theorem wordOfBytes_singleton (b : Byte) : wordOfBytes [b] = b.setWidth 32 := by
  apply BitVec.eq_of_toNat_eq
  simp [wordOfBytes, bytesToNat]

/-- The bytes of a word, named (R66). -/
theorem bytesOfWord_four (v : Word) :
    bytesOfWord 4 v = [v.extractLsb' 0 8, v.extractLsb' 8 8, v.extractLsb' 16 8, v.extractLsb' 24 8] := rfl

theorem bytesOfWord_one (v : Word) : bytesOfWord 1 v = [v.extractLsb' 0 8] := rfl

end Sys2Proof.Machine
end

