-- ==== Sys2Proof/Laws/Decode.lean ====
section
/-!
SUPPORT. The laws of the decoders and the encoder (R92, R93, R96, R107).
-/

namespace Sys2Proof

@[simp] theorem decodeCmd_analyzeWord : decodeCmd analyzeWord = .ok .analyze := rfl
@[simp] theorem decodeCmd_buildWord : decodeCmd buildWord = .ok .build := rfl
@[simp] theorem decodeCmd_encodeWord : decodeCmd encodeWord = .ok .encode := rfl
@[simp] theorem decodeCmd_decodeWord : decodeCmd decodeWord = .ok .decode := rfl
@[simp] theorem decodeCmd_clearWord : decodeCmd clearWord = .ok .clear := rfl

/-- The six outcomes of `decode_cmd` (R107). -/
theorem decodeCmd_cases (w : Word) :
    (w = analyzeWord ∧ decodeCmd w = .ok .analyze) ∨ (w = buildWord ∧ decodeCmd w = .ok .build) ∨
    (w = encodeWord ∧ decodeCmd w = .ok .encode) ∨ (w = decodeWord ∧ decodeCmd w = .ok .decode) ∨
    (w = clearWord ∧ decodeCmd w = .ok .clear) ∨
    ((w ≠ analyzeWord ∧ w ≠ buildWord ∧ w ≠ encodeWord ∧ w ≠ decodeWord ∧ w ≠ clearWord) ∧
      decodeCmd w = .error (.illegalCommand w)) := by
  by_cases h1 : w = analyzeWord
  · exact .inl ⟨h1, by rw [h1]; rfl⟩
  by_cases h2 : w = buildWord
  · exact .inr (.inl ⟨h2, by rw [h2]; rfl⟩)
  by_cases h3 : w = encodeWord
  · exact .inr (.inr (.inl ⟨h3, by rw [h3]; rfl⟩))
  by_cases h4 : w = decodeWord
  · exact .inr (.inr (.inr (.inl ⟨h4, by rw [h4]; rfl⟩)))
  by_cases h5 : w = clearWord
  · exact .inr (.inr (.inr (.inr (.inl ⟨h5, by rw [h5]; rfl⟩))))
  exact .inr (.inr (.inr (.inr (.inr ⟨⟨h1, h2, h3, h4, h5⟩, by simp [decodeCmd, h1, h2, h3, h4, h5]⟩))))

theorem decodeCmd_eq_clear_iff (w : Word) : decodeCmd w = .ok .clear ↔ w = clearWord := by
  constructor
  · intro h
    rcases decodeCmd_cases w with h' | h' | h' | h' | h' | h'
    · rw [h'.2] at h; cases h
    · rw [h'.2] at h; cases h
    · rw [h'.2] at h; cases h
    · rw [h'.2] at h; cases h
    · exact h'.1
    · rw [h'.2] at h; cases h
  · rintro rfl; rfl

/-- A pending word is one of the four commands that pend, or decodes to nothing, or is CLEAR (R107). -/
theorem decodeCmd_ok_cases {w : Word} {i : Instr} (h : decodeCmd w = .ok i) :
    i = .analyze ∨ i = .build ∨ i = .encode ∨ i = .decode ∨ (i = .clear ∧ w = clearWord) := by
  rcases decodeCmd_cases w with h' | h' | h' | h' | h' | h' <;> rw [h'.2] at h <;> cases h
  · exact .inl rfl
  · exact .inr (.inl rfl)
  · exact .inr (.inr (.inl rfl))
  · exact .inr (.inr (.inr (.inl rfl)))
  · exact .inr (.inr (.inr (.inr ⟨rfl, h'.1⟩)))

@[simp] theorem decodeRequest_rd8 (o d : Word) : decodeRequest ⟨0b00#2, o, d⟩ = .rd8 o := rfl
@[simp] theorem decodeRequest_rd32 (o d : Word) : decodeRequest ⟨0b01#2, o, d⟩ = .rd32 o := rfl
@[simp] theorem decodeRequest_wr8 (o d : Word) : decodeRequest ⟨0b10#2, o, d⟩ = .wr8 o (d.extractLsb' 0 8) := rfl
@[simp] theorem decodeRequest_wr32 (o d : Word) : decodeRequest ⟨0b11#2, o, d⟩ = .wr32 o d := rfl

/-- A request is one of the four transactions, never a command (R96). -/
theorem decodeRequest_cases (r : Request) :
    decodeRequest r = .rd8 r.offset ∨ decodeRequest r = .rd32 r.offset ∨
    decodeRequest r = .wr8 r.offset (r.data.extractLsb' 0 8) ∨ decodeRequest r = .wr32 r.offset r.data := by
  unfold decodeRequest
  split_ifs <;> simp

/-- The low byte of a byte widened to a word. -/
@[simp] theorem extractByte_setWidth (b : Byte) : (b.setWidth 32).extractLsb' 0 8 = b := by
  apply BitVec.eq_of_toNat_eq
  simp [BitVec.extractLsb'_toNat]
  exact b.isLt

end Sys2Proof
end

