-- ==== Sys2Proof/Laws/Memory.lean ====
section
/-!
SUPPORT. The laws of memory: a read after a write, a write elsewhere, bulk writes, erasing, and that every memory
operation keeps the canonical form.
-/

namespace Sys2Proof.Machine

/-! ## One byte -/

@[simp] theorem Memory.get?_nil (a : Nat) : Memory.get? [] a = none := rfl

theorem Memory.get?_cons (k : Nat) (b : Byte) (m : Memory) (x : Nat) :
    Memory.get? ((k, b) :: m) x = if k = x then some b else Memory.get? m x := rfl

theorem Memory.get?_set (m : Memory) (a x : Nat) (v : Byte) :
    (m.set a v).get? x = if x = a then some v else m.get? x := by
  rcases eq_or_ne x a with rfl | hx
  · induction m with
    | nil => simp [Memory.set, Memory.get?_cons]
    | cons c m ih =>
      obtain ⟨k, b⟩ := c
      simp only [Memory.set]
      split
      · simp [Memory.get?_cons]
      · split
        · simp [Memory.get?_cons]
        · rename_i _ hk; simp only [Memory.get?_cons, Ne.symm hk, if_false, ih, if_true]
  · induction m with
    | nil => simp [Memory.set, Memory.get?_cons, hx, hx.symm]
    | cons c m ih =>
      obtain ⟨k, b⟩ := c
      simp only [Memory.set]
      split
      · simp [Memory.get?_cons, hx.symm]
      · split
        · rename_i _ hk; subst hk; simp [Memory.get?_cons, hx.symm]
        · simp [Memory.get?_cons, ih, hx]

@[simp] theorem Memory.get?_set_self (m : Memory) (a : Nat) (v : Byte) : (m.set a v).get? a = some v := by
  simp [Memory.get?_set]

theorem Memory.get?_set_ne (m : Memory) {a x : Nat} (v : Byte) (h : x ≠ a) : (m.set a v).get? x = m.get? x := by
  simp [Memory.get?_set, h]

theorem Memory.mem_set {m : Memory} {a : Nat} {v : Byte} {c : Host.Cell} (h : c ∈ m.set a v) :
    c = (a, v) ∨ c ∈ m := by
  induction m with
  | nil => simpa [Memory.set] using h
  | cons d m ih =>
    obtain ⟨k, b⟩ := d
    simp only [Memory.set] at h
    split at h
    · simpa using h
    · split at h
      · simp only [List.mem_cons] at h ⊢
        tauto
      · simp only [List.mem_cons] at h ⊢
        rcases h with h | h
        · tauto
        · rcases ih h with h | h <;> tauto

/-- A write keeps the canonical form. -/
theorem Memory.wf_set {m : Memory} (h : m.wf) (a : Nat) (v : Byte) : (m.set a v).wf := by
  induction m with
  | nil => simp [Memory.wf, Memory.set]
  | cons d m ih =>
    obtain ⟨k, b⟩ := d
    have hd : ∀ c ∈ m, k < c.1 := (List.pairwise_cons.1 h).1
    have hm : Memory.wf m := (List.pairwise_cons.1 h).2
    simp only [Memory.set]
    split
    · rename_i hak
      refine List.pairwise_cons.2 ⟨?_, h⟩
      simp only [List.mem_cons, forall_eq_or_imp]
      exact ⟨hak, fun c hc => lt_trans hak (hd c hc)⟩
    · split
      · rename_i _ hak; subst hak
        exact List.pairwise_cons.2 ⟨hd, hm⟩
      · rename_i h1 h2
        refine List.pairwise_cons.2 ⟨?_, ih hm⟩
        intro c hc
        rcases Memory.mem_set hc with rfl | hc
        · simp only; omega
        · exact hd c hc

/-! ## Bytes at consecutive offsets -/

theorem Memory.get?_setBytes (m : Memory) (a : Nat) (bs : List Byte) (x : Nat) :
    (m.setBytes a bs).get? x = if a ≤ x ∧ x < a + bs.length then bs[x - a]? else m.get? x := by
  induction bs generalizing m a with
  | nil => simp only [Memory.setBytes, List.length_nil]; rw [if_neg (by omega)]
  | cons b bs ih =>
    simp only [Memory.setBytes, ih, Memory.get?_set, List.length_cons]
    by_cases hx : x = a
    · subst hx; simp
    · by_cases h : a + 1 ≤ x ∧ x < a + 1 + bs.length
      · have h' : a ≤ x ∧ x < a + (bs.length + 1) := by omega
        rw [if_pos h, if_pos h', show x - a = x - (a + 1) + 1 by omega, List.getElem?_cons_succ]
      · have h' : ¬(a ≤ x ∧ x < a + (bs.length + 1)) := by omega
        rw [if_neg h, if_neg h', if_neg hx]

/-- A byte of what was written reads back. -/
theorem Memory.get?_setBytes_in (m : Memory) (a : Nat) (bs : List Byte) {i : Nat} (h : i < bs.length) :
    (m.setBytes a bs).get? (a + i) = some bs[i] := by
  rw [Memory.get?_setBytes, if_pos (by omega), Nat.add_sub_cancel_left, List.getElem?_eq_getElem h]

/-- Bytes outside what was written read as before. -/
theorem Memory.get?_setBytes_out (m : Memory) (a : Nat) (bs : List Byte) {x : Nat}
    (h : ¬(a ≤ x ∧ x < a + bs.length)) : (m.setBytes a bs).get? x = m.get? x := by
  rw [Memory.get?_setBytes, if_neg h]

theorem Memory.mem_setBytes {m : Memory} {a : Nat} {bs : List Byte} {c : Host.Cell} (h : c ∈ m.setBytes a bs) :
    (a ≤ c.1 ∧ c.1 < a + bs.length) ∨ c ∈ m := by
  induction bs generalizing m a with
  | nil => exact Or.inr h
  | cons b bs ih =>
    simp only [List.length_cons]
    rcases ih h with h | h
    · left; omega
    · rcases Memory.mem_set h with rfl | h
      · left; simp only; omega
      · exact Or.inr h

theorem Memory.wf_setBytes {m : Memory} (h : m.wf) (a : Nat) (bs : List Byte) : (m.setBytes a bs).wf := by
  induction bs generalizing m a with
  | nil => exact h
  | cons b bs ih => exact ih (Memory.wf_set h a b) (a + 1)

/-! ## Erasing -/

theorem Memory.get?_erase (m : Memory) (a n x : Nat) :
    (m.erase a n).get? x = if a ≤ x ∧ x < a + n then none else m.get? x := by
  induction m with
  | nil => simp [Memory.erase]
  | cons c m ih =>
    obtain ⟨k, b⟩ := c
    rw [Memory.erase, List.filter_cons]
    rw [Memory.erase] at ih
    by_cases hk : a ≤ k ∧ k < a + n
    · rw [if_neg (by simp [hk.1, hk.2]), ih]
      by_cases hx : a ≤ x ∧ x < a + n
      · simp [hx]
      · have : k ≠ x := by rintro rfl; exact hx hk
        simp [hx, Memory.get?_cons, this]
    · rw [if_pos (by simp; omega), Memory.get?_cons, Memory.get?_cons, ih]
      by_cases hkx : k = x
      · subst hkx; simp [hk]
      · simp [hkx]

theorem Memory.mem_of_mem_erase {m : Memory} {a n : Nat} {c : Host.Cell} (h : c ∈ m.erase a n) : c ∈ m :=
  (List.mem_filter.1 h).1

theorem Memory.wf_erase {m : Memory} (h : m.wf) (a n : Nat) : (m.erase a n).wf := List.Pairwise.filter _ h

/-! ## Equal memories are equal data -/

theorem Memory.get?_eq_none_of_forall_lt {m : Memory} {a : Nat} (h : ∀ c ∈ m, a < c.1) : m.get? a = none := by
  induction m with
  | nil => rfl
  | cons c m ih =>
    obtain ⟨k, b⟩ := c
    have hk : a < k := h (k, b) (by simp)
    simp [Memory.get?, Nat.ne_of_gt hk, ih fun c hc => h c (by simp [hc])]

/-- Two memories in canonical form that answer every read alike are the same list. -/
theorem Memory.ext_of_wf {m n : Memory} (hm : m.wf) (hn : n.wf) (h : ∀ a, m.get? a = n.get? a) : m = n := by
  induction m generalizing n with
  | nil =>
    cases n with
    | nil => rfl
    | cons d n => obtain ⟨k, b⟩ := d; simpa [Memory.get?] using h k
  | cons c m ih =>
    obtain ⟨k, b⟩ := c
    have hkm : ∀ e ∈ m, k < e.1 := (List.pairwise_cons.1 hm).1
    cases n with
    | nil => simpa [Memory.get?] using h k
    | cons d n =>
      obtain ⟨l, e⟩ := d
      have hln : ∀ e ∈ n, l < e.1 := (List.pairwise_cons.1 hn).1
      have hkl : k = l := by
        rcases Nat.lt_trichotomy k l with hlt | heq | hgt
        · have h1 := h k
          have h2 : Memory.get? ((l, e) :: n) k = none := Memory.get?_eq_none_of_forall_lt (by
            simp only [List.mem_cons, forall_eq_or_imp]
            exact ⟨hlt, fun c hc => lt_trans hlt (hln c hc)⟩)
          rw [h2] at h1; simp [Memory.get?] at h1
        · exact heq
        · have h1 := h l
          have h2 : Memory.get? ((k, b) :: m) l = none := Memory.get?_eq_none_of_forall_lt (by
            simp only [List.mem_cons, forall_eq_or_imp]
            exact ⟨hgt, fun c hc => lt_trans hgt (hkm c hc)⟩)
          rw [h2] at h1; simp [Memory.get?] at h1
      subst hkl
      have hbe : b = e := by simpa [Memory.get?] using h k
      subst hbe
      congr 1
      refine ih (List.pairwise_cons.1 hm).2 (List.pairwise_cons.1 hn).2 fun a => ?_
      by_cases hka : k = a
      · subst hka
        rw [Memory.get?_eq_none_of_forall_lt hkm, Memory.get?_eq_none_of_forall_lt hln]
      · simpa [Memory.get?, hka] using h a

end Sys2Proof.Machine
end

