-- ==== Sys2Proof/Laws/State.lean ====
section
/-!
SUPPORT. The fields of the state after each named update: one lemma per field per update, so that no later proof
unfolds a record update.
-/

namespace Sys2Proof.Machine

variable (s : State)

/-! ## respond -/

@[simp] theorem State.respond_params (r : Response) : (s.respond r).params = s.params := rfl
@[simp] theorem State.respond_ie (r : Response) : (s.respond r).ie = s.ie := rfl
@[simp] theorem State.respond_busy (r : Response) : (s.respond r).busy = s.busy := rfl
@[simp] theorem State.respond_done (r : Response) : (s.respond r).done = s.done := rfl
@[simp] theorem State.respond_err (r : Response) : (s.respond r).err = s.err := rfl
@[simp] theorem State.respond_werr (r : Response) : (s.respond r).werr = s.werr := rfl
@[simp] theorem State.respond_cause (r : Response) : (s.respond r).cause = s.cause := rfl
@[simp] theorem State.respond_rawLen (r : Response) : (s.respond r).rawLen = s.rawLen := rfl
@[simp] theorem State.respond_ftCount (r : Response) : (s.respond r).ftCount = s.ftCount := rfl
@[simp] theorem State.respond_ctCount (r : Response) : (s.respond r).ctCount = s.ctCount := rfl
@[simp] theorem State.respond_pbLen (r : Response) : (s.respond r).pbLen = s.pbLen := rfl
@[simp] theorem State.respond_decLen (r : Response) : (s.respond r).decLen = s.decLen := rfl
@[simp] theorem State.respond_totalBits (r : Response) : (s.respond r).totalBits = s.totalBits := rfl
@[simp] theorem State.respond_pending (r : Response) : (s.respond r).pending = s.pending := rfl
@[simp] theorem State.respond_mem (r : Response) : (s.respond r).mem = s.mem := rfl
@[simp] theorem State.respond_rst (r : Response) : (s.respond r).rst = s.rst := rfl
@[simp] theorem State.respond_gens (r : Response) : (s.respond r).gens = s.gens := rfl
@[simp] theorem State.respond_draws (r : Response) : (s.respond r).draws = s.draws := rfl
@[simp] theorem State.respond_moves (r : Response) : (s.respond r).moves = s.moves := rfl
@[simp] theorem State.respond_responses (r : Response) : (s.respond r).responses = r :: s.responses := rfl

/-! ## dropWrite -/

@[simp] theorem State.dropWrite_params : (s.dropWrite).params = s.params := rfl
@[simp] theorem State.dropWrite_ie : (s.dropWrite).ie = s.ie := rfl
@[simp] theorem State.dropWrite_busy : (s.dropWrite).busy = s.busy := rfl
@[simp] theorem State.dropWrite_done : (s.dropWrite).done = s.done := rfl
@[simp] theorem State.dropWrite_err : (s.dropWrite).err = s.err := rfl
@[simp] theorem State.dropWrite_werr : (s.dropWrite).werr = true := rfl
@[simp] theorem State.dropWrite_cause : (s.dropWrite).cause = s.cause := rfl
@[simp] theorem State.dropWrite_rawLen : (s.dropWrite).rawLen = s.rawLen := rfl
@[simp] theorem State.dropWrite_ftCount : (s.dropWrite).ftCount = s.ftCount := rfl
@[simp] theorem State.dropWrite_ctCount : (s.dropWrite).ctCount = s.ctCount := rfl
@[simp] theorem State.dropWrite_pbLen : (s.dropWrite).pbLen = s.pbLen := rfl
@[simp] theorem State.dropWrite_decLen : (s.dropWrite).decLen = s.decLen := rfl
@[simp] theorem State.dropWrite_totalBits : (s.dropWrite).totalBits = s.totalBits := rfl
@[simp] theorem State.dropWrite_pending : (s.dropWrite).pending = s.pending := rfl
@[simp] theorem State.dropWrite_mem : (s.dropWrite).mem = s.mem := rfl
@[simp] theorem State.dropWrite_rst : (s.dropWrite).rst = s.rst := rfl
@[simp] theorem State.dropWrite_gens : (s.dropWrite).gens = s.gens := rfl
@[simp] theorem State.dropWrite_draws : (s.dropWrite).draws = s.draws := rfl
@[simp] theorem State.dropWrite_moves : (s.dropWrite).moves = s.moves := rfl
@[simp] theorem State.dropWrite_responses : (s.dropWrite).responses = s.responses := rfl

/-! ## reject -/

@[simp] theorem State.reject_params : (s.reject).params = s.params := rfl
@[simp] theorem State.reject_ie : (s.reject).ie = s.ie := rfl
@[simp] theorem State.reject_busy : (s.reject).busy = s.busy := rfl
@[simp] theorem State.reject_done : (s.reject).done = true := rfl
@[simp] theorem State.reject_err : (s.reject).err = s.err := rfl
@[simp] theorem State.reject_werr : (s.reject).werr = s.werr := rfl
@[simp] theorem State.reject_cause : (s.reject).cause = s.cause := rfl
@[simp] theorem State.reject_rawLen : (s.reject).rawLen = s.rawLen := rfl
@[simp] theorem State.reject_ftCount : (s.reject).ftCount = s.ftCount := rfl
@[simp] theorem State.reject_ctCount : (s.reject).ctCount = s.ctCount := rfl
@[simp] theorem State.reject_pbLen : (s.reject).pbLen = s.pbLen := rfl
@[simp] theorem State.reject_decLen : (s.reject).decLen = s.decLen := rfl
@[simp] theorem State.reject_totalBits : (s.reject).totalBits = s.totalBits := rfl
@[simp] theorem State.reject_pending : (s.reject).pending = s.pending := rfl
@[simp] theorem State.reject_mem : (s.reject).mem = s.mem := rfl
@[simp] theorem State.reject_rst : (s.reject).rst = s.rst := rfl
@[simp] theorem State.reject_gens : (s.reject).gens = s.gens := rfl
@[simp] theorem State.reject_draws : (s.reject).draws = s.draws := rfl
@[simp] theorem State.reject_moves : (s.reject).moves = s.moves := rfl
@[simp] theorem State.reject_responses : (s.reject).responses = s.responses := rfl

/-! ## issue -/

@[simp] theorem State.issue_params (w : Word) : (s.issue w).params = s.params := rfl
@[simp] theorem State.issue_ie (w : Word) : (s.issue w).ie = s.ie := rfl
@[simp] theorem State.issue_busy (w : Word) : (s.issue w).busy = true := rfl
@[simp] theorem State.issue_done (w : Word) : (s.issue w).done = false := rfl
@[simp] theorem State.issue_err (w : Word) : (s.issue w).err = s.err := rfl
@[simp] theorem State.issue_werr (w : Word) : (s.issue w).werr = s.werr := rfl
@[simp] theorem State.issue_cause (w : Word) : (s.issue w).cause = s.cause := rfl
@[simp] theorem State.issue_rawLen (w : Word) : (s.issue w).rawLen = s.rawLen := rfl
@[simp] theorem State.issue_ftCount (w : Word) : (s.issue w).ftCount = s.ftCount := rfl
@[simp] theorem State.issue_ctCount (w : Word) : (s.issue w).ctCount = s.ctCount := rfl
@[simp] theorem State.issue_pbLen (w : Word) : (s.issue w).pbLen = s.pbLen := rfl
@[simp] theorem State.issue_decLen (w : Word) : (s.issue w).decLen = s.decLen := rfl
@[simp] theorem State.issue_totalBits (w : Word) : (s.issue w).totalBits = s.totalBits := rfl
@[simp] theorem State.issue_pending (w : Word) : (s.issue w).pending = some w := rfl
@[simp] theorem State.issue_mem (w : Word) : (s.issue w).mem = s.mem := rfl
@[simp] theorem State.issue_rst (w : Word) : (s.issue w).rst = s.rst := rfl
@[simp] theorem State.issue_gens (w : Word) : (s.issue w).gens = s.gens := rfl
@[simp] theorem State.issue_draws (w : Word) : (s.issue w).draws = s.draws := rfl
@[simp] theorem State.issue_moves (w : Word) : (s.issue w).moves = s.moves := rfl
@[simp] theorem State.issue_responses (w : Word) : (s.issue w).responses = s.responses := rfl

/-! ## finish -/

@[simp] theorem State.finish_params : (s.finish).params = s.params := rfl
@[simp] theorem State.finish_ie : (s.finish).ie = s.ie := rfl
@[simp] theorem State.finish_busy : (s.finish).busy = false := rfl
@[simp] theorem State.finish_done : (s.finish).done = true := rfl
@[simp] theorem State.finish_err : (s.finish).err = s.err := rfl
@[simp] theorem State.finish_werr : (s.finish).werr = s.werr := rfl
@[simp] theorem State.finish_cause : (s.finish).cause = s.cause := rfl
@[simp] theorem State.finish_rawLen : (s.finish).rawLen = s.rawLen := rfl
@[simp] theorem State.finish_ftCount : (s.finish).ftCount = s.ftCount := rfl
@[simp] theorem State.finish_ctCount : (s.finish).ctCount = s.ctCount := rfl
@[simp] theorem State.finish_pbLen : (s.finish).pbLen = s.pbLen := rfl
@[simp] theorem State.finish_decLen : (s.finish).decLen = s.decLen := rfl
@[simp] theorem State.finish_totalBits : (s.finish).totalBits = s.totalBits := rfl
@[simp] theorem State.finish_pending : (s.finish).pending = none := rfl
@[simp] theorem State.finish_mem : (s.finish).mem = s.mem := rfl
@[simp] theorem State.finish_rst : (s.finish).rst = s.rst := rfl
@[simp] theorem State.finish_gens : (s.finish).gens = s.gens := rfl
@[simp] theorem State.finish_draws : (s.finish).draws = s.draws := rfl
@[simp] theorem State.finish_moves : (s.finish).moves = s.moves := rfl
@[simp] theorem State.finish_responses : (s.finish).responses = s.responses := rfl

/-! ## writeCtrl -/

@[simp] theorem State.writeCtrl_params (v : Word) : (s.writeCtrl v).params = s.params := rfl
@[simp] theorem State.writeCtrl_ie (v : Word) : (s.writeCtrl v).ie = v.getLsbD 0 := rfl
@[simp] theorem State.writeCtrl_busy (v : Word) : (s.writeCtrl v).busy = s.busy := rfl
@[simp] theorem State.writeCtrl_done (v : Word) : (s.writeCtrl v).done = s.done := rfl
@[simp] theorem State.writeCtrl_err (v : Word) : (s.writeCtrl v).err = s.err := rfl
@[simp] theorem State.writeCtrl_werr (v : Word) : (s.writeCtrl v).werr = s.werr := rfl
@[simp] theorem State.writeCtrl_cause (v : Word) : (s.writeCtrl v).cause = s.cause := rfl
@[simp] theorem State.writeCtrl_rawLen (v : Word) : (s.writeCtrl v).rawLen = s.rawLen := rfl
@[simp] theorem State.writeCtrl_ftCount (v : Word) : (s.writeCtrl v).ftCount = s.ftCount := rfl
@[simp] theorem State.writeCtrl_ctCount (v : Word) : (s.writeCtrl v).ctCount = s.ctCount := rfl
@[simp] theorem State.writeCtrl_pbLen (v : Word) : (s.writeCtrl v).pbLen = s.pbLen := rfl
@[simp] theorem State.writeCtrl_decLen (v : Word) : (s.writeCtrl v).decLen = s.decLen := rfl
@[simp] theorem State.writeCtrl_totalBits (v : Word) : (s.writeCtrl v).totalBits = s.totalBits := rfl
@[simp] theorem State.writeCtrl_pending (v : Word) : (s.writeCtrl v).pending = s.pending := rfl
@[simp] theorem State.writeCtrl_mem (v : Word) : (s.writeCtrl v).mem = s.mem := rfl
@[simp] theorem State.writeCtrl_rst (v : Word) : (s.writeCtrl v).rst = s.rst := rfl
@[simp] theorem State.writeCtrl_gens (v : Word) : (s.writeCtrl v).gens = s.gens := rfl
@[simp] theorem State.writeCtrl_draws (v : Word) : (s.writeCtrl v).draws = s.draws := rfl
@[simp] theorem State.writeCtrl_moves (v : Word) : (s.writeCtrl v).moves = s.moves := rfl
@[simp] theorem State.writeCtrl_responses (v : Word) : (s.writeCtrl v).responses = s.responses := rfl

/-! ## writeStatus -/

@[simp] theorem State.writeStatus_params (v : Word) : (s.writeStatus v).params = s.params := rfl
@[simp] theorem State.writeStatus_ie (v : Word) : (s.writeStatus v).ie = s.ie := rfl
@[simp] theorem State.writeStatus_busy (v : Word) : (s.writeStatus v).busy = s.busy := rfl
@[simp] theorem State.writeStatus_done (v : Word) : (s.writeStatus v).done = (s.done && !v.getLsbD 1) := rfl
@[simp] theorem State.writeStatus_err (v : Word) : (s.writeStatus v).err = s.err := rfl
@[simp] theorem State.writeStatus_werr (v : Word) : (s.writeStatus v).werr = (s.werr && !v.getLsbD 3) := rfl
@[simp] theorem State.writeStatus_cause (v : Word) : (s.writeStatus v).cause = s.cause := rfl
@[simp] theorem State.writeStatus_rawLen (v : Word) : (s.writeStatus v).rawLen = s.rawLen := rfl
@[simp] theorem State.writeStatus_ftCount (v : Word) : (s.writeStatus v).ftCount = s.ftCount := rfl
@[simp] theorem State.writeStatus_ctCount (v : Word) : (s.writeStatus v).ctCount = s.ctCount := rfl
@[simp] theorem State.writeStatus_pbLen (v : Word) : (s.writeStatus v).pbLen = s.pbLen := rfl
@[simp] theorem State.writeStatus_decLen (v : Word) : (s.writeStatus v).decLen = s.decLen := rfl
@[simp] theorem State.writeStatus_totalBits (v : Word) : (s.writeStatus v).totalBits = s.totalBits := rfl
@[simp] theorem State.writeStatus_pending (v : Word) : (s.writeStatus v).pending = s.pending := rfl
@[simp] theorem State.writeStatus_mem (v : Word) : (s.writeStatus v).mem = s.mem := rfl
@[simp] theorem State.writeStatus_rst (v : Word) : (s.writeStatus v).rst = s.rst := rfl
@[simp] theorem State.writeStatus_gens (v : Word) : (s.writeStatus v).gens = s.gens := rfl
@[simp] theorem State.writeStatus_draws (v : Word) : (s.writeStatus v).draws = s.draws := rfl
@[simp] theorem State.writeStatus_moves (v : Word) : (s.writeStatus v).moves = s.moves := rfl
@[simp] theorem State.writeStatus_responses (v : Word) : (s.writeStatus v).responses = s.responses := rfl

/-! ## writeBytes -/

@[simp] theorem State.writeBytes_params (a : Nat) (bs : List Byte) : (s.writeBytes a bs).params = s.params := rfl
@[simp] theorem State.writeBytes_ie (a : Nat) (bs : List Byte) : (s.writeBytes a bs).ie = s.ie := rfl
@[simp] theorem State.writeBytes_busy (a : Nat) (bs : List Byte) : (s.writeBytes a bs).busy = s.busy := rfl
@[simp] theorem State.writeBytes_done (a : Nat) (bs : List Byte) : (s.writeBytes a bs).done = s.done := rfl
@[simp] theorem State.writeBytes_err (a : Nat) (bs : List Byte) : (s.writeBytes a bs).err = s.err := rfl
@[simp] theorem State.writeBytes_werr (a : Nat) (bs : List Byte) : (s.writeBytes a bs).werr = s.werr := rfl
@[simp] theorem State.writeBytes_cause (a : Nat) (bs : List Byte) : (s.writeBytes a bs).cause = s.cause := rfl
@[simp] theorem State.writeBytes_rawLen (a : Nat) (bs : List Byte) : (s.writeBytes a bs).rawLen = s.rawLen := rfl
@[simp] theorem State.writeBytes_ftCount (a : Nat) (bs : List Byte) : (s.writeBytes a bs).ftCount = s.ftCount := rfl
@[simp] theorem State.writeBytes_ctCount (a : Nat) (bs : List Byte) : (s.writeBytes a bs).ctCount = s.ctCount := rfl
@[simp] theorem State.writeBytes_pbLen (a : Nat) (bs : List Byte) : (s.writeBytes a bs).pbLen = s.pbLen := rfl
@[simp] theorem State.writeBytes_decLen (a : Nat) (bs : List Byte) : (s.writeBytes a bs).decLen = s.decLen := rfl
@[simp] theorem State.writeBytes_totalBits (a : Nat) (bs : List Byte) : (s.writeBytes a bs).totalBits = s.totalBits := rfl
@[simp] theorem State.writeBytes_pending (a : Nat) (bs : List Byte) : (s.writeBytes a bs).pending = s.pending := rfl
@[simp] theorem State.writeBytes_mem (a : Nat) (bs : List Byte) : (s.writeBytes a bs).mem = s.mem.setBytes a bs := rfl
@[simp] theorem State.writeBytes_rst (a : Nat) (bs : List Byte) : (s.writeBytes a bs).rst = s.rst := rfl
@[simp] theorem State.writeBytes_gens (a : Nat) (bs : List Byte) : (s.writeBytes a bs).gens = s.gens := rfl
@[simp] theorem State.writeBytes_draws (a : Nat) (bs : List Byte) : (s.writeBytes a bs).draws = s.draws := rfl
@[simp] theorem State.writeBytes_moves (a : Nat) (bs : List Byte) : (s.writeBytes a bs).moves = s.moves := rfl
@[simp] theorem State.writeBytes_responses (a : Nat) (bs : List Byte) : (s.writeBytes a bs).responses = s.responses := rfl

/-! ## scramble -/

@[simp] theorem State.scramble_params (r : Region) : (s.scramble r).params = s.params := rfl
@[simp] theorem State.scramble_ie (r : Region) : (s.scramble r).ie = s.ie := rfl
@[simp] theorem State.scramble_busy (r : Region) : (s.scramble r).busy = s.busy := rfl
@[simp] theorem State.scramble_done (r : Region) : (s.scramble r).done = s.done := rfl
@[simp] theorem State.scramble_err (r : Region) : (s.scramble r).err = s.err := rfl
@[simp] theorem State.scramble_werr (r : Region) : (s.scramble r).werr = s.werr := rfl
@[simp] theorem State.scramble_cause (r : Region) : (s.scramble r).cause = s.cause := rfl
@[simp] theorem State.scramble_rawLen (r : Region) : (s.scramble r).rawLen = s.rawLen := rfl
@[simp] theorem State.scramble_ftCount (r : Region) : (s.scramble r).ftCount = s.ftCount := rfl
@[simp] theorem State.scramble_ctCount (r : Region) : (s.scramble r).ctCount = s.ctCount := rfl
@[simp] theorem State.scramble_pbLen (r : Region) : (s.scramble r).pbLen = s.pbLen := rfl
@[simp] theorem State.scramble_decLen (r : Region) : (s.scramble r).decLen = s.decLen := rfl
@[simp] theorem State.scramble_totalBits (r : Region) : (s.scramble r).totalBits = s.totalBits := rfl
@[simp] theorem State.scramble_pending (r : Region) : (s.scramble r).pending = s.pending := rfl
@[simp] theorem State.scramble_mem (r : Region) : (s.scramble r).mem = s.mem.erase r.start (r.size s.params) := rfl
@[simp] theorem State.scramble_rst (r : Region) : (s.scramble r).rst = s.rst := rfl
@[simp] theorem State.scramble_gens (r : Region) : (s.scramble r).gens = s.gens.next r := rfl
@[simp] theorem State.scramble_draws (r : Region) : (s.scramble r).draws = s.draws := rfl
@[simp] theorem State.scramble_moves (r : Region) : (s.scramble r).moves = s.moves := rfl
@[simp] theorem State.scramble_responses (r : Region) : (s.scramble r).responses = s.responses := rfl

/-! ## clear -/

@[simp] theorem State.clear_params : (s.clear).params = s.params := rfl
@[simp] theorem State.clear_ie : (s.clear).ie = s.ie := rfl
@[simp] theorem State.clear_busy : (s.clear).busy = false := rfl
@[simp] theorem State.clear_done : (s.clear).done = false := rfl
@[simp] theorem State.clear_err : (s.clear).err = false := rfl
@[simp] theorem State.clear_werr : (s.clear).werr = false := rfl
@[simp] theorem State.clear_cause : (s.clear).cause = .noFault := rfl
@[simp] theorem State.clear_rawLen : (s.clear).rawLen = 0 := rfl
@[simp] theorem State.clear_ftCount : (s.clear).ftCount = 0 := rfl
@[simp] theorem State.clear_ctCount : (s.clear).ctCount = 0 := rfl
@[simp] theorem State.clear_pbLen : (s.clear).pbLen = 0 := rfl
@[simp] theorem State.clear_decLen : (s.clear).decLen = 0 := rfl
@[simp] theorem State.clear_totalBits : (s.clear).totalBits = 0 := rfl
@[simp] theorem State.clear_pending : (s.clear).pending = none := rfl
@[simp] theorem State.clear_mem : (s.clear).mem = s.mem := rfl
@[simp] theorem State.clear_rst : (s.clear).rst = s.rst := rfl
@[simp] theorem State.clear_gens : (s.clear).gens = s.gens := rfl
@[simp] theorem State.clear_draws : (s.clear).draws = s.draws := rfl
@[simp] theorem State.clear_moves : (s.clear).moves = s.moves := rfl
@[simp] theorem State.clear_responses : (s.clear).responses = s.responses := rfl

/-! ## hardReset -/

@[simp] theorem State.hardReset_params : (s.hardReset).params = s.params := rfl
@[simp] theorem State.hardReset_ie : (s.hardReset).ie = false := rfl
@[simp] theorem State.hardReset_busy : (s.hardReset).busy = false := rfl
@[simp] theorem State.hardReset_done : (s.hardReset).done = false := rfl
@[simp] theorem State.hardReset_err : (s.hardReset).err = false := rfl
@[simp] theorem State.hardReset_werr : (s.hardReset).werr = false := rfl
@[simp] theorem State.hardReset_cause : (s.hardReset).cause = .noFault := rfl
@[simp] theorem State.hardReset_rawLen : (s.hardReset).rawLen = 0 := rfl
@[simp] theorem State.hardReset_ftCount : (s.hardReset).ftCount = 0 := rfl
@[simp] theorem State.hardReset_ctCount : (s.hardReset).ctCount = 0 := rfl
@[simp] theorem State.hardReset_pbLen : (s.hardReset).pbLen = 0 := rfl
@[simp] theorem State.hardReset_decLen : (s.hardReset).decLen = 0 := rfl
@[simp] theorem State.hardReset_totalBits : (s.hardReset).totalBits = 0 := rfl
@[simp] theorem State.hardReset_pending : (s.hardReset).pending = none := rfl
@[simp] theorem State.hardReset_mem : (s.hardReset).mem = [] := rfl
@[simp] theorem State.hardReset_rst : (s.hardReset).rst = true := rfl
@[simp] theorem State.hardReset_gens : (s.hardReset).gens = s.gens.nextAll := rfl
@[simp] theorem State.hardReset_draws : (s.hardReset).draws = s.draws := rfl
@[simp] theorem State.hardReset_moves : (s.hardReset).moves = s.moves := rfl
@[simp] theorem State.hardReset_responses : (s.hardReset).responses = s.responses := rfl

/-! ## releaseReset -/

@[simp] theorem State.releaseReset_params : (s.releaseReset).params = s.params := rfl
@[simp] theorem State.releaseReset_ie : (s.releaseReset).ie = s.ie := rfl
@[simp] theorem State.releaseReset_busy : (s.releaseReset).busy = s.busy := rfl
@[simp] theorem State.releaseReset_done : (s.releaseReset).done = s.done := rfl
@[simp] theorem State.releaseReset_err : (s.releaseReset).err = s.err := rfl
@[simp] theorem State.releaseReset_werr : (s.releaseReset).werr = s.werr := rfl
@[simp] theorem State.releaseReset_cause : (s.releaseReset).cause = s.cause := rfl
@[simp] theorem State.releaseReset_rawLen : (s.releaseReset).rawLen = s.rawLen := rfl
@[simp] theorem State.releaseReset_ftCount : (s.releaseReset).ftCount = s.ftCount := rfl
@[simp] theorem State.releaseReset_ctCount : (s.releaseReset).ctCount = s.ctCount := rfl
@[simp] theorem State.releaseReset_pbLen : (s.releaseReset).pbLen = s.pbLen := rfl
@[simp] theorem State.releaseReset_decLen : (s.releaseReset).decLen = s.decLen := rfl
@[simp] theorem State.releaseReset_totalBits : (s.releaseReset).totalBits = s.totalBits := rfl
@[simp] theorem State.releaseReset_pending : (s.releaseReset).pending = s.pending := rfl
@[simp] theorem State.releaseReset_mem : (s.releaseReset).mem = s.mem := rfl
@[simp] theorem State.releaseReset_rst : (s.releaseReset).rst = false := rfl
@[simp] theorem State.releaseReset_gens : (s.releaseReset).gens = s.gens := rfl
@[simp] theorem State.releaseReset_draws : (s.releaseReset).draws = s.draws := rfl
@[simp] theorem State.releaseReset_moves : (s.releaseReset).moves = s.moves := rfl
@[simp] theorem State.releaseReset_responses : (s.releaseReset).responses = s.responses := rfl

/-! ## popMove -/

@[simp] theorem State.popMove_params : (s.popMove).params = s.params := rfl
@[simp] theorem State.popMove_ie : (s.popMove).ie = s.ie := rfl
@[simp] theorem State.popMove_busy : (s.popMove).busy = s.busy := rfl
@[simp] theorem State.popMove_done : (s.popMove).done = s.done := rfl
@[simp] theorem State.popMove_err : (s.popMove).err = s.err := rfl
@[simp] theorem State.popMove_werr : (s.popMove).werr = s.werr := rfl
@[simp] theorem State.popMove_cause : (s.popMove).cause = s.cause := rfl
@[simp] theorem State.popMove_rawLen : (s.popMove).rawLen = s.rawLen := rfl
@[simp] theorem State.popMove_ftCount : (s.popMove).ftCount = s.ftCount := rfl
@[simp] theorem State.popMove_ctCount : (s.popMove).ctCount = s.ctCount := rfl
@[simp] theorem State.popMove_pbLen : (s.popMove).pbLen = s.pbLen := rfl
@[simp] theorem State.popMove_decLen : (s.popMove).decLen = s.decLen := rfl
@[simp] theorem State.popMove_totalBits : (s.popMove).totalBits = s.totalBits := rfl
@[simp] theorem State.popMove_pending : (s.popMove).pending = s.pending := rfl
@[simp] theorem State.popMove_mem : (s.popMove).mem = s.mem := rfl
@[simp] theorem State.popMove_rst : (s.popMove).rst = s.rst := rfl
@[simp] theorem State.popMove_gens : (s.popMove).gens = s.gens := rfl
@[simp] theorem State.popMove_draws : (s.popMove).draws = s.draws := rfl
@[simp] theorem State.popMove_moves : (s.popMove).moves = s.moves.tail := rfl
@[simp] theorem State.popMove_responses : (s.popMove).responses = s.responses := rfl

end Sys2Proof.Machine
end

