-- ==== Sys2Proof/Laws/Ops.lean ====
section
/-!
SUPPORT. What each shared operation of Machine/Ops.lean does, said once: reads after writes at the level of the state,
fault entry, completion, the CMD write, and the next turn.
-/

namespace Sys2Proof.Machine

/-! ## Reading bytes -/

theorem State.readByte_eq (s : State) (r : Region) (a : Nat) :
    s.readByte r a = (s.mem.get? a).getD (Config.unspecByte (s.gens.of r) a) := by
  unfold State.readByte
  cases s.mem.get? a <;> rfl

/-- A byte reads alike in two states that hold it alike. -/
theorem State.readByte_congr {s t : State} {r : Region} {a : Nat} (hm : t.mem.get? a = s.mem.get? a)
    (hg : t.gens.of r = s.gens.of r) : t.readByte r a = s.readByte r a := by
  simp only [State.readByte_eq, hm, hg]

theorem State.byteAt?_congr {s t : State} {a : Nat} (hp : t.params = s.params) (hm : t.mem.get? a = s.mem.get? a)
    (hg : ∀ r, regionOf s.params a = some r → t.gens.of r = s.gens.of r) : t.byteAt? a = s.byteAt? a := by
  unfold State.byteAt?
  rw [hp]
  split
  · rfl
  · rfl
  · rename_i r _ hr
    rw [State.readByte_congr hm (hg r hr)]

@[simp] theorem State.length_readBytes (s : State) (r : Region) (a n : Nat) : (s.readBytes r a n).length = n := by
  simp [State.readBytes]

@[simp] theorem State.getElem_readBytes (s : State) (r : Region) (a n i : Nat) (h : i < (s.readBytes r a n).length) :
    (s.readBytes r a n)[i] = s.readByte r (a + i) := by simp [State.readBytes]

theorem State.readBytes_congr {s t : State} {r : Region} {a n : Nat}
    (h : ∀ i < n, t.readByte r (a + i) = s.readByte r (a + i)) : t.readBytes r a n = s.readBytes r a n := by
  apply List.ext_getElem (by simp)
  intro i h1 h2
  rw [State.getElem_readBytes, State.getElem_readBytes]
  exact h i (by simpa using h1)

/-- A byte that was written reads back (R72). -/
theorem State.readByte_writeBytes_in (s : State) (r : Region) (a : Nat) (bs : List Byte) {i : Nat}
    (h : i < bs.length) : (s.writeBytes a bs).readByte r (a + i) = bs[i] := by
  simp [State.readByte_eq, Memory.get?_setBytes_in _ _ _ h]

/-- A byte outside what was written reads as before. -/
theorem State.readByte_writeBytes_out (s : State) (r : Region) (a : Nat) (bs : List Byte) {x : Nat}
    (h : ¬(a ≤ x ∧ x < a + bs.length)) : (s.writeBytes a bs).readByte r x = s.readByte r x := by
  simp [State.readByte_eq, Memory.get?_setBytes_out _ _ _ h]

/-- The bytes that were written read back. -/
theorem State.readBytes_writeBytes (s : State) (r : Region) (a : Nat) (bs : List Byte) :
    (s.writeBytes a bs).readBytes r a bs.length = bs := by
  apply List.ext_getElem (by simp)
  intro i h1 h2
  rw [State.getElem_readBytes, State.readByte_writeBytes_in _ _ _ _ h2]

theorem State.byteAt?_writeBytes_out (s : State) (a : Nat) (bs : List Byte) {x : Nat}
    (h : ¬(a ≤ x ∧ x < a + bs.length)) : (s.writeBytes a bs).byteAt? x = s.byteAt? x :=
  State.byteAt?_congr rfl (by simp [Memory.get?_setBytes_out _ _ _ h]) fun _ _ => rfl

/-- Every byte of a scrambled region reads as its free value in the region's next generation. -/
theorem State.readByte_scramble_in (s : State) {r : Region} (hr : r ≠ .registers) {a : Nat}
    (h : r.covers s.params a = true) : (s.scramble r).readByte r a = Config.unspecByte (s.gens.of r + 1) a := by
  rw [Region.covers_iff] at h
  rw [State.readByte_eq, State.scramble_mem, Memory.get?_erase, if_pos h]
  cases r <;> first | exact absurd rfl hr | rfl

theorem Gens.of_next_ne (g : Gens) {r q : Region} (h : q ≠ r) : (g.next r).of q = g.of q := by
  cases r <;> cases q <;> first | rfl | exact absurd rfl h

/-- Bytes outside a scrambled region read as before. -/
theorem State.byteAt?_scramble_out (s : State) {r : Region} {a : Nat} (h : r.covers s.params a = false) :
    (s.scramble r).byteAt? a = s.byteAt? a := by
  refine State.byteAt?_congr rfl ?_ fun q hq => ?_
  · have h' : ¬(r.start ≤ a ∧ a < r.start + r.size s.params) := by
      rw [← Region.covers_iff]; simp [h]
    simp [Memory.get?_erase, h']
  · refine Gens.of_next_ne _ ?_
    rintro rfl
    rw [covers_of_regionOf hq] at h
    cases h

/-! ## Fault entry and completion -/

/-- Making a destination UNSPEC touches nothing else (R290, R293). -/
theorem State.keptOutside_unspecify (s : State) (d : Dest) : State.KeptOutside d s (s.unspecify d) := by
  cases d
  case nothing => exact ⟨rfl, rfl, rfl, rfl, rfl, rfl, fun _ _ _ _ => rfl, fun _ _ => rfl⟩
  all_goals
    refine ⟨rfl, rfl, rfl, rfl, rfl, rfl, fun r h1 h2 h3 => ?_, fun a h => ?_⟩
    · cases r <;> first | rfl | exact absurd rfl h1 | exact absurd (by decide) h3
    · exact State.byteAt?_scramble_out s (h _ rfl)

theorem State.KeptOutside.trans {d : Dest} {s t u : State} (h1 : State.KeptOutside d s t)
    (h2 : State.KeptOutside d t u) : State.KeptOutside d s u where
  params := h2.params.trans h1.params
  ie := h2.ie.trans h1.ie
  werr := h2.werr.trans h1.werr
  rst := h2.rst.trans h1.rst
  moves := h2.moves.trans h1.moves
  responses := h2.responses.trans h1.responses
  regs r a b c := (h2.regs r a b c).trans (h1.regs r a b c)
  bytes a h := (h2.bytes a fun r hr => by rw [h1.params]; exact h r hr).trans (h1.bytes a h)

theorem State.keptOutside_finish (s : State) (d : Dest) : State.KeptOutside d s s.finish :=
  ⟨rfl, rfl, rfl, rfl, rfl, rfl,
    fun r h1 _ _ => by cases r <;> first | rfl | exact absurd rfl h1, fun _ _ => rfl⟩

theorem State.keptOutside_faultEntry (s : State) (c : Cause) (d : Dest) :
    State.KeptOutside d s (s.faultEntry c d) := by
  refine (State.keptOutside_unspecify s d).trans ⟨rfl, rfl, rfl, rfl, rfl, rfl, fun r h1 h2 _ => ?_, fun _ _ => rfl⟩
  cases r <;> first | rfl | exact absurd rfl h1 | exact absurd rfl h2

/-- A completion keeps all state outside the destination when the command's run does. -/
theorem State.keptOutside_complete (s : State) (d : Dest) (r : Except Cause State)
    (h : ∀ t, r = .ok t → State.KeptOutside d s t) : State.KeptOutside d s (s.complete d r) := by
  cases r with
  | error c => exact (State.keptOutside_faultEntry s c d).trans (State.keptOutside_finish _ d)
  | ok t => exact (h t rfl).trans (State.keptOutside_finish t d)

@[simp] theorem State.faultEntry_cause (s : State) (c : Cause) (d : Dest) : (s.faultEntry c d).cause = c := rfl
@[simp] theorem State.faultEntry_err (s : State) (c : Cause) (d : Dest) : (s.faultEntry c d).err = true := rfl

/-- Every completion ends with BUSY = 0, PENDING = none, DONE = 1 (R252). -/
@[simp] theorem State.complete_busy (s : State) (d : Dest) (r : Except Cause State) :
    (s.complete d r).busy = false := by cases r <;> rfl
@[simp] theorem State.complete_pending (s : State) (d : Dest) (r : Except Cause State) :
    (s.complete d r).pending = none := by cases r <;> rfl
@[simp] theorem State.complete_done (s : State) (d : Dest) (r : Except Cause State) :
    (s.complete d r).done = true := by cases r <;> rfl
@[simp] theorem State.complete_ok (s : State) (d : Dest) (t : State) : s.complete d (.ok t) = t.finish := rfl
@[simp] theorem State.complete_error (s : State) (d : Dest) (c : Cause) :
    s.complete d (.error c) = (s.faultEntry c d).finish := rfl

/-- The registers of a faulted destination are free values, one draw each; its region reads as free values of its next
generation (R290). -/
theorem State.unspecify_frequency (s : State) :
    (s.unspecify .frequency).ftCount = Config.freeCount s.draws ∧
      ∀ a, Region.ftab.covers s.params a = true →
        (s.unspecify .frequency).readByte .ftab a = Config.unspecByte (s.gens.ftab + 1) a :=
  ⟨rfl, fun _ h => State.readByte_scramble_in s (by decide) h⟩

theorem State.unspecify_codeTable (s : State) :
    (s.unspecify .codeTable).ctCount = Config.freeWord s.draws ∧
      ∀ a, Region.ctab.covers s.params a = true →
        (s.unspecify .codeTable).readByte .ctab a = Config.unspecByte (s.gens.ctab + 1) a :=
  ⟨rfl, fun _ h => State.readByte_scramble_in s (by decide) h⟩

theorem State.unspecify_packed (s : State) :
    (s.unspecify .packed).pbLen = Config.freeWord s.draws ∧
      (s.unspecify .packed).totalBits = Config.freeWord (s.draws + 1) ∧
      ∀ a, Region.pbuf.covers s.params a = true →
        (s.unspecify .packed).readByte .pbuf a = Config.unspecByte (s.gens.pbuf + 1) a :=
  ⟨rfl, rfl, fun _ h => State.readByte_scramble_in s (by decide) h⟩

theorem State.unspecify_decoded (s : State) :
    (s.unspecify .decoded).decLen = Config.freeWord s.draws ∧
      (s.unspecify .decoded).totalBits = Config.freeWord (s.draws + 1) ∧
      ∀ a, Region.dbuf.covers s.params a = true →
        (s.unspecify .decoded).readByte .dbuf a = Config.unspecByte (s.gens.dbuf + 1) a :=
  ⟨rfl, rfl, fun _ h => State.readByte_scramble_in s (by decide) h⟩

/-! ## The CMD write -/

/-- The four cases of a CMD write (R250). -/
theorem State.writeCmd_cases (s : State) (w : Word) :
    (s.busy = true ∧ s.writeCmd w = s.dropWrite) ∨
    (s.busy = false ∧ w = clearWord ∧ s.writeCmd w = s.clear) ∨
    (s.busy = false ∧ w ≠ clearWord ∧ s.err = true ∧ s.writeCmd w = s.reject) ∨
    (s.busy = false ∧ w ≠ clearWord ∧ s.err = false ∧ s.writeCmd w = s.issue w) := by
  unfold State.writeCmd
  cases hb : s.busy
  · by_cases h : w = clearWord
    · simp [h]
    · have h' : ¬ decodeCmd w = .ok .clear := fun hh => h ((decodeCmd_eq_clear_iff w).1 hh)
      cases he : s.err <;> simp [h, h']
  · simp

/-! ## The next turn -/

/-- What the next step is, and when (R72, R252, R320). -/
theorem nextTurn_cases (s : State) :
    (∃ r ms, s.moves = .request r :: ms ∧ s.rst = false ∧ nextTurn s = .transaction r) ∨
    (∃ r ms, s.moves = .request r :: ms ∧ s.rst = true ∧ nextTurn s = .ignored r) ∨
    (∃ ms, s.moves = .assertRst :: ms ∧ nextTurn s = .assertReset) ∨
    (∃ ms, s.moves = .releaseRst :: ms ∧ nextTurn s = .releaseReset) ∨
    (((∃ ms, s.moves = .core :: ms) ∨ s.moves = []) ∧
      ((s.rst = false ∧ ∃ w, s.pending = some w ∧ nextTurn s = .completion w) ∨
        ((s.rst = true ∨ s.pending = none) ∧ nextTurn s = .idle))) := by
  have fin : ((∃ ms, s.moves = .core :: ms) ∨ s.moves = []) →
      ((s.rst = false ∧ ∃ w, s.pending = some w ∧ nextTurn s = .completion w) ∨
        ((s.rst = true ∨ s.pending = none) ∧ nextTurn s = .idle)) := by
    intro h
    cases hr : s.rst
    · cases hp : s.pending with
      | none => right; exact ⟨Or.inr rfl, by rcases h with ⟨ms, h⟩ | h <;> simp [nextTurn, h, hr, hp]⟩
      | some w => left; exact ⟨rfl, w, rfl, by rcases h with ⟨ms, h⟩ | h <;> simp [nextTurn, h, hr, hp]⟩
    · right; exact ⟨Or.inl rfl, by rcases h with ⟨ms, h⟩ | h <;> simp [nextTurn, h, hr]⟩
  cases hm : s.moves with
  | nil => exact .inr (.inr (.inr (.inr ⟨Or.inr rfl, fin (Or.inr hm)⟩)))
  | cons m ms =>
    cases m with
    | request r =>
      cases hr : s.rst
      · exact .inl ⟨r, ms, rfl, rfl, by simp [nextTurn, hm, hr]⟩
      · exact .inr (.inl ⟨r, ms, rfl, rfl, by simp [nextTurn, hm, hr]⟩)
    | core => exact .inr (.inr (.inr (.inr ⟨Or.inl ⟨ms, rfl⟩, fin (Or.inl ⟨ms, hm⟩)⟩)))
    | assertRst => exact .inr (.inr (.inl ⟨ms, rfl, by simp [nextTurn, hm]⟩))
    | releaseRst => exact .inr (.inr (.inr (.inl ⟨ms, rfl, by simp [nextTurn, hm]⟩)))

end Sys2Proof.Machine
end

