-- ==== Sys2Proof/Laws/FrequencyAnalyzer.lean ====
section
/-!
SUPPORT. The laws of the FrequencyAnalyzer: the first-seen order, the stable sort, and what ANALYZE leaves in FTAB.
-/

namespace Sys2Proof.Machine

/-! ## First-seen order (R132) -/

/-- The scan of R134 with the input still to come on the right. -/
def firstSeenFrom (order raw : List Byte) : List Byte :=
  raw.foldl (fun order x => if order.contains x then order else order ++ [x]) order

@[simp] theorem firstSeenFrom_nil (order : List Byte) : firstSeenFrom order [] = order := rfl

theorem firstSeenFrom_cons (order : List Byte) (x : Byte) (raw : List Byte) :
    firstSeenFrom order (x :: raw) = firstSeenFrom (if order.contains x then order else order ++ [x]) raw := rfl

theorem firstSeen_eq (raw : List Byte) : firstSeen raw = firstSeenFrom [] raw := rfl

theorem mem_firstSeenFrom (order raw : List Byte) (y : Byte) :
    y ∈ firstSeenFrom order raw ↔ y ∈ order ∨ y ∈ raw := by
  induction raw generalizing order with
  | nil => simp
  | cons x raw ih =>
    rw [firstSeenFrom_cons, ih]
    split
    · rename_i h
      have hx : x ∈ order := by simpa using h
      simp only [List.mem_cons]
      constructor
      · rintro (h | h) <;> tauto
      · rintro (h | rfl | h) <;> tauto
    · simp only [List.mem_append, List.mem_cons]
      tauto

/-- A byte is in the first-seen order exactly when it is in the input. -/
theorem mem_firstSeen (raw : List Byte) (y : Byte) : y ∈ firstSeen raw ↔ y ∈ raw := by
  rw [firstSeen_eq, mem_firstSeenFrom]; simp

theorem nodup_firstSeenFrom {order : List Byte} (h : order.Nodup) (raw : List Byte) :
    (firstSeenFrom order raw).Nodup := by
  induction raw generalizing order with
  | nil => exact h
  | cons x raw ih =>
    rw [firstSeenFrom_cons]
    split
    · exact ih h
    · rename_i hx
      have hx' : x ∉ order := by simpa using hx
      refine ih (List.nodup_append.2 ⟨h, List.nodup_singleton x, ?_⟩)
      intro a ha b hb hab
      rw [List.mem_singleton] at hb
      subst hb hab
      exact hx' ha

theorem nodup_firstSeen (raw : List Byte) : (firstSeen raw).Nodup := nodup_firstSeenFrom List.nodup_nil raw

/-- The order seen so far, followed by what is new in the rest: positions in the whole input rise along it. -/
theorem sorted_firstSeenFrom (seen order raw : List Byte) (hmem : ∀ y, y ∈ order ↔ y ∈ seen)
    (hs : order.Pairwise fun a b => (seen ++ raw).idxOf a < (seen ++ raw).idxOf b) :
    (firstSeenFrom order raw).Pairwise fun a b => (seen ++ raw).idxOf a < (seen ++ raw).idxOf b := by
  induction raw generalizing seen order with
  | nil => exact hs
  | cons x raw ih =>
    rw [firstSeenFrom_cons]
    have hassoc : seen ++ x :: raw = (seen ++ [x]) ++ raw := by simp
    rw [hassoc] at hs ⊢
    split
    · rename_i h
      have hx : x ∈ order := by simpa using h
      refine ih _ _ (fun y => ?_) hs
      rw [hmem y, List.mem_append, List.mem_singleton]
      constructor
      · exact Or.inl
      · rintro (h | rfl)
        · exact h
        · exact (hmem _).1 hx
    · rename_i h
      have hx : x ∉ order := by simpa using h
      have hxs : x ∉ seen := fun h => hx ((hmem x).2 h)
      refine ih _ _ (fun y => ?_) ?_
      · simp only [List.mem_append, hmem y]
      · rw [List.pairwise_append]
        refine ⟨hs, List.pairwise_singleton _ _, fun a ha b hb => ?_⟩
        rw [List.mem_singleton] at hb
        subst hb
        have ha' : a ∈ seen := (hmem a).1 ha
        rw [List.idxOf_append_of_mem (by simp [ha']), List.idxOf_append_of_mem ha',
          List.idxOf_append_of_mem (by simp), List.idxOf_append_of_notMem hxs]
        have := List.idxOf_lt_length_of_mem ha'
        omega

/-- First-seen indices rise along the first-seen order (R132). -/
theorem sorted_firstSeen (raw : List Byte) :
    (firstSeen raw).Pairwise fun a b => raw.idxOf a < raw.idxOf b := by
  have := sorted_firstSeenFrom [] [] raw (by simp) List.Pairwise.nil
  simpa [firstSeen_eq] using this

/-! ## The stable sort (R134) -/

theorem insertDescending_perm (key : Byte → Nat) (x : Byte) (l : List Byte) :
    (insertDescending key x l).Perm (x :: l) := by
  induction l with
  | nil => exact List.Perm.refl _
  | cons y l ih =>
    unfold insertDescending
    split
    · exact (List.Perm.cons y ih).trans (List.Perm.swap x y l)
    · exact List.Perm.refl _

/-- Inserting an element that comes after all the others keeps the list sorted by descending key, and by the order
`lt` among equal keys. -/
theorem insertDescending_sorted {key : Byte → Nat} {lt : Byte → Byte → Prop} {x : Byte} {l : List Byte}
    (hl : l.Pairwise fun a b => key b < key a ∨ (key a = key b ∧ lt a b)) (hx : ∀ y ∈ l, lt y x) :
    (insertDescending key x l).Pairwise fun a b => key b < key a ∨ (key a = key b ∧ lt a b) := by
  induction l with
  | nil => exact List.pairwise_singleton _ _
  | cons y l ih =>
    obtain ⟨hy, hl'⟩ := List.pairwise_cons.1 hl
    unfold insertDescending
    split
    · rename_i hk
      refine List.pairwise_cons.2 ⟨fun z hz => ?_, ih hl' fun z hz => hx z (List.mem_cons_of_mem _ hz)⟩
      rcases List.mem_cons.1 ((insertDescending_perm key x l).mem_iff.1 hz) with rfl | hz
      · rcases Nat.lt_or_eq_of_le hk with h | h
        · exact Or.inl h
        · exact Or.inr ⟨h.symm, hx y (List.mem_cons_self ..)⟩
      · exact hy z hz
    · rename_i hk
      refine List.pairwise_cons.2 ⟨fun z hz => Or.inl ?_, hl⟩
      rcases List.mem_cons.1 hz with rfl | hz
      · omega
      · rcases hy z hz with h | h <;> omega

theorem foldl_insertDescending_perm (key : Byte → Nat) (xs acc : List Byte) :
    (xs.foldl (fun acc x => insertDescending key x acc) acc).Perm (xs ++ acc) := by
  induction xs generalizing acc with
  | nil => exact List.Perm.refl _
  | cons x xs ih =>
    refine (ih _).trans ?_
    refine (List.Perm.append_left xs (insertDescending_perm key x acc)).trans ?_
    exact List.perm_middle

/-- The sort keeps every element (R134). -/
theorem stableSort_perm (key : Byte → Nat) (xs : List Byte) : (stableSort key xs).Perm xs := by
  rw [stableSort]
  simpa using foldl_insertDescending_perm key xs []

theorem foldl_insertDescending_sorted {key : Byte → Nat} {lt : Byte → Byte → Prop} {xs acc : List Byte}
    (hacc : acc.Pairwise fun a b => key b < key a ∨ (key a = key b ∧ lt a b)) (hxs : xs.Pairwise lt)
    (hlt : ∀ a ∈ acc, ∀ x ∈ xs, lt a x) :
    (xs.foldl (fun acc x => insertDescending key x acc) acc).Pairwise
      fun a b => key b < key a ∨ (key a = key b ∧ lt a b) := by
  induction xs generalizing acc with
  | nil => exact hacc
  | cons x xs ih =>
    obtain ⟨hx, hxs'⟩ := List.pairwise_cons.1 hxs
    refine ih (insertDescending_sorted hacc fun y hy => hlt y hy x (List.mem_cons_self ..)) hxs' fun a ha z hz => ?_
    rcases List.mem_cons.1 ((insertDescending_perm key x acc).mem_iff.1 ha) with rfl | ha
    · exact hx z hz
    · exact hlt a ha z (List.mem_cons_of_mem _ hz)

/-- The sort is by descending key, and elements of equal key keep their order (R133, R134). -/
theorem stableSort_sorted {key : Byte → Nat} {lt : Byte → Byte → Prop} {xs : List Byte} (h : xs.Pairwise lt) :
    (stableSort key xs).Pairwise fun a b => key b < key a ∨ (key a = key b ∧ lt a b) :=
  foldl_insertDescending_sorted List.Pairwise.nil h (by simp)

/-! ## The FrequencyList (R131 to R133) -/

theorem length_frequencyList (raw : List Byte) : (frequencyList raw).length = (firstSeen raw).length := by
  simp [frequencyList, (stableSort_perm _ _).length_eq]

/-- A list of distinct bytes has at most 256 of them (R9). -/
theorem length_le_of_nodup {l : List Byte} (h : l.Nodup) : l.length ≤ 256 := by
  have hn : (l.map BitVec.toNat).Nodup := h.map fun a b hab => BitVec.eq_of_toNat_eq hab
  have hs : l.map BitVec.toNat ⊆ List.range 256 := by
    intro n hn
    obtain ⟨b, -, rfl⟩ := List.mem_map.1 hn
    exact List.mem_range.2 b.isLt
  simpa using (List.subperm_of_subset hn hs).length_le

theorem length_frequencyList_le (raw : List Byte) : (frequencyList raw).length ≤ 256 := by
  rw [length_frequencyList]; exact length_le_of_nodup (nodup_firstSeen raw)

/-- The list holds exactly the input's bytes, each with its count (R131). -/
theorem mem_frequencyList (raw : List Byte) (e : FreqEntry) :
    e ∈ frequencyList raw ↔ e.sym ∈ raw ∧ e.cnt = raw.count e.sym := by
  obtain ⟨x, c⟩ := e
  simp only [frequencyList, List.mem_map, (stableSort_perm _ _).mem_iff, mem_firstSeen, FreqEntry.mk.injEq]
  constructor
  · rintro ⟨y, hy, rfl, rfl⟩; exact ⟨hy, rfl⟩
  · rintro ⟨hx, rfl⟩; exact ⟨x, hx, rfl, rfl⟩

/-- The list's order (R133). -/
theorem sorted_frequencyList (raw : List Byte) :
    (frequencyList raw).Pairwise fun e f =>
      f.cnt < e.cnt ∨ (e.cnt = f.cnt ∧ raw.idxOf e.sym < raw.idxOf f.sym) := by
  rw [frequencyList, List.pairwise_map]
  exact stableSort_sorted (sorted_firstSeen raw)

theorem nodup_map_sym_frequencyList (raw : List Byte) : ((frequencyList raw).map (·.sym)).Nodup := by
  have : (frequencyList raw).map (·.sym) = stableSort (fun x => raw.count x) (firstSeen raw) := by
    simp [frequencyList, Function.comp_def]
  rw [this]
  exact (stableSort_perm _ _).nodup_iff.2 (nodup_firstSeen raw)

theorem frequencyList_ne_nil {raw : List Byte} (h : raw ≠ []) : frequencyList raw ≠ [] := by
  obtain ⟨x, hx⟩ := List.exists_mem_of_ne_nil _ h
  exact List.ne_nil_of_mem ((mem_frequencyList raw ⟨x, raw.count x⟩).2 ⟨hx, rfl⟩)

/-! ## What ANALYZE leaves (R100, R134) -/

@[simp] theorem FreqEntry.length_bytes (e : FreqEntry) : e.bytes.length = 8 := by simp [FreqEntry.bytes]

/-- The byte of an entry in a table of equal-sized entries. -/
theorem getElem?_flatMap_block {α β : Type} (f : α → List β) (b : Nat) (l : List α)
    (hf : ∀ x ∈ l, (f x).length = b) (k j : Nat) (hj : j < b) :
    (l.flatMap f)[b * k + j]? = l[k]?.bind fun x => (f x)[j]? := by
  induction l generalizing k with
  | nil => simp
  | cons x l ih =>
    have hx : (f x).length = b := hf x (List.mem_cons_self ..)
    rw [List.flatMap_cons]
    cases k with
    | zero => rw [List.getElem?_append_left (by rw [hx]; omega)]; simp
    | succ k =>
      rw [List.getElem?_append_right (by rw [hx]; rw [Nat.mul_succ]; omega), hx,
        show b * (k + 1) + j - b = b * k + j by rw [Nat.mul_succ]; omega,
        ih fun y hy => hf y (List.mem_cons_of_mem _ hy)]
      simp

theorem length_flatMap_block {α β : Type} (f : α → List β) (b : Nat) (l : List α)
    (hf : ∀ x ∈ l, (f x).length = b) : (l.flatMap f).length = b * l.length := by
  induction l with
  | nil => simp
  | cons x l ih =>
    rw [List.flatMap_cons, List.length_append, hf x (List.mem_cons_self ..),
      ih fun y hy => hf y (List.mem_cons_of_mem _ hy), List.length_cons, Nat.mul_succ]
    omega

/-- A state that holds a block of table entries reads each byte of each entry back. -/
theorem State.readByte_writeBytes_block {α : Type} (s : State) (r : Region) (a : Nat) (f : α → List Byte) (b : Nat)
    (l : List α) (hf : ∀ x ∈ l, (f x).length = b) {k j : Nat} (hk : k < l.length) (hj : j < b) :
    (s.writeBytes a (l.flatMap f)).readByte r (a + (b * k + j)) =
      (f l[k])[j]'(by rw [hf _ (List.getElem_mem hk)]; exact hj) := by
  have hlen : b * k + j < (l.flatMap f).length := by
    rw [length_flatMap_block f b l hf]
    have : b * (k + 1) ≤ b * l.length := Nat.mul_le_mul_left b hk
    rw [Nat.mul_succ] at this
    omega
  rw [State.readByte_writeBytes_in _ _ _ _ hlen]
  have := getElem?_flatMap_block f b l hf k j hj
  rw [List.getElem?_eq_getElem hlen, List.getElem?_eq_getElem hk] at this
  simp only [Option.bind_some,
    List.getElem?_eq_getElem (show j < (f l[k]).length by rw [hf _ (List.getElem_mem hk)]; exact hj)] at this
  exact Option.some.inj this

/-- FT[k] reads back as the entry written there, when its count fits 32 bits (R100). -/
theorem State.freqEntry_writeBytes (s : State) (fl : List FreqEntry) {k : Nat} (hk : k < fl.length)
    (hc : fl[k].cnt < 2 ^ 32) :
    (s.writeBytes (ftabEntry 0) (fl.flatMap FreqEntry.bytes)).freqEntry k = fl[k] := by
  have key : ∀ j (hj : j < 8), (s.writeBytes (ftabEntry 0) (fl.flatMap FreqEntry.bytes)).readByte .ftab
      (ftabEntry k + j) = fl[k].bytes[j]'(by simpa using hj) := by
    intro j hj
    rw [← State.readByte_writeBytes_block s .ftab (ftabEntry 0) FreqEntry.bytes 8 fl
      (fun e _ => e.length_bytes) hk hj]
    congr 1
    simp only [ftabEntry]
    omega
  have h0 := key 0 (by omega)
  rw [Nat.add_zero] at h0
  rw [State.freqEntry, h0]
  have hw : (s.writeBytes (ftabEntry 0) (fl.flatMap FreqEntry.bytes)).readBytes .ftab (ftabEntry k + 4) 4 =
      bytesOfWord 4 (BitVec.ofNat 32 fl[k].cnt) := by
    apply List.ext_getElem (by simp)
    intro j h1 h2
    have hj : j < 4 := by simpa using h1
    rw [State.getElem_readBytes, Nat.add_assoc, key (4 + j) (by omega)]
    simp only [FreqEntry.bytes]
    rw [List.getElem_append_right (by simp)]
    congr 1
    simp
  rw [State.readWord, hw, wordOfBytes_bytesOfWord, BitVec.toNat_ofNat, Nat.mod_eq_of_lt hc]
  rfl

/-- FT[0..n) reads back as the list written there (R134). -/
theorem State.freqTable_writeBytes (s : State) (fl : List FreqEntry) (hc : ∀ e ∈ fl, e.cnt < 2 ^ 32) :
    (s.writeBytes (ftabEntry 0) (fl.flatMap FreqEntry.bytes)).freqTable fl.length = fl := by
  apply List.ext_getElem (by simp [State.freqTable])
  intro k h1 h2
  simp only [State.freqTable, List.getElem_map, List.getElem_range]
  exact State.freqEntry_writeBytes s fl h2 (hc _ (List.getElem_mem h2))

/-- When ANALYZE runs without fault, and what its result is (R134, R135). -/
theorem analyzeRun_eq (s : State) :
    (s.rawLen.toNat = 0 ∧ analyzeRun s = .error .emptyInput) ∨
    (s.rawLen.toNat ≠ 0 ∧ s.params.inCap < s.rawLen.toNat ∧ analyzeRun s = .error .rawLenRange) ∨
    (1 ≤ s.rawLen.toNat ∧ s.rawLen.toNat ≤ s.params.inCap ∧
      analyzeRun s = .ok
        { s.writeBytes (ftabEntry 0) ((frequencyList (s.rawInput s.rawLen.toNat)).flatMap FreqEntry.bytes) with
          ftCount := Fin.ofNat 257 (frequencyList (s.rawInput s.rawLen.toNat)).length }) := by
  by_cases h0 : s.rawLen.toNat = 0
  · exact .inl ⟨h0, by simp [analyzeRun, h0]⟩
  by_cases h1 : s.params.inCap < s.rawLen.toNat
  · exact .inr (.inl ⟨h0, h1, by simp [analyzeRun, h0, h1]⟩)
  · exact .inr (.inr ⟨by omega, by omega, by simp [analyzeRun, h0, h1]⟩)

end Sys2Proof.Machine
end

