-- ==== Sys2Proof/Laws/CodeTreeBuilder.lean ====
section
/-!
SUPPORT. The laws of the CodeTreeBuilder: SPLIT picks the smallest index of least imbalance (R151 to R153), ASSIGN's
codes are prefix-free, complete and short enough (R156, R158, R159), and what BUILD leaves in CTAB (R157).
-/

namespace Sys2Proof.Machine

/-! ## SPLIT -/

/-- The imbalance of candidate `i` when `left` lies before the counts `cs` (R151). -/
def candidate (total left : Nat) (cs : List Nat) (i : Nat) : Nat := imbalance total (left + (cs.take (i + 1)).sum)

theorem candidate_succ (total left c : Nat) (cs : List Nat) (i : Nat) :
    candidate total left (c :: cs) (i + 1) = candidate total (left + c) cs i := by
  simp [candidate, Nat.add_assoc]

theorem candidate_zero (total left c : Nat) (cs : List Nat) :
    candidate total left (c :: cs) 0 = imbalance total (left + c) := by simp [candidate]

/-- The loop with a best candidate in hand: it stays unless a later candidate beats it, and then the first least one
wins. -/
theorem splitLoop_some (total : Nat) (cs : List Nat) (j left bd bj : Nat) :
    (splitLoop total cs j left (some (bd, bj)) = some (bd, bj) ∧
      ∀ i, i + 1 < cs.length → bd ≤ candidate total left cs i) ∨
    ∃ i, i + 1 < cs.length ∧
      splitLoop total cs j left (some (bd, bj)) = some (candidate total left cs i, j + i) ∧
      candidate total left cs i < bd ∧ (∀ k < i, candidate total left cs i < candidate total left cs k) ∧
      ∀ k, k + 1 < cs.length → candidate total left cs i ≤ candidate total left cs k := by
  induction cs generalizing j left bd bj with
  | nil => left; exact ⟨rfl, by simp⟩
  | cons c cs ih =>
    cases cs with
    | nil => left; exact ⟨rfl, by simp⟩
    | cons c' cs =>
      have h0 := candidate_zero total left c (c' :: cs)
      by_cases hd : imbalance total (left + c) < bd
      · have hstep : splitLoop total (c :: c' :: cs) j left (some (bd, bj)) =
            splitLoop total (c' :: cs) (j + 1) (left + c) (some (imbalance total (left + c), j)) := by
          simp [splitLoop, hd]
        right
        rcases ih (j + 1) (left + c) (imbalance total (left + c)) j with ⟨h1, h2⟩ | ⟨i, h1, h2, h3, h4, h5⟩
        · refine ⟨0, by simp, by rw [hstep, h1, h0, Nat.add_zero], by rw [h0]; exact hd, by simp, ?_⟩
          intro k hk
          rw [h0]
          cases k with
          | zero => rw [h0]
          | succ k => rw [candidate_succ]; exact h2 k (by simpa using hk)
        · refine ⟨i + 1, by simpa using h1, by rw [hstep, h2, candidate_succ]; congr 2; omega,
            by rw [candidate_succ]; omega, ?_, ?_⟩
          · intro k hk
            rw [candidate_succ]
            cases k with
            | zero => rw [h0]; exact h3
            | succ k => rw [candidate_succ]; exact h4 k (by omega)
          · intro k hk
            rw [candidate_succ]
            cases k with
            | zero => rw [h0]; exact Nat.le_of_lt h3
            | succ k => rw [candidate_succ]; exact h5 k (by simpa using hk)
      · have hstep : splitLoop total (c :: c' :: cs) j left (some (bd, bj)) =
            splitLoop total (c' :: cs) (j + 1) (left + c) (some (bd, bj)) := by
          simp [splitLoop, hd]
        rcases ih (j + 1) (left + c) bd bj with ⟨h1, h2⟩ | ⟨i, h1, h2, h3, h4, h5⟩
        · left
          refine ⟨by rw [hstep, h1], fun k hk => ?_⟩
          cases k with
          | zero => rw [h0]; omega
          | succ k => rw [candidate_succ]; exact h2 k (by simpa using hk)
        · right
          refine ⟨i + 1, by simpa using h1, by rw [hstep, h2, candidate_succ]; congr 2; omega,
            by rw [candidate_succ]; exact h3, ?_, ?_⟩
          · intro k hk
            rw [candidate_succ]
            cases k with
            | zero => rw [h0]; omega
            | succ k => rw [candidate_succ]; exact h4 k (by omega)
          · intro k hk
            rw [candidate_succ]
            cases k with
            | zero => rw [h0]; omega
            | succ k => rw [candidate_succ]; exact h5 k (by simpa using hk)

/-- SPLIT's index is a candidate, its imbalance the least, and every smaller candidate's is greater (R151 to R153). -/
theorem split_spec {cs : List Nat} (h : 2 ≤ cs.length) :
    split cs + 1 < cs.length ∧
    (∀ k, k + 1 < cs.length → candidate cs.sum 0 cs (split cs) ≤ candidate cs.sum 0 cs k) ∧
    ∀ k < split cs, candidate cs.sum 0 cs (split cs) < candidate cs.sum 0 cs k := by
  match cs, h with
  | c :: c' :: cs, _ =>
    have h0 := candidate_zero (c :: c' :: cs).sum 0 c (c' :: cs)
    have hstep : splitLoop (c :: c' :: cs).sum (c :: c' :: cs) 0 0 none =
        splitLoop (c :: c' :: cs).sum (c' :: cs) 1 (0 + c) (some (imbalance (c :: c' :: cs).sum (0 + c), 0)) := by
      simp [splitLoop]
    rcases splitLoop_some (c :: c' :: cs).sum (c' :: cs) 1 (0 + c) (imbalance (c :: c' :: cs).sum (0 + c)) 0 with
      ⟨h1, h2⟩ | ⟨i, h1, h2, h3, h4, h5⟩
    · have hs : split (c :: c' :: cs) = 0 := by rw [split, hstep, h1]
      rw [hs]
      refine ⟨by simp, fun k hk => ?_, by simp⟩
      rw [h0]
      cases k with
      | zero => rw [h0]
      | succ k => rw [candidate_succ]; exact h2 k (by simpa using hk)
    · have hs : split (c :: c' :: cs) = i + 1 := by rw [split, hstep, h2]; simp only; omega
      rw [hs, candidate_succ]
      refine ⟨by simpa using h1, fun k hk => ?_, fun k hk => ?_⟩
      · cases k with
        | zero => rw [h0]; exact Nat.le_of_lt h3
        | succ k => rw [candidate_succ]; exact h5 k (by simpa using hk)
      · cases k with
        | zero => rw [h0]; exact h3
        | succ k => rw [candidate_succ]; exact h4 k (by omega)

/-! ## ASSIGN -/

@[simp] theorem assign_nil (fuel : Nat) (path : List Bool) : assign fuel [] path = [] := by cases fuel <;> rfl
@[simp] theorem assign_singleton (fuel c : Nat) (path : List Bool) : assign fuel [c] path = [path] := by
  cases fuel <;> rfl

theorem assign_succ (fuel : Nat) {cs : List Nat} (h : 2 ≤ cs.length) (path : List Bool) :
    assign (fuel + 1) cs path =
      assign fuel (cs.take (split cs + 1)) (path ++ [false]) ++
        assign fuel (cs.drop (split cs + 1)) (path ++ [true]) := by
  match cs, h with
  | c :: c' :: cs, _ => rfl

theorem assign_zero {cs : List Nat} (h : 2 ≤ cs.length) (path : List Bool) :
    assign 0 cs path = cs.map fun _ => path := by
  match cs, h with
  | c :: c' :: cs, _ => rfl

/-- A list is empty, a single count, or long enough to split. -/
theorem counts_cases (cs : List Nat) : cs = [] ∨ (∃ c, cs = [c]) ∨ 2 ≤ cs.length := by
  match cs with
  | [] => exact .inl rfl
  | [c] => exact .inr (.inl ⟨c, rfl⟩)
  | _ :: _ :: _ => exact .inr (.inr (by simp))

/-- One code for each count (R157). -/
@[simp] theorem length_assign (fuel : Nat) (cs : List Nat) (path : List Bool) :
    (assign fuel cs path).length = cs.length := by
  induction fuel generalizing cs path with
  | zero =>
    rcases counts_cases cs with rfl | ⟨c, rfl⟩ | h
    · simp
    · simp
    · simp [assign_zero h]
  | succ fuel ih =>
    rcases counts_cases cs with rfl | ⟨c, rfl⟩ | h
    · simp
    · simp
    · rw [assign_succ fuel h, List.length_append, ih, ih, List.length_take, List.length_drop]
      omega

/-- The path so far stands before every code (R154). -/
theorem assign_path (fuel : Nat) (cs : List Nat) (path : List Bool) :
    assign fuel cs path = (assign fuel cs []).map (path ++ ·) := by
  induction fuel generalizing cs path with
  | zero =>
    rcases counts_cases cs with rfl | ⟨c, rfl⟩ | h
    · simp
    · simp
    · simp [assign_zero h]
  | succ fuel ih =>
    rcases counts_cases cs with rfl | ⟨c, rfl⟩ | h
    · simp
    · simp
    · rw [assign_succ fuel h, assign_succ fuel h, ih _ (path ++ [false]), ih _ (path ++ [true]),
        ih _ ([] ++ [false]), ih _ ([] ++ [true])]
      simp [Function.comp_def]

/-- The two halves of a split, with the bit each appends (R154). -/
theorem assign_split (fuel : Nat) {cs : List Nat} (h : 2 ≤ cs.length) :
    assign (fuel + 1) cs [] =
      (assign fuel (cs.take (split cs + 1)) []).map (false :: ·) ++
        (assign fuel (cs.drop (split cs + 1)) []).map (true :: ·) := by
  rw [assign_succ fuel h, assign_path fuel _ ([] ++ [false]), assign_path fuel _ ([] ++ [true])]
  simp

/-- Fuel beyond the depth makes no difference. -/
theorem assign_fuel {f g : Nat} {cs : List Nat} (hf : cs.length ≤ f + 1) (hg : cs.length ≤ g + 1)
    (path : List Bool) : assign f cs path = assign g cs path := by
  induction f generalizing g cs path with
  | zero =>
    rcases counts_cases cs with rfl | ⟨c, rfl⟩ | h
    · simp
    · simp
    · omega
  | succ f ih =>
    rcases counts_cases cs with rfl | ⟨c, rfl⟩ | h
    · simp
    · simp
    · obtain ⟨g, rfl⟩ : ∃ g', g = g' + 1 := ⟨g - 1, by omega⟩
      have hs := (split_spec h).1
      rw [assign_succ f h, assign_succ g h, ih (g := g), ih (g := g)] <;>
        simp only [List.length_take, List.length_drop] <;> omega

/-- No code is a prefix of another (R158). -/
theorem assign_prefixFree {fuel : Nat} {cs : List Nat} (hf : cs.length ≤ fuel + 1) :
    (assign fuel cs []).Pairwise fun a b => ¬ a <+: b ∧ ¬ b <+: a := by
  induction fuel generalizing cs with
  | zero =>
    rcases counts_cases cs with rfl | ⟨c, rfl⟩ | h
    · simp
    · simp
    · omega
  | succ fuel ih =>
    rcases counts_cases cs with rfl | ⟨c, rfl⟩ | h
    · simp
    · simp
    · have hs := (split_spec h).1
      rw [assign_split fuel h, List.pairwise_append, List.pairwise_map, List.pairwise_map]
      have lift : ∀ (b : Bool) (l : List (List Bool)), (l.Pairwise fun a b => ¬ a <+: b ∧ ¬ b <+: a) →
          l.Pairwise fun x y => ¬ (b :: x) <+: (b :: y) ∧ ¬ (b :: y) <+: (b :: x) := by
        intro b l hl
        refine hl.imp fun h => ?_
        simpa [List.cons_prefix_cons] using h
      refine ⟨lift _ _ (ih (by simp; omega)), lift _ _ (ih (by simp; omega)), ?_⟩
      intro a ha b hb
      obtain ⟨x, -, rfl⟩ := List.mem_map.1 ha
      obtain ⟨y, -, rfl⟩ := List.mem_map.1 hb
      simp [List.cons_prefix_cons]

/-- A sub-list of m entries has codes of at most m − 1 bits below it (R156). -/
theorem assign_length_le {fuel : Nat} {cs : List Nat} (hf : cs.length ≤ fuel + 1) {c : List Bool}
    (hc : c ∈ assign fuel cs []) : c.length + 1 ≤ cs.length := by
  induction fuel generalizing cs c with
  | zero =>
    rcases counts_cases cs with rfl | ⟨c', rfl⟩ | h
    · simp at hc
    · rw [assign_singleton, List.mem_singleton] at hc; simp [hc]
    · omega
  | succ fuel ih =>
    rcases counts_cases cs with rfl | ⟨c', rfl⟩ | h
    · simp at hc
    · rw [assign_singleton, List.mem_singleton] at hc; simp [hc]
    · have hs := (split_spec h).1
      rw [assign_split fuel h, List.mem_append] at hc
      rcases hc with hc | hc <;> obtain ⟨x, hx, rfl⟩ := List.mem_map.1 hc
      · have := ih (by simp only [List.length_take]; omega) hx
        simp only [List.length_take] at this
        simp only [List.length_cons]
        omega
      · have := ih (by simp only [List.length_drop]; omega) hx
        simp only [List.length_drop] at this
        simp only [List.length_cons]
        omega

/-- Above a single entry every code has at least one bit (R156). -/
theorem assign_ne_nil {fuel : Nat} {cs : List Nat} (h2 : 2 ≤ cs.length) (hf : cs.length ≤ fuel + 1) {c : List Bool}
    (hc : c ∈ assign fuel cs []) : c ≠ [] := by
  obtain ⟨fuel, rfl⟩ : ∃ f, fuel = f + 1 := ⟨fuel - 1, by omega⟩
  rw [assign_split fuel h2, List.mem_append] at hc
  rcases hc with hc | hc <;> obtain ⟨x, -, rfl⟩ := List.mem_map.1 hc <;> simp

/-- The partition tree is full: the code lengths meet Kraft's sum exactly (R159), scaled by 2^K. -/
theorem assign_kraft {fuel : Nat} {cs : List Nat} (hf : cs.length ≤ fuel + 1) (hne : cs ≠ []) {K : Nat}
    (hK : cs.length ≤ K + 1) : ((assign fuel cs []).map fun c => 2 ^ (K - c.length)).sum = 2 ^ K := by
  induction fuel generalizing cs K with
  | zero =>
    rcases counts_cases cs with rfl | ⟨c, rfl⟩ | h
    · exact absurd rfl hne
    · simp
    · omega
  | succ fuel ih =>
    rcases counts_cases cs with rfl | ⟨c, rfl⟩ | h
    · exact absurd rfl hne
    · simp
    · have hs := (split_spec h).1
      obtain ⟨K, rfl⟩ : ∃ k, K = k + 1 := ⟨K - 1, by omega⟩
      rw [assign_split fuel h, List.map_append, List.sum_append, List.map_map, List.map_map]
      have e : ∀ b : Bool, ((fun c : List Bool => 2 ^ (K + 1 - c.length)) ∘ (b :: ·)) =
          fun c : List Bool => 2 ^ (K - c.length) := by
        intro b; funext c; simp
      have hl : cs.take (split cs + 1) ≠ [] := by
        intro h0
        have := congrArg List.length h0
        simp only [List.length_take, List.length_nil] at this
        omega
      have hr : cs.drop (split cs + 1) ≠ [] := by
        intro h0
        have := congrArg List.length h0
        simp only [List.length_drop, List.length_nil] at this
        omega
      rw [e, e, ih (by simp only [List.length_take]; omega) hl (by simp only [List.length_take]; omega),
        ih (by simp only [List.length_drop]; omega) hr (by simp only [List.length_drop]; omega)]
      ring

/-! ## The codes of a FrequencyList -/

theorem buildCodes_singleton (single : Bool) (c : Nat) : buildCodes single [c] = [[single]] := rfl

theorem buildCodes_of_two_le (single : Bool) {cs : List Nat} (h : 2 ≤ cs.length) :
    buildCodes single cs = assign cs.length cs [] := by
  match cs, h with
  | c :: c' :: cs, _ => rfl

@[simp] theorem length_buildCodes (single : Bool) (cs : List Nat) : (buildCodes single cs).length = cs.length := by
  rcases counts_cases cs with rfl | ⟨c, rfl⟩ | h
  · rfl
  · rfl
  · rw [buildCodes_of_two_le single h, length_assign]

/-- R158. -/
theorem buildCodes_prefixFree (single : Bool) (cs : List Nat) :
    (buildCodes single cs).Pairwise fun a b => ¬ a <+: b ∧ ¬ b <+: a := by
  rcases counts_cases cs with rfl | ⟨c, rfl⟩ | h
  · exact List.Pairwise.nil
  · exact List.pairwise_singleton _ _
  · rw [buildCodes_of_two_le single h]; exact assign_prefixFree (by omega)

/-- R156: from 1 to n − 1 bits, and 1 for a lone symbol. -/
theorem buildCodes_length (single : Bool) {cs : List Nat} {c : List Bool} (hc : c ∈ buildCodes single cs) :
    1 ≤ c.length ∧ c.length ≤ max 1 (cs.length - 1) := by
  rcases counts_cases cs with rfl | ⟨c', rfl⟩ | h
  · cases hc
  · rw [buildCodes_singleton, List.mem_singleton] at hc; simp [hc]
  · rw [buildCodes_of_two_le single h] at hc
    have h1 := List.length_pos_iff.2 (assign_ne_nil h (by omega) hc)
    have h2 := assign_length_le (by omega) hc
    omega

/-! ## What BUILD leaves (R101, R102, R157) -/

theorem CodeEntry.length_bytes {e : CodeEntry} (h : e.code.length ≤ 256) : e.bytes.length = 64 := by
  simp [CodeEntry.bytes, bytesFor]
  omega

/-- Byte j of CT[k] after BUILD's write of a table. -/
theorem State.readByte_codeEntry_writeBytes (s : State) {table : List CodeEntry}
    (hc : ∀ e ∈ table, e.code.length ≤ 256) {k : Nat} (hk : k < table.length) {j : Nat} (hj : j < 64) :
    (s.writeBytes (ctabEntry 0) (table.flatMap CodeEntry.bytes)).readByte .ctab (ctabEntry k + j) =
      (table[k].bytes)[j]'(by rw [CodeEntry.length_bytes (hc _ (List.getElem_mem hk))]; exact hj) := by
  rw [← State.readByte_writeBytes_block s .ctab (ctabEntry 0) CodeEntry.bytes 64 table
    (fun e he => CodeEntry.length_bytes (hc e he)) hk hj]
  congr 1
  simp only [ctabEntry]
  omega

/-- Byte j of a packed code field is byte j of the padded code. -/
theorem CodeEntry.getElem_bytes_code (e : CodeEntry) {q : Nat}
    (hq : q < (pack (e.code ++ List.replicate (256 - e.code.length) false)).length)
    (h : 32 + q < e.bytes.length) :
    e.bytes[32 + q] = (pack (e.code ++ List.replicate (256 - e.code.length) false))[q] := by
  simp only [CodeEntry.bytes]
  rw [List.getElem_append_right (by simp)]
  congr 1
  simp

/-- Code bit j of CT[k] after BUILD's write: the code's bit, and 0 from its length on (R102, R157). -/
theorem State.codeBit_writeBytes (s : State) {table : List CodeEntry} (hc : ∀ e ∈ table, e.code.length ≤ 256)
    {k : Nat} (hk : k < table.length) {j : Nat} (hj : j < 256) :
    (s.writeBytes (ctabEntry 0) (table.flatMap CodeEntry.bytes)).codeBit k j = table[k].code.getD j false := by
  have hl := hc _ (List.getElem_mem hk)
  have hp : j / 8 < (pack (table[k].code ++ List.replicate (256 - table[k].code.length) false)).length := by
    simp [bytesFor]; omega
  have hb := bitOf_pack (table[k].code ++ List.replicate (256 - table[k].code.length) false) j
  rw [bitOf, List.getD_eq_getElem?_getD, List.getElem?_eq_getElem hp] at hb
  rw [State.codeBit, Nat.add_assoc, State.readByte_codeEntry_writeBytes s hc hk (by omega),
    CodeEntry.getElem_bytes_code _ hp]
  refine hb.trans ?_
  simp only [List.getD_eq_getElem?_getD]
  by_cases h : j < table[k].code.length
  · rw [List.getElem?_append_left h]
  · rw [List.getElem?_append_right (by omega), List.getElem?_eq_none (by omega : table[k].code.length ≤ j),
      List.getElem?_replicate]
    split <;> rfl

/-- CT[k] reads back as the entry written there (R157). -/
theorem State.codeEntry_writeBytes (s : State) {table : List CodeEntry} (hc : ∀ e ∈ table, e.code.length ≤ 255)
    {k : Nat} (hk : k < table.length) :
    (s.writeBytes (ctabEntry 0) (table.flatMap CodeEntry.bytes)).codeEntry k = table[k] := by
  have hc' : ∀ e ∈ table, e.code.length ≤ 256 := fun e he => by have := hc e he; omega
  have hl := hc _ (List.getElem_mem hk)
  have hsym : (s.writeBytes (ctabEntry 0) (table.flatMap CodeEntry.bytes)).readByte .ctab (ctabEntry k) =
      table[k].sym := by
    have := State.readByte_codeEntry_writeBytes s hc' hk (j := 0) (by omega)
    rw [Nat.add_zero] at this
    rw [this]
    rfl
  have hlen : (s.writeBytes (ctabEntry 0) (table.flatMap CodeEntry.bytes)).codeLen k = table[k].code.length := by
    rw [State.codeLen, State.readByte_codeEntry_writeBytes s hc' hk (by omega)]
    have : table[k].bytes[1]'(by rw [CodeEntry.length_bytes (by omega)]; omega) =
        BitVec.ofNat 8 table[k].code.length := rfl
    rw [this, BitVec.toNat_ofNat]
    omega
  rw [State.codeEntry, hsym, hlen]
  have : (List.range table[k].code.length).map
      ((s.writeBytes (ctabEntry 0) (table.flatMap CodeEntry.bytes)).codeBit k) = table[k].code := by
    apply List.ext_getElem (by simp)
    intro j h1 h2
    rw [List.getElem_map, List.getElem_range, State.codeBit_writeBytes s hc' hk (by omega),
      List.getD_eq_getElem?_getD, List.getElem?_eq_getElem h2]
    rfl
  rw [this]

/-- CT[0..n) reads back as the table written there. -/
theorem State.codeTable_writeBytes (s : State) {table : List CodeEntry} (hc : ∀ e ∈ table, e.code.length ≤ 255) :
    (s.writeBytes (ctabEntry 0) (table.flatMap CodeEntry.bytes)).codeTable table.length = table := by
  apply List.ext_getElem (by simp [State.codeTable])
  intro k h1 h2
  simp only [State.codeTable, List.getElem_map, List.getElem_range]
  exact State.codeEntry_writeBytes s hc h2

@[simp] theorem State.length_freqTable (s : State) (n : Nat) : (s.freqTable n).length = n := by simp [State.freqTable]

@[simp] theorem State.getElem_freqTable (s : State) (n k : Nat) (h : k < (s.freqTable n).length) :
    (s.freqTable n)[k] = s.freqEntry k := by simp [State.freqTable]

@[simp] theorem length_buildTable (single : Bool) (fl : List FreqEntry) :
    (buildTable single fl).length = fl.length := by simp [buildTable]

theorem getElem_buildTable (single : Bool) (fl : List FreqEntry) {k : Nat} (h : k < (buildTable single fl).length) :
    (buildTable single fl)[k] =
      ⟨(fl[k]'(by simpa using h)).sym, (buildCodes single (fl.map (·.cnt)))[k]'(by simpa using h)⟩ := by
  simp [buildTable]

/-- The codes of a table BUILD makes fit their field (R156). -/
theorem buildTable_length_le {single : Bool} {fl : List FreqEntry} (h : fl.length ≤ 256) {e : CodeEntry}
    (he : e ∈ buildTable single fl) : 1 ≤ e.code.length ∧ e.code.length ≤ 255 := by
  obtain ⟨k, hk, rfl⟩ := List.mem_iff_getElem.1 he
  rw [getElem_buildTable]
  have := buildCodes_length single (List.getElem_mem (l := buildCodes single (fl.map (·.cnt))) (n := k)
    (by simpa using hk))
  simp only [List.length_map] at this
  simp only
  omega

/-- The symbols of a table BUILD makes are the list's, in order (R157). -/
theorem map_sym_buildTable (single : Bool) (fl : List FreqEntry) :
    (buildTable single fl).map (·.sym) = fl.map (·.sym) := by
  apply List.ext_getElem (by simp)
  intro k h1 h2
  simp [getElem_buildTable]

/-- When BUILD runs without fault, and what its result is (R154, R160). -/
theorem buildRun_eq (s : State) :
    (s.ftCount.val = 0 ∧ buildRun s = .error .emptyFreq) ∨
    (1 ≤ s.ftCount.val ∧
      buildRun s = .ok
        { s.writeBytes (ctabEntry 0)
            ((buildTable s.params.singleCodeBit (s.freqTable s.ftCount.val)).flatMap CodeEntry.bytes) with
          ctCount := BitVec.ofNat 32 s.ftCount.val }) := by
  by_cases h : s.ftCount.val = 0
  · exact .inl ⟨h, by simp [buildRun, h]⟩
  · exact .inr ⟨by omega, by simp [buildRun, h]⟩

end Sys2Proof.Machine
end

