-- ==== Sys2Proof/Laws/Coders.lean ====
section
/-!
SUPPORT. The laws of the Encoder and the Decoder: looking a byte up, encoding, matching one code, decoding a sequence
of codes, the round trip on the level of bits, and when ENCODE and DECODE run without fault.
-/

namespace Sys2Proof.Machine

/-! ## Looking a byte up (R201) -/

theorem lookupCode_ok {table : List CodeEntry} {x : Byte} {c : List Bool} (h : lookupCode table x = .ok c) :
    ∃ e ∈ table, e.sym = x ∧ e.code = c ∧ ∀ f ∈ table, f.sym = x → f = e := by
  unfold lookupCode at h
  split at h
  · cases h
  · rename_i e he
    cases h
    have hm : ∀ f, f ∈ table.filter (fun e => e.sym == x) ↔ f = e := by rw [he]; simp
    have he' := List.mem_filter.1 ((hm e).2 rfl)
    exact ⟨e, he'.1, by simpa using he'.2, rfl, fun f hf hx => (hm f).1 (List.mem_filter.2 ⟨hf, by simpa using hx⟩)⟩
  · cases h

/-- A filter that one index alone passes. -/
theorem filter_eq_singleton {α : Type} (p : α → Bool) (l : List α) {k : Nat} (hk : k < l.length) (h : p l[k] = true)
    (hu : ∀ j (hj : j < l.length), p l[j] = true → j = k) : l.filter p = [l[k]] := by
  induction l generalizing k with
  | nil => simp at hk
  | cons a l ih =>
    cases k with
    | zero =>
      rw [List.getElem_cons_zero] at h ⊢
      rw [List.filter_cons_of_pos h]
      congr 1
      rw [List.filter_eq_nil_iff]
      intro b hb hpb
      obtain ⟨j, hj, rfl⟩ := List.mem_iff_getElem.1 hb
      have := hu (j + 1) (by simpa using hj) (by simpa using hpb)
      omega
    | succ k =>
      have ha : ¬ p a = true := fun hp => by have := hu 0 (by simp) (by simpa using hp); omega
      rw [List.filter_cons_of_neg ha, List.getElem_cons_succ]
      refine ih (by simpa using hk) (by simpa using h) fun j hj hpj => ?_
      have := hu (j + 1) (by simpa using hj) (by simpa using hpj)
      omega

/-- A filter that two indexes pass. -/
theorem filter_two {α : Type} (p : α → Bool) (l : List α) {j k : Nat} (hj : j < l.length) (hk : k < l.length)
    (hne : j ≠ k) (h1 : p l[j] = true) (h2 : p l[k] = true) : 2 ≤ (l.filter p).length := by
  wlog hlt : j < k generalizing j k
  · exact this hk hj hne.symm h2 h1 (by omega)
  induction l generalizing j k with
  | nil => simp at hk
  | cons a l ih =>
    cases k with
    | zero => omega
    | succ k =>
      cases j with
      | zero =>
        rw [List.getElem_cons_zero] at h1
        rw [List.filter_cons_of_pos h1, List.length_cons]
        have : l[k]'(by simpa using hk) ∈ l.filter p := List.mem_filter.2 ⟨List.getElem_mem _, by simpa using h2⟩
        have := List.length_pos_of_mem this
        omega
      | succ j =>
        have := ih (j := j) (k := k) (by simpa using hj) (by simpa using hk) (by omega) (by simpa using h1)
          (by simpa using h2) (by omega)
        rw [List.filter_cons]
        split
        · rw [List.length_cons]; omega
        · exact this

/-- Exactly one entry for the byte: its code (R201). -/
theorem lookupCode_of_unique {table : List CodeEntry} {x : Byte} {k : Nat} (hk : k < table.length)
    (hx : table[k].sym = x) (hu : ∀ j (hj : j < table.length), table[j].sym = x → j = k) :
    lookupCode table x = .ok table[k].code := by
  rw [lookupCode, filter_eq_singleton (fun e => e.sym == x) table hk (by simpa using hx)
    fun j hj h => hu j hj (by simpa using h)]

/-- No entry: NO_CODE (R201, R205). -/
theorem lookupCode_of_none {table : List CodeEntry} {x : Byte} (h : ∀ e ∈ table, e.sym ≠ x) :
    lookupCode table x = .error .noCode := by
  have : table.filter (fun e => e.sym == x) = [] := List.filter_eq_nil_iff.2 fun e he => by simp [h e he]
  rw [lookupCode, this]

/-- Two entries: DUP_SYMBOL (R201, R205). -/
theorem lookupCode_of_two {table : List CodeEntry} {x : Byte} {j k : Nat} (hj : j < table.length)
    (hk : k < table.length) (hne : j ≠ k) (h1 : table[j].sym = x) (h2 : table[k].sym = x) :
    lookupCode table x = .error .dupSymbol := by
  have := filter_two (fun e : CodeEntry => e.sym == x) table hj hk hne (by simpa using h1) (by simpa using h2)
  rw [lookupCode]
  split
  · rename_i h0; rw [h0] at this; simp at this
  · rename_i h0; rw [h0] at this; simp at this
  · rfl

/-! ## Encoding (R202) -/

theorem encodeBits_cons_ok {table : List CodeEntry} {x : Byte} {xs : List Byte} {c bits : List Bool}
    (h1 : lookupCode table x = .ok c) (h2 : encodeBits table xs = .ok bits) :
    encodeBits table (x :: xs) = .ok (c ++ bits) := by simp [encodeBits, h1, h2]

theorem encodeBits_cons_inv {table : List CodeEntry} {x : Byte} {xs : List Byte} {bits : List Bool}
    (h : encodeBits table (x :: xs) = .ok bits) :
    ∃ c rest, lookupCode table x = .ok c ∧ encodeBits table xs = .ok rest ∧ bits = c ++ rest := by
  simp only [encodeBits] at h
  split at h
  · cases h
  · rename_i c hc
    split at h
    · cases h
    · rename_i rest hr
      cases h
      exact ⟨c, rest, hc, hr, rfl⟩

/-- When every byte has a code, the bits are the codes in input order. -/
theorem encodeBits_eq_flatMap {table : List CodeEntry} {code : Byte → List Bool} {raw : List Byte}
    (h : ∀ x ∈ raw, lookupCode table x = .ok (code x)) : encodeBits table raw = .ok (raw.flatMap code) := by
  induction raw with
  | nil => rfl
  | cons x raw ih =>
    rw [List.flatMap_cons]
    exact encodeBits_cons_ok (h x (List.mem_cons_self ..)) (ih fun y hy => h y (List.mem_cons_of_mem _ hy))

/-- The first byte with a fault gives the fault (R205 step 6). -/
theorem encodeBits_error {table : List CodeEntry} {code : Byte → List Bool} {before after : List Byte} {x : Byte}
    {c : Cause} (hb : ∀ y ∈ before, lookupCode table y = .ok (code y)) (hx : lookupCode table x = .error c) :
    encodeBits table (before ++ x :: after) = .error c := by
  induction before with
  | nil => simp [encodeBits, hx]
  | cons y before ih =>
    rw [List.cons_append, encodeBits, hb y (List.mem_cons_self ..)]
    simp only
    rw [ih fun z hz => hb z (List.mem_cons_of_mem _ hz)]

theorem encodeBits_length_le {table : List CodeEntry} {m : Nat} (hm : ∀ e ∈ table, e.code.length ≤ m)
    {raw : List Byte} {bits : List Bool} (h : encodeBits table raw = .ok bits) : bits.length ≤ m * raw.length := by
  induction raw generalizing bits with
  | nil => cases h; simp
  | cons x raw ih =>
    obtain ⟨c, rest, h1, h2, rfl⟩ := encodeBits_cons_inv h
    obtain ⟨e, he, -, rfl, -⟩ := lookupCode_ok h1
    have := hm e he
    have := ih h2
    rw [List.length_append, List.length_cons, Nat.mul_succ]
    omega

/-! ## Decoding (R223, R224) -/

theorem mem_matchSet {table : List CodeEntry} {rest : List Bool} {e : CodeEntry} :
    e ∈ matchSet table rest ↔ e ∈ table ∧ e.code <+: rest := by
  simp [matchSet]

theorem decodeLoop_skip (table : List CodeEntry) (bits : List Bool) (skip room : Nat) :
    decodeLoop table bits skip room = decodeLoop table (bits.drop skip) 0 room := by
  induction bits generalizing skip with
  | nil => cases skip <;> simp [decodeLoop]
  | cons b bits ih =>
    cases skip with
    | zero => rfl
    | succ skip => rw [decodeLoop, ih, List.drop_succ_cons]

@[simp] theorem decodeBits_nil (table : List CodeEntry) (room : Nat) : decodeBits table [] room = .ok [] := rfl

/-- No match at a position (R227). -/
theorem decodeBits_noMatch {table : List CodeEntry} {rest : List Bool} (hne : rest ≠ [])
    (h : matchSet table rest = []) (room : Nat) : decodeBits table rest room = .error .noMatch := by
  obtain ⟨b, bits, rfl⟩ := List.exists_cons_of_ne_nil hne
  simp [decodeBits, decodeLoop, h]

/-- Two or more matches at a position (R227). -/
theorem decodeBits_ambiguous {table : List CodeEntry} {rest : List Bool} (hne : rest ≠ [])
    (h : 2 ≤ (matchSet table rest).length) (room : Nat) : decodeBits table rest room = .error .ambiguous := by
  obtain ⟨b, bits, rfl⟩ := List.exists_cons_of_ne_nil hne
  match hm : matchSet table (b :: bits), h with
  | _ :: _ :: _, _ => simp [decodeBits, decodeLoop, hm]

/-- A unique match with DBUF full (R227). -/
theorem decodeBits_overflow {table : List CodeEntry} {rest : List Bool} {e : CodeEntry} (hne : rest ≠ [])
    (h : matchSet table rest = [e]) : decodeBits table rest 0 = .error .dbOverflow := by
  obtain ⟨b, bits, rfl⟩ := List.exists_cons_of_ne_nil hne
  simp [decodeBits, decodeLoop, h]

/-- A unique match emits its symbol and takes its code off the front (R224). -/
theorem decodeBits_match {table : List CodeEntry} {rest : List Bool} {e : CodeEntry} (hne : rest ≠ [])
    (hc : e.code ≠ []) (h : matchSet table rest = [e]) (room : Nat) :
    decodeBits table rest (room + 1) = (decodeBits table (rest.drop e.code.length) room).map (e.sym :: ·) := by
  obtain ⟨b, bits, rfl⟩ := List.exists_cons_of_ne_nil hne
  have hlen : e.code.length = e.code.length - 1 + 1 := by
    have := List.length_pos_iff.2 hc
    omega
  have hd : (b :: bits).drop e.code.length = bits.drop (e.code.length - 1) := by
    conv_lhs => rw [hlen]
    rfl
  rw [hd]
  simp only [decodeBits, decodeLoop, h, decodeLoop_skip table bits (e.code.length - 1) room]

/-- The entries of a bit sequence that is a concatenation of codes, each the unique match where it stands. -/
def UniqueParse (table : List CodeEntry) (es : List CodeEntry) (tail : List Bool) : Prop :=
  ∀ before e after, es = before ++ e :: after →
    e.code ≠ [] ∧ matchSet table (e.code ++ after.flatMap (·.code) ++ tail) = [e]

theorem UniqueParse.tail {table : List CodeEntry} {e : CodeEntry} {es : List CodeEntry} {tail : List Bool}
    (h : UniqueParse table (e :: es) tail) : UniqueParse table es tail :=
  fun before f after hf => h (e :: before) f after (by rw [hf, List.cons_append])

/-- Decoding takes a uniquely parsed front off, symbol by symbol, and goes on with what is left. -/
theorem decodeBits_parse {table : List CodeEntry} {es : List CodeEntry} {tail : List Bool}
    (h : UniqueParse table es tail) (room : Nat) :
    decodeBits table (es.flatMap (·.code) ++ tail) (es.length + room) =
      (decodeBits table tail room).map (es.map (·.sym) ++ ·) := by
  induction es with
  | nil =>
    simp only [List.flatMap_nil, List.nil_append, List.length_nil, Nat.zero_add, List.map_nil]
    cases decodeBits table tail room <;> rfl
  | cons e es ih =>
    obtain ⟨hc, hm⟩ := h [] e es rfl
    have hne : e.code ++ es.flatMap (·.code) ++ tail ≠ [] := by simp [hc]
    have key := decodeBits_match hne hc hm (es.length + room)
    rw [List.flatMap_cons, List.length_cons, show es.length + 1 + room = es.length + room + 1 by omega, key,
      List.append_assoc, List.drop_left, ih h.tail]
    cases decodeBits table tail room <;> rfl

/-! ## The round trip on bits (R231) -/

/-- In a table whose codes are prefix-free, an entry whose code stands at the front is the only match. -/
theorem matchSet_of_prefixFree {table : List CodeEntry}
    (hpf : table.Pairwise fun e f => ¬ e.code <+: f.code ∧ ¬ f.code <+: e.code) {e : CodeEntry} (he : e ∈ table)
    (tail : List Bool) : matchSet table (e.code ++ tail) = [e] := by
  obtain ⟨k, hk, rfl⟩ := List.mem_iff_getElem.1 he
  refine filter_eq_singleton _ table hk (by simp) fun j hj h => ?_
  by_contra hne
  have hp : table[j].code <+: table[k].code ++ tail := by simpa using h
  have hq : table[k].code <+: table[k].code ++ tail := List.prefix_append _ _
  have hjk : ¬ table[j].code <+: table[k].code ∧ ¬ table[k].code <+: table[j].code := by
    rcases Nat.lt_or_gt_of_ne hne with h | h
    · exact List.pairwise_iff_getElem.1 hpf j k hj hk h
    · exact (List.pairwise_iff_getElem.1 hpf k j hk hj h).symm
  rcases List.prefix_or_prefix_of_prefix hp hq with h | h
  · exact hjk.1 h
  · exact hjk.2 h

/-- Decoding what a prefix-free table encoded gives the input back (R231, R158). -/
theorem decodeBits_encodeBits {table : List CodeEntry}
    (hpf : table.Pairwise fun e f => ¬ e.code <+: f.code ∧ ¬ f.code <+: e.code)
    (hne : ∀ e ∈ table, e.code ≠ []) {raw : List Byte} {bits : List Bool} (h : encodeBits table raw = .ok bits)
    {room : Nat} (hroom : raw.length ≤ room) : decodeBits table bits room = .ok raw := by
  induction raw generalizing bits room with
  | nil => cases h; rfl
  | cons x raw ih =>
    obtain ⟨c, rest, h1, h2, rfl⟩ := encodeBits_cons_inv h
    obtain ⟨e, he, rfl, rfl, -⟩ := lookupCode_ok h1
    obtain ⟨room, rfl⟩ : ∃ r, room = r + 1 := ⟨room - 1, by simp only [List.length_cons] at hroom; omega⟩
    rw [decodeBits_match (by simp [hne e he]) (hne e he) (matchSet_of_prefixFree hpf he rest), List.drop_left,
      ih h2 (by simpa using hroom)]
    rfl

/-! ## The checks of the table, and the two commands (R202, R205, R221, R224) -/

@[simp] theorem State.length_codeTable (s : State) (n : Nat) : (s.codeTable n).length = n := by simp [State.codeTable]

@[simp] theorem State.getElem_codeTable (s : State) (n k : Nat) (h : k < (s.codeTable n).length) :
    (s.codeTable n)[k] = s.codeEntry k := by simp [State.codeTable]

@[simp] theorem State.codeEntry_length (s : State) (k : Nat) : (s.codeEntry k).code.length = s.codeLen k := by
  simp [State.codeEntry]

theorem State.codeLen_lt (s : State) (k : Nat) : s.codeLen k < 256 := (s.readByte .ctab (ctabEntry k + 1)).isLt

theorem State.hasZeroLen_iff (s : State) (n : Nat) : s.hasZeroLen n = true ↔ ∃ k < n, s.codeLen k = 0 := by
  simp [State.hasZeroLen]

/-- The four outcomes of the table's checks, in their order. -/
theorem State.tableCheck_eq (s : State) :
    (s.ctCount.toNat = 0 ∧ s.tableCheck = .error .emptyTable) ∨
    (256 < s.ctCount.toNat ∧ s.tableCheck = .error .ctCountRange) ∨
    ((1 ≤ s.ctCount.toNat ∧ s.ctCount.toNat ≤ 256) ∧ (∃ k < s.ctCount.toNat, s.codeLen k = 0) ∧
      s.tableCheck = .error .badCodeLen) ∨
    ((1 ≤ s.ctCount.toNat ∧ s.ctCount.toNat ≤ 256) ∧ (∀ k < s.ctCount.toNat, s.codeLen k ≠ 0) ∧
      s.tableCheck = .ok (s.codeTable s.ctCount.toNat)) := by
  by_cases h0 : s.ctCount.toNat = 0
  · exact .inl ⟨h0, by simp [State.tableCheck, h0]⟩
  by_cases h1 : 256 < s.ctCount.toNat
  · exact .inr (.inl ⟨h1, by simp [State.tableCheck, h0, h1]⟩)
  by_cases h2 : s.hasZeroLen s.ctCount.toNat = true
  · exact .inr (.inr (.inl ⟨by omega, (State.hasZeroLen_iff ..).1 h2, by simp [State.tableCheck, h0, h1, h2]⟩))
  · refine .inr (.inr (.inr ⟨by omega, fun k hk hz => h2 ((State.hasZeroLen_iff ..).2 ⟨k, hk, hz⟩), ?_⟩))
    simp [State.tableCheck, h0, h1, h2]

theorem State.tableCheck_ok {s : State} (h1 : 1 ≤ s.ctCount.toNat) (h2 : s.ctCount.toNat ≤ 256)
    (h3 : ∀ k < s.ctCount.toNat, s.codeLen k ≠ 0) : s.tableCheck = .ok (s.codeTable s.ctCount.toNat) := by
  rcases s.tableCheck_eq with h | h | ⟨_, ⟨k, hk, h⟩, _⟩ | h
  · omega
  · omega
  · exact absurd h (h3 k hk)
  · exact h.2.2

/-- ENCODE's result, when its checks pass (R202, R204). -/
theorem encodeRun_ok {s : State} {table : List CodeEntry} {bits : List Bool} (h1 : s.rawLen.toNat ≠ 0)
    (h2 : s.rawLen.toNat ≤ s.params.inCap) (h3 : s.tableCheck = .ok table)
    (h4 : encodeBits table (s.rawInput s.rawLen.toNat) = .ok bits) (h5 : 1 + bytesFor bits.length ≤ s.params.pbCap) :
    encodeRun s = .ok { s.writeBytes Region.pbuf.start (packedBuffer bits) with
      pbLen := BitVec.ofNat 32 (1 + bytesFor bits.length), totalBits := BitVec.ofNat 32 bits.length } := by
  simp [encodeRun, h1, Nat.not_lt.2 h2, h3, h4, Nat.not_lt.2 h5]

/-- What a successful ENCODE has found and done. -/
theorem encodeRun_inv {s t : State} (h : encodeRun s = .ok t) :
    ∃ table bits, s.rawLen.toNat ≠ 0 ∧ s.rawLen.toNat ≤ s.params.inCap ∧ s.tableCheck = .ok table ∧
      encodeBits table (s.rawInput s.rawLen.toNat) = .ok bits ∧ 1 + bytesFor bits.length ≤ s.params.pbCap ∧
      t = { s.writeBytes Region.pbuf.start (packedBuffer bits) with
            pbLen := BitVec.ofNat 32 (1 + bytesFor bits.length), totalBits := BitVec.ofNat 32 bits.length } := by
  simp only [encodeRun] at h
  split_ifs at h with h1 h2
  split at h
  · cases h
  · rename_i table ht
    split at h
    · cases h
    · rename_i bits hb
      split_ifs at h with h3
      cases h
      exact ⟨table, bits, h1, by omega, ht, hb, by omega, rfl⟩

/-- DECODE's result, when its checks pass (R224, R228). -/
theorem decodeRun_ok {s : State} {table : List CodeEntry} {out : List Byte} (h1 : s.tableCheck = .ok table)
    (h2 : s.pbLen.toNat ≠ 0) (h3 : s.pbLen.toNat ≤ s.params.pbCap) (h4 : s.header ≤ 7)
    (h5 : s.header ≤ 8 * (s.pbLen.toNat - 1))
    (h6 : decodeBits table (unpack (s.payload s.pbLen.toNat) s.header) s.params.inCap = .ok out) :
    decodeRun s = .ok { s.writeBytes Region.dbuf.start out with
      decLen := BitVec.ofNat 32 out.length,
      totalBits := BitVec.ofNat 32 (unpack (s.payload s.pbLen.toNat) s.header).length } := by
  simp only [decodeRun, h1, h2, if_false, Nat.not_lt.2 h3, Nat.not_lt.2 h4, Nat.not_lt.2 h5, h6]

/-- What a successful DECODE has found and done. -/
theorem decodeRun_inv {s t : State} (h : decodeRun s = .ok t) :
    ∃ table out, s.tableCheck = .ok table ∧ s.pbLen.toNat ≠ 0 ∧ s.pbLen.toNat ≤ s.params.pbCap ∧ s.header ≤ 7 ∧
      s.header ≤ 8 * (s.pbLen.toNat - 1) ∧
      decodeBits table (unpack (s.payload s.pbLen.toNat) s.header) s.params.inCap = .ok out ∧
      t = { s.writeBytes Region.dbuf.start out with
            decLen := BitVec.ofNat 32 out.length,
            totalBits := BitVec.ofNat 32 (unpack (s.payload s.pbLen.toNat) s.header).length } := by
  simp only [decodeRun] at h
  split at h
  · cases h
  · rename_i table ht
    split_ifs at h with h1 h2 h3 h4
    split at h
    · cases h
    · rename_i out ho
      cases h
      exact ⟨table, out, ht, h1, by omega, by omega, by omega, ho, rfl⟩

/-- DECODE never emits more than there is room for (R227, R228). -/
theorem decodeLoop_length_le {table : List CodeEntry} {bits : List Bool} {skip room : Nat} {out : List Byte}
    (h : decodeLoop table bits skip room = .ok out) : out.length ≤ room := by
  induction bits generalizing skip room out with
  | nil => cases skip <;> (cases h; simp)
  | cons b bits ih =>
    cases skip with
    | succ skip => exact ih h
    | zero =>
      simp only [decodeLoop] at h
      split at h
      · cases h
      · cases h
      · rename_i e _
        split at h
        · cases h
        · rename_i room'
          cases ho : decodeLoop table bits (e.code.length - 1) room' with
          | error c => rw [ho] at h; cases h
          | ok out' =>
            rw [ho] at h
            cases h
            have := ih ho
            simpa using this

theorem decodeBits_length_le {table : List CodeEntry} {bits : List Bool} {room : Nat} {out : List Byte}
    (h : decodeBits table bits room = .ok out) : out.length ≤ room := decodeLoop_length_le h

end Sys2Proof.Machine
end

