-- ==== Sys2Proof/Laws/Step.lean ====
section
/-!
SUPPORT. What each instruction and each step does, said once: the equations of `exec`, what a command's run changes
when it succeeds, what a host transaction can do, and the six kinds of step.
-/

namespace Sys2Proof.Machine

/-! ## The meanings -/

@[simp] theorem exec_analyze (s : State) : exec .analyze s = .next (s.complete .frequency (analyzeRun s)) := rfl
@[simp] theorem exec_build (s : State) : exec .build s = .next (s.complete .codeTable (buildRun s)) := rfl
@[simp] theorem exec_encode (s : State) : exec .encode s = .next (s.complete .packed (encodeRun s)) := rfl
@[simp] theorem exec_decode (s : State) : exec .decode s = .next (s.complete .decoded (decodeRun s)) := rfl
@[simp] theorem exec_clear (s : State) : exec .clear s = .next (s.writeCmd clearWord) := rfl
@[simp] theorem exec_rd8 (s : State) (o : Word) : exec (.rd8 o) s = .next (s.hostRead 1 o) := rfl
@[simp] theorem exec_rd32 (s : State) (o : Word) : exec (.rd32 o) s = .next (s.hostRead 4 o) := rfl
@[simp] theorem exec_wr8 (s : State) (o : Word) (b : Byte) :
    exec (.wr8 o b) s = .next (s.hostWrite 1 o (b.setWidth 32)) := rfl
@[simp] theorem exec_wr32 (s : State) (o v : Word) : exec (.wr32 o v) s = .next (s.hostWrite 4 o v) := rfl

/-! ## A command's run that succeeds -/

/-- What a run without fault does to its state: it writes bytes inside its destination's region and the destination's
registers, nothing else (R252, R253). -/
structure State.RanOk (d : Dest) (s t : State) : Prop where
  kept : State.KeptOutside d s t
  busy : t.busy = s.busy
  done : t.done = s.done
  err : t.err = s.err
  cause : t.cause = s.cause
  pending : t.pending = s.pending
  gens : t.gens = s.gens
  draws : t.draws = s.draws
  mem : ∃ r bs, d.region = some r ∧ bs.length ≤ r.size s.params ∧ t.mem = s.mem.setBytes r.start bs

/-- Bytes written from the start of a region, at most its size, touch no byte outside it. -/
theorem State.byteAt?_writeRegion (s : State) (r : Region) (bs : List Byte) (hn : bs.length ≤ r.size s.params)
    {a : Nat} (ha : r.covers s.params a = false) : (s.writeBytes r.start bs).byteAt? a = s.byteAt? a := by
  refine State.byteAt?_writeBytes_out s _ _ fun h => ?_
  have : r.covers s.params a = true := (Region.covers_iff ..).2 (by omega)
  rw [ha] at this
  cases this

theorem length_freqBytes_le (raw : List Byte) : ((frequencyList raw).flatMap FreqEntry.bytes).length ≤ 2048 := by
  rw [length_flatMap_block _ 8 _ fun e _ => e.length_bytes]
  have := length_frequencyList_le raw
  omega

theorem analyzeRun_ranOk {s t : State} (h : analyzeRun s = .ok t) : State.RanOk .frequency s t := by
  rcases analyzeRun_eq s with h' | h' | ⟨h1, h2, h'⟩
  · rw [h'.2] at h; cases h
  · rw [h'.2.2] at h; cases h
  · rw [h'] at h; cases h
    refine ⟨⟨rfl, rfl, rfl, rfl, rfl, rfl, fun r _ _ hr => ?_, fun a ha => ?_⟩, rfl, rfl, rfl, rfl, rfl, rfl, rfl,
      .ftab, _, rfl, length_freqBytes_le _, rfl⟩
    · cases r <;> first | rfl | exact absurd (by decide) hr
    · exact State.byteAt?_writeRegion s .ftab _ (length_freqBytes_le _) (ha _ rfl)

theorem length_codeBytes {s : State} {n : Nat} (hn : n ≤ 256) :
    ((buildTable s.params.singleCodeBit (s.freqTable n)).flatMap CodeEntry.bytes).length = 64 * n := by
  rw [length_flatMap_block _ 64 _ fun e he => CodeEntry.length_bytes
    (le_trans (buildTable_length_le (by simpa using hn) he).2 (by omega))]
  simp

theorem buildRun_ranOk {s t : State} (h : buildRun s = .ok t) : State.RanOk .codeTable s t := by
  rcases buildRun_eq s with h' | ⟨h1, h'⟩
  · rw [h'.2] at h; cases h
  · rw [h'] at h; cases h
    have hn : s.ftCount.val ≤ 256 := by omega
    have hl := length_codeBytes (s := s) hn
    have hl' : ((buildTable s.params.singleCodeBit (s.freqTable s.ftCount.val)).flatMap CodeEntry.bytes).length
        ≤ Region.ctab.size s.params := by rw [hl]; simp only [Region.size]; omega
    refine ⟨⟨rfl, rfl, rfl, rfl, rfl, rfl, fun r _ _ hr => ?_, fun a ha => ?_⟩, rfl, rfl, rfl, rfl, rfl, rfl, rfl,
      .ctab, _, rfl, hl', rfl⟩
    · cases r <;> first | rfl | exact absurd (by decide) hr
    · exact State.byteAt?_writeRegion s .ctab _ hl' (ha _ rfl)

theorem encodeRun_ranOk {s t : State} (h : encodeRun s = .ok t) : State.RanOk .packed s t := by
  obtain ⟨table, bits, -, -, -, -, hb, rfl⟩ := encodeRun_inv h
  have hl : (packedBuffer bits).length ≤ Region.pbuf.size s.params := by
    simp only [packedBuffer, List.length_cons, length_pack, Region.size]; omega
  refine ⟨⟨rfl, rfl, rfl, rfl, rfl, rfl, fun r _ _ hr => ?_, fun a ha => ?_⟩, rfl, rfl, rfl, rfl, rfl, rfl, rfl,
    .pbuf, _, rfl, hl, rfl⟩
  · cases r <;> first | rfl | exact absurd (by decide) hr
  · exact State.byteAt?_writeRegion s .pbuf _ hl (ha _ rfl)

theorem decodeRun_ranOk {s t : State} (h : decodeRun s = .ok t) : State.RanOk .decoded s t := by
  obtain ⟨table, out, -, -, -, -, -, ho, rfl⟩ := decodeRun_inv h
  have hl : out.length ≤ Region.dbuf.size s.params := decodeBits_length_le ho
  refine ⟨⟨rfl, rfl, rfl, rfl, rfl, rfl, fun r _ _ hr => ?_, fun a ha => ?_⟩, rfl, rfl, rfl, rfl, rfl, rfl, rfl,
    .dbuf, _, rfl, hl, rfl⟩
  · cases r <;> first | rfl | exact absurd (by decide) hr
  · exact State.byteAt?_writeRegion s .dbuf _ hl (ha _ rfl)

/-! ## Completion: the result, or fault entry -/

/-- Every byte of a scrambled region reads as its free value in the region's next generation. -/
theorem State.byteAt?_scramble_in (s : State) {r : Region} (hr : r ≠ .registers) {a : Nat}
    (h : regionOf s.params a = some r) :
    (s.scramble r).byteAt? a = some (Config.unspecByte (s.gens.of r + 1) a) := by
  have hb := s.readByte_scramble_in hr (covers_of_regionOf h)
  have hp : (s.scramble r).params = s.params := rfl
  unfold State.byteAt?
  rw [hp, h]
  cases r <;> first | exact absurd rfl hr | exact congrArg some hb

/-- Fault entry and the end of the completion, in the words of the statements (R252, R290). -/
theorem State.faultTaken_complete (s : State) (d : Dest) (c : Cause) :
    State.FaultTaken d c s (s.complete d (.error c)) := by
  refine ⟨rfl, rfl, rfl, rfl, rfl, ?_, State.keptOutside_complete s d _ fun t h => by cases h⟩
  cases d
  · exact ⟨rfl, fun a h => s.byteAt?_scramble_in (by decide) h⟩
  · exact ⟨rfl, fun a h => s.byteAt?_scramble_in (by decide) h⟩
  · exact ⟨rfl, rfl, fun a h => s.byteAt?_scramble_in (by decide) h⟩
  · exact ⟨rfl, rfl, fun a h => s.byteAt?_scramble_in (by decide) h⟩
  · trivial

/-- A completion whose run succeeded, in the words of the statements (R252). -/
theorem State.RanOk.completed {d : Dest} {s t : State} (h : State.RanOk d s t) : State.Completed d s t.finish :=
  ⟨h.cause, h.err, rfl, rfl, rfl, h.kept.trans (State.keptOutside_finish t d)⟩

/-! ## Host transactions -/

/-- What a read can do: answer, and use up draw numbers, only while BUSY (R69, R256, R258). -/
theorem State.hostRead_cases (s : State) (size : Nat) (o : Word) :
    ∃ v d, s.hostRead size o = { s with responses := v :: s.responses, draws := d } ∧
      (s.busy = false → d = s.draws) := by
  have hd : s.busy = false → s.busyDest = .nothing := fun hb => by simp [State.busyDest, hb]
  unfold State.hostRead
  split
  · exact ⟨_, s.draws, rfl, fun _ => rfl⟩
  · unfold State.readRegister
    split
    · rename_i h
      refine ⟨_, _, rfl, fun hb => ?_⟩
      simp [hd hb, Dest.regs] at h
    · exact ⟨_, s.draws, rfl, fun _ => rfl⟩
  · unfold State.readWindow
    split
    · rename_i h
      refine ⟨_, _, rfl, fun hb => ?_⟩
      simp [hd hb, Dest.region] at h
    · exact ⟨_, s.draws, rfl, fun _ => rfl⟩

/-- What a write can do: nothing but a bus error; a register's own rule; or bytes in a writable window (R255, R257,
R259). -/
theorem State.hostWrite_cases (s : State) (size : Nat) (o v : Word) :
    ((∃ e, busCheck s.params .write size o.toNat = .error e) ∧ s.hostWrite size o v = s.respond .busErr) ∨
    (∃ r, busCheck s.params .write size o.toNat = .ok (.register r) ∧ r.offset = o.toNat ∧ size = 4 ∧
      r.writable = true ∧ s.hostWrite size o v = (s.writeRegister r v).respond .ok) ∨
    (∃ r, busCheck s.params .write size o.toNat = .ok (.window r) ∧ r.writable = true ∧ r ≠ .registers ∧
      (∀ i < size, regionOf s.params (o.toNat + i) = some r) ∧
      s.hostWrite size o v = (s.writeWindow size o.toNat v).respond .ok) := by
  cases h : busCheck s.params .write size o.toNat with
  | error e => exact .inl ⟨⟨e, rfl⟩, by simp [State.hostWrite, h]⟩
  | ok t =>
    rcases busCheck_ok h with ⟨r, rfl, h1, h2, h3⟩ | ⟨r, rfl, h1, -, h2, -, h3⟩
    · exact .inr (.inl ⟨r, rfl, h1, h2, h3 rfl, by simp [State.hostWrite, h]⟩)
    · exact .inr (.inr ⟨r, rfl, h3 rfl, h1, h2, by simp [State.hostWrite, h]⟩)

/-! ## Steps -/

/-- The six kinds of step (R72, R252, R255, R320). -/
theorem step_cases (s : State) :
    (nextTurn s = .idle ∧ step s = .next s.popMove) ∨
    (∃ r, nextTurn s = .ignored r ∧ s.rst = true ∧ step s = .next (s.popMove.respond .platform)) ∨
    (nextTurn s = .assertReset ∧ step s = .next s.popMove.hardReset) ∨
    (nextTurn s = .releaseReset ∧ step s = .next s.popMove.releaseReset) ∨
    (∃ r, nextTurn s = .transaction r ∧ s.rst = false ∧ step s = exec (decodeRequest r) s.popMove) ∨
    (∃ w, nextTurn s = .completion w ∧ s.rst = false ∧ s.pending = some w ∧
      ((∃ i, decodeCmd w = .ok i ∧ step s = exec i s.popMove) ∨
        ((∃ e, decodeCmd w = .error e) ∧ step s = .next s.popMove.completeIllegal))) := by
  rcases nextTurn_cases s with ⟨r, ms, -, hr, h⟩ | ⟨r, ms, -, hr, h⟩ | ⟨ms, -, h⟩ | ⟨ms, -, h⟩ |
    ⟨-, ⟨hr, w, hw, h⟩ | ⟨-, h⟩⟩
  · exact .inr (.inr (.inr (.inr (.inl ⟨r, h, hr, by simp [step, h]⟩))))
  · exact .inr (.inl ⟨r, h, hr, by simp [step, h]⟩)
  · exact .inr (.inr (.inl ⟨h, by simp [step, h]⟩))
  · exact .inr (.inr (.inr (.inl ⟨h, by simp [step, h]⟩)))
  · refine .inr (.inr (.inr (.inr (.inr ⟨w, h, hr, hw, ?_⟩))))
    cases hd : decodeCmd w with
    | ok i => exact .inl ⟨i, rfl, by simp [step, h, hd]⟩
    | error e => exact .inr ⟨⟨e, rfl⟩, by simp [step, h, hd]⟩
  · exact .inl ⟨h, by simp [step, h]⟩

/-- What a completion step leaves (R252): the run's result or fault entry, for the destination of the pending word. -/
theorem step_completion {s : State} {w : Word} (h : nextTurn s = .completion w) (hw : w ≠ clearWord) :
    ∃ d r, d = Dest.ofCommand w ∧ step s = .next (s.popMove.complete d r) ∧
      ∀ t, r = .ok t → State.RanOk d s.popMove t := by
  rcases decodeCmd_cases w with ⟨-, hd⟩ | ⟨-, hd⟩ | ⟨-, hd⟩ | ⟨-, hd⟩ | ⟨hc, -⟩ | ⟨-, hd⟩
  · exact ⟨.frequency, _, by simp [Dest.ofCommand, hd, Dest.ofInstr], by simp [step, h, hd], fun t => analyzeRun_ranOk⟩
  · exact ⟨.codeTable, _, by simp [Dest.ofCommand, hd, Dest.ofInstr], by simp [step, h, hd], fun t => buildRun_ranOk⟩
  · exact ⟨.packed, _, by simp [Dest.ofCommand, hd, Dest.ofInstr], by simp [step, h, hd], fun t => encodeRun_ranOk⟩
  · exact ⟨.decoded, _, by simp [Dest.ofCommand, hd, Dest.ofInstr], by simp [step, h, hd], fun t => decodeRun_ranOk⟩
  · exact absurd hc hw
  · exact ⟨.nothing, .error .illegalCmd, by simp [Dest.ofCommand, hd], by simp [step, h, hd, State.completeIllegal],
      fun t ht => by cases ht⟩

end Sys2Proof.Machine
end

