-- ==== Sys2Proof/Laws/Invariant.lean ====
section
/-!
SUPPORT. Each shared operation keeps `State.Inv` (R50), under the condition its callers meet.
-/

namespace Sys2Proof.Machine

theorem State.Inv.respond {s : State} (h : s.Inv) (r : Response) : (s.respond r).Inv :=
  ⟨h.1, h.2, h.3, h.4, h.5, h.6, h.7, h.8, h.9, h.10⟩

theorem State.Inv.popMove {s : State} (h : s.Inv) : s.popMove.Inv :=
  ⟨h.1, h.2, h.3, h.4, h.5, h.6, h.7, h.8, h.9, h.10⟩

theorem State.Inv.dropWrite {s : State} (h : s.Inv) : s.dropWrite.Inv :=
  ⟨h.1, h.2, h.3, h.4, h.5, h.6, h.7, h.8, h.9, h.10⟩

/-- Bytes written inside one region keep the memory canonical and mapped. -/
theorem State.Inv.writeBytes {s : State} (h : s.Inv) {a : Nat} {bs : List Byte} {r : Region} (hr : r ≠ .registers)
    (hb : ∀ i < bs.length, regionOf s.params (a + i) = some r) : (s.writeBytes a bs).Inv := by
  refine ⟨h.1, h.2, h.3, h.4, h.5, h.6, h.7, Memory.wf_setBytes h.8 _ _, fun c hc => ?_, h.10⟩
  rcases Memory.mem_setBytes hc with ⟨h1, h2⟩ | hc
  · have := hb (c.1 - a) (by omega)
    rw [Nat.add_sub_cancel' h1] at this
    exact ⟨r, hr, this⟩
  · exact h.9 c hc

/-- A CMD write keeps the invariant while `rst` is not asserted (R250). -/
theorem State.Inv.writeCmd {s : State} (h : s.Inv) (hr : s.rst = false) (w : Word) : (s.writeCmd w).Inv := by
  rcases s.writeCmd_cases w with ⟨hb, he⟩ | ⟨hb, hw, he⟩ | ⟨hb, hw, herr, he⟩ | ⟨hb, hw, herr, he⟩ <;> rw [he]
  · exact h.dropWrite
  · exact ⟨h.1, rfl, by simp, by simp, by simp, by simp, by simp, h.8, h.9, fun _ => rfl⟩
  · exact ⟨h.1, h.2, by simp [hb], h.4, h.5, h.6, h.7, h.8, h.9, h.10⟩
  · exact ⟨h.1, rfl, by simp, h.4, h.5, by simp [herr], by simpa using hw, h.8, h.9, by simp [hr]⟩

theorem State.Inv.writeRegister {s : State} (h : s.Inv) (hr : s.rst = false) (r : Reg) (v : Word) :
    (s.writeRegister r v).Inv := by
  cases r
  case cmd => exact h.writeCmd hr v
  case ctrl => exact ⟨h.1, h.2, h.3, h.4, h.5, h.6, h.7, h.8, h.9, h.10⟩
  case status =>
    exact ⟨h.1, h.2, fun hb => by simp [State.writeRegister, State.writeStatus, h.3 hb], h.4, h.5, h.6, h.7, h.8,
      h.9, h.10⟩
  case rawLen =>
    simp only [State.writeRegister]
    split
    · exact h.dropWrite
    · exact ⟨h.1, h.2, h.3, h.4, h.5, h.6, h.7, h.8, h.9, h.10⟩
  case ctCount =>
    simp only [State.writeRegister]
    split
    · exact h.dropWrite
    · exact ⟨h.1, h.2, h.3, h.4, h.5, h.6, h.7, h.8, h.9, h.10⟩
  case pbLen =>
    simp only [State.writeRegister]
    split
    · exact h.dropWrite
    · exact ⟨h.1, h.2, h.3, h.4, h.5, h.6, h.7, h.8, h.9, h.10⟩
  all_goals exact h

theorem State.Inv.hostRead {s : State} (h : s.Inv) (size : Nat) (o : Word) : (s.hostRead size o).Inv := by
  obtain ⟨v, d, he, -⟩ := s.hostRead_cases size o
  rw [he]
  exact ⟨h.1, h.2, h.3, h.4, h.5, h.6, h.7, h.8, h.9, h.10⟩

theorem State.Inv.hostWrite {s : State} (h : s.Inv) (hr : s.rst = false) (size : Nat) (o v : Word) :
    (s.hostWrite size o v).Inv := by
  rcases s.hostWrite_cases size o v with ⟨-, he⟩ | ⟨r, -, -, -, -, he⟩ | ⟨r, -, -, hne, hb, he⟩ <;> rw [he]
  · exact h.respond _
  · exact (h.writeRegister hr r v).respond _
  · unfold State.writeWindow
    split
    · exact h.dropWrite.respond _
    · exact (h.writeBytes hne (by simpa using hb)).respond _

/-- A run without fault, then the end of the completion. -/
theorem State.Inv.finish_of_ranOk {s t : State} (h : s.Inv) {d : Dest} (hf : State.RanOk d s t) : t.finish.Inv := by
  obtain ⟨r, bs, hd, hl, hm⟩ := hf.mem
  refine ⟨by simp [hf.kept.params, h.1], rfl, by simp, by simpa [hf.err, hf.cause] using h.4,
    by simpa [hf.err, hf.cause] using h.5, by simp, by simp, ?_, fun c hc => ?_, by simp⟩
  · simp only [State.finish_mem, hm]
    exact Memory.wf_setBytes h.8 _ _
  · simp only [State.finish_mem, hm] at hc
    simp only [State.finish_params, hf.kept.params]
    rcases Memory.mem_setBytes hc with ⟨h1, h2⟩ | hc
    · have hr : r ≠ .registers := by rintro rfl; cases d <;> cases hd
      exact ⟨r, hr, (regionOf_eq_some_iff h.1).2 ((Region.covers_iff ..).2 ⟨h1, by omega⟩)⟩
    · exact h.9 c hc

/-- Fault entry with a cause of R281, then the end of the completion. -/
theorem State.Inv.finish_faultEntry {s : State} (h : s.Inv) {c : Cause} (hc : c ≠ .noFault) (d : Dest) :
    (s.faultEntry c d).finish.Inv := by
  have hk := State.keptOutside_faultEntry s c d
  refine ⟨by simp [hk.params, h.1], rfl, by simp, by simp, by simp [hc], by simp, by simp, ?_, fun e he => ?_, by simp⟩
  · cases d <;> first | exact h.8 | exact Memory.wf_erase h.8 _ _
  · simp only [State.finish_params, hk.params]
    refine h.9 e ?_
    cases d <;> first | exact he | exact Memory.mem_of_mem_erase he

end Sys2Proof.Machine
end

