-- ==== Sys2Proof/Laws/HostBus.lean ====
section
/-!
SUPPORT. The laws of host transactions: what reaches a register or a window, what is hidden while BUSY, the bytes of a
word, the four kinds of effect a request can have, and a run taken step by step.
-/

namespace Sys2Proof.Machine

/-! ## Registers -/

theorem Reg.toNat_offset (r : Reg) : (BitVec.ofNat 32 r.offset).toNat = r.offset := by cases r <;> rfl

/-- RD32 of a register always passes the check (R256, R261). -/
theorem exec_rd32_register (s : State) (r : Reg) :
    exec (.rd32 (BitVec.ofNat 32 r.offset)) s = .next (s.readRegister r) := by
  have h := busCheck_register s.params .read r (by simp)
  simp only [exec_rd32, State.hostRead, Reg.toNat_offset, h]

/-- WR32 of a writable register passes the check (R257, R261). -/
theorem exec_wr32_register (s : State) {r : Reg} (hw : r.writable = true) (v : Word) :
    exec (.wr32 (BitVec.ofNat 32 r.offset) v) s = .next ((s.writeRegister r v).respond .ok) := by
  have h := busCheck_register s.params .write r (fun _ => hw)
  simp only [exec_wr32, State.hostWrite, Reg.toNat_offset, h]

/-- WR32 of a read-only register is a bus error (R65, R261). -/
theorem exec_wr32_readOnly (s : State) {r : Reg} (hw : r.writable = false) (v : Word) :
    exec (.wr32 (BitVec.ofNat 32 r.offset) v) s = .next (s.respond .busErr) := by
  have hlt := r.offset_lt
  have h0 : regionOf s.params r.offset = some .registers := regionOf_registers (by omega)
  have hin : insideRegion s.params .registers 4 r.offset = true :=
    (insideRegion_iff ..).2 fun i hi => regionOf_registers (by omega)
  have h : busCheck s.params .write 4 r.offset = .error .readOnly := by
    simp [busCheck, h0, hin, Reg.offset_mod, hw]
  simp only [exec_wr32, State.hostWrite, Reg.toNat_offset, h]

/-! ## Windows -/

theorem State.hostRead_window {s : State} {r : Region} {size : Nat} {o : Word} (hn : 0 < size)
    (h : InWindow s.params r size o) : s.hostRead size o = s.readWindow r size o.toNat := by
  have := busCheck_window (acc := .read) h.1 hn h.2.1 h.2.2 (by simp)
  simp [State.hostRead, this]

theorem State.hostWrite_window {s : State} {r : Region} {size : Nat} {o v : Word} (hr : r.writable = true)
    (hn : 0 < size) (h : InWindow s.params r size o) :
    s.hostWrite size o v = (s.writeWindow size o.toNat v).respond .ok := by
  have := busCheck_window (acc := .write) h.1 hn h.2.1 h.2.2 fun _ => hr
  simp [State.hostWrite, this]

/-- A mapped byte outside the registers reads as the region's byte. -/
theorem State.byteAt?_eq {s : State} {a : Nat} {r : Region} (hr : r ≠ .registers)
    (h : regionOf s.params a = some r) : s.byteAt? a = some (s.readByte r a) := by
  unfold State.byteAt?
  rw [h]
  cases r <;> first | exact absurd rfl hr | rfl

/-- Byte j of the word four bytes make is byte j (R66). -/
theorem extractByte_wordOfBytes (bs : List Byte) {j : Nat} (hj : j < 4) (h4 : bs.length = 4) :
    (wordOfBytes bs).extractLsb' (8 * j) 8 = bs.getD j 0 := by
  rcases bs with _ | ⟨a, _ | ⟨b, _ | ⟨c, _ | ⟨d, _ | ⟨_, _⟩⟩⟩⟩⟩ <;> simp at h4
  have ha := a.isLt
  have hb := b.isLt
  have hc := c.isLt
  have hd := d.isLt
  apply BitVec.eq_of_toNat_eq
  rw [toNat_extractByte]
  simp only [wordOfBytes, bytesToNat]
  interval_cases j <;> simp <;> omega

/-! ## What is hidden while BUSY (R45, R253) -/

theorem Dest.ofCommand_cases (w : Word) :
    (w = analyzeWord ∧ Dest.ofCommand w = .frequency) ∨ (w = buildWord ∧ Dest.ofCommand w = .codeTable) ∨
    (w = encodeWord ∧ Dest.ofCommand w = .packed) ∨ (w = decodeWord ∧ Dest.ofCommand w = .decoded) ∨
    ((w ≠ analyzeWord ∧ w ≠ buildWord ∧ w ≠ encodeWord ∧ w ≠ decodeWord) ∧ Dest.ofCommand w = .nothing) := by
  rcases decodeCmd_cases w with
    ⟨rfl, hd⟩ | ⟨rfl, hd⟩ | ⟨rfl, hd⟩ | ⟨rfl, hd⟩ | ⟨rfl, hd⟩ | ⟨⟨h1, h2, h3, h4, h5⟩, hd⟩
  · exact .inl ⟨rfl, rfl⟩
  · exact .inr (.inl ⟨rfl, rfl⟩)
  · exact .inr (.inr (.inl ⟨rfl, rfl⟩))
  · exact .inr (.inr (.inr (.inl ⟨rfl, rfl⟩)))
  · exact .inr (.inr (.inr (.inr ⟨by decide, rfl⟩)))
  · exact .inr (.inr (.inr (.inr ⟨⟨h1, h2, h3, h4⟩, by simp [Dest.ofCommand, hd]⟩)))

theorem State.regHidden_iff (s : State) (r : Reg) : s.RegHidden r ↔ s.busyDest.regs.contains r = true := by
  unfold State.RegHidden State.busyDest
  cases hb : s.busy
  · simp [Dest.regs]
  · cases hp : s.pending with
    | none => simp [Dest.regs]
    | some w =>
      rcases Dest.ofCommand_cases w with ⟨rfl, h⟩ | ⟨rfl, h⟩ | ⟨rfl, h⟩ | ⟨rfl, h⟩ | ⟨⟨h1, h2, h3, h4⟩, h⟩ <;>
        simp only [h] <;> cases r <;> simp [Dest.regs, *] <;> decide

theorem State.regionHidden_iff (s : State) (r : Region) : s.RegionHidden r ↔ s.busyDest.region = some r := by
  unfold State.RegionHidden State.busyDest
  cases hb : s.busy
  · simp [Dest.region]
  · cases hp : s.pending with
    | none => simp [Dest.region]
    | some w =>
      rcases Dest.ofCommand_cases w with ⟨rfl, h⟩ | ⟨rfl, h⟩ | ⟨rfl, h⟩ | ⟨rfl, h⟩ | ⟨⟨h1, h2, h3, h4⟩, h⟩ <;>
        simp only [h] <;> cases r <;> simp [Dest.region, *] <;> decide

/-- A read that R45 does not cover draws nothing: its response is the only change (R69, R70). -/
theorem State.hostRead_of_not_hidden {s : State} {size : Nat} {o : Word} (h : ¬ s.ReadHidden size o) :
    s.hostRead size o = s.respond
      (match busCheck s.params .read size o.toNat with
      | .error _ => .busErr
      | .ok (.register r) => .data (s.regWord r)
      | .ok (.window r) => .data (wordOfBytes (s.readBytes r o.toNat size))) := by
  cases hc : busCheck s.params .read size o.toNat with
  | error e => simp only [State.hostRead, hc]
  | ok x =>
    cases x with
    | register r =>
      have hr : ¬ s.busyDest.regs.contains r = true := fun hr => h (.inl ⟨r, hc, (s.regHidden_iff r).2 hr⟩)
      simp only [State.hostRead, hc, State.readRegister, if_neg hr]
    | window r =>
      have hr : ¬ s.busyDest.region = some r := fun hr => h (.inr ⟨r, hc, (s.regionHidden_iff r).2 hr⟩)
      simp only [State.hostRead, hc, State.readWindow, if_neg hr]

/-- A write that passes the check while BUSY = 1 and writes neither CTRL nor STATUS is dropped (R257, R259, R260). -/
theorem State.hostWrite_dropped {s : State} {size : Nat} {o v : Word} {x : Target} (hb : s.busy = true)
    (hc : busCheck s.params .write size o.toNat = .ok x) (h4 : size = 4 → o ≠ 0x004#32)
    (h8 : size = 4 → o ≠ 0x008#32) : s.hostWrite size o v = s.dropWrite.respond .ok := by
  rcases s.hostWrite_cases size o v with ⟨⟨e, he⟩, -⟩ | ⟨r, -, ho, hs, hw, he⟩ | ⟨r, -, -, -, -, he⟩
  · rw [he] at hc; cases hc
  · have ho' : ∀ q : Reg, r = q → o = BitVec.ofNat 32 q.offset := fun q hq =>
      BitVec.eq_of_toNat_eq (by rw [Reg.toNat_offset, ← hq, ho])
    rw [he]
    cases r <;> simp [Reg.writable] at hw
    case ctrl => exact absurd (ho' _ rfl) (h4 hs)
    case status => exact absurd (ho' _ rfl) (h8 hs)
    all_goals simp [State.writeRegister, State.writeCmd, hb]
  · rw [he]; simp [State.writeWindow, hb]

/-! ## The four kinds of effect of a request -/

/-- Two states alike in STATUS, ERRCODE, PENDING, the schedule, `rst` and the
parameters. -/
structure State.SameControl (s t : State) : Prop where
  busy : t.busy = s.busy
  done : t.done = s.done
  err : t.err = s.err
  werr : t.werr = s.werr
  cause : t.cause = s.cause
  pending : t.pending = s.pending
  moves : t.moves = s.moves
  rst : t.rst = s.rst
  params : t.params = s.params

/-- A request keeps control state; or is a dropped write; or a STATUS write; or a CMD write while not BUSY. -/
theorem exec_request_cases {s t : State} {r : Request} (h : exec (decodeRequest r) s = .next t) :
    (State.SameControl s t ∧ (∀ v, decodeRequest r ≠ .wr32 0x008#32 v) ∧ ∀ v, decodeRequest r ≠ .wr32 0x010#32 v) ∨
    (s.busy = true ∧ t = s.dropWrite.respond .ok ∧ (∀ v, decodeRequest r ≠ .wr32 0x008#32 v) ∧
      ((∃ o v x, decodeRequest r = .wr8 o v ∧ busCheck s.params .write 1 o.toNat = .ok x) ∨
        ∃ o v x, decodeRequest r = .wr32 o v ∧ o ≠ 0x004#32 ∧ o ≠ 0x008#32 ∧
          busCheck s.params .write 4 o.toNat = .ok x)) ∨
    (∃ v, decodeRequest r = .wr32 0x008#32 v ∧ t = (s.writeStatus v).respond .ok) ∨
    (s.busy = false ∧ ∃ w, decodeRequest r = .wr32 0x010#32 w ∧ t = (s.writeCmd w).respond .ok) := by
  rcases decodeRequest_cases r with hd | hd | hd | hd <;> rw [hd] at h ⊢ <;> cases h
  · obtain ⟨v, d, he, -⟩ := s.hostRead_cases 1 r.offset
    rw [he]
    exact .inl ⟨⟨rfl, rfl, rfl, rfl, rfl, rfl, rfl, rfl, rfl⟩, by simp, by simp⟩
  · obtain ⟨v, d, he, -⟩ := s.hostRead_cases 4 r.offset
    rw [he]
    exact .inl ⟨⟨rfl, rfl, rfl, rfl, rfl, rfl, rfl, rfl, rfl⟩, by simp, by simp⟩
  · rcases s.hostWrite_cases 1 r.offset ((r.data.extractLsb' 0 8).setWidth 32) with
      ⟨-, he⟩ | ⟨q, -, -, h4, -, he⟩ | ⟨q, hc, -, -, -, he⟩ <;> rw [he]
    · exact .inl ⟨⟨rfl, rfl, rfl, rfl, rfl, rfl, rfl, rfl, rfl⟩, by simp, by simp⟩
    · cases h4
    · cases hb : s.busy <;> simp only [State.writeWindow, hb]
      · exact .inl ⟨⟨by simp [State.writeBytes, hb], rfl, rfl, rfl, rfl, rfl, rfl, rfl, rfl⟩, by simp, by simp⟩
      · exact .inr (.inl ⟨trivial, rfl, by simp, .inl ⟨_, _, _, rfl, hc⟩⟩)
  · rcases s.hostWrite_cases 4 r.offset r.data with ⟨⟨e, hc⟩, he⟩ | ⟨q, hc, ho, -, hw, he⟩ | ⟨q, hc, -, hne, hreg, he⟩ <;>
      rw [he]
    · refine .inl ⟨⟨rfl, rfl, rfl, rfl, rfl, rfl, rfl, rfl, rfl⟩, fun v hv => ?_, fun v hv => ?_⟩
      · injection hv with h1 h2
        have := busCheck_register s.params .write .status (fun _ => rfl)
        rw [h1, show (0x008#32).toNat = Reg.status.offset from rfl, this] at hc
        cases hc
      · injection hv with h1 h2
        have := busCheck_register s.params .write .cmd (fun _ => rfl)
        rw [h1, show (0x010#32).toNat = Reg.cmd.offset from rfl, this] at hc
        cases hc
    · have ho' : r.offset = BitVec.ofNat 32 q.offset := by
        apply BitVec.eq_of_toNat_eq
        rw [Reg.toNat_offset]
        exact ho.symm
      rw [ho'] at hc ⊢
      cases q <;> simp [Reg.writable] at hw
      case ctrl =>
        exact .inl ⟨⟨rfl, rfl, rfl, rfl, rfl, rfl, rfl, rfl, rfl⟩, by simp [Reg.offset], by simp [Reg.offset]⟩
      case status => exact .inr (.inr (.inl ⟨_, rfl, rfl⟩))
      case cmd =>
        cases hb : s.busy
        · exact .inr (.inr (.inr ⟨rfl, _, rfl, rfl⟩))
        · exact .inr (.inl ⟨rfl, by simp [State.writeRegister, State.writeCmd, hb], by simp [Reg.offset],
            .inr ⟨_, _, _, rfl, by decide, by decide, hc⟩⟩)
      all_goals
        cases hb : s.busy <;> simp only [State.writeRegister, hb]
        · exact .inl ⟨⟨by simp [hb], rfl, rfl, rfl, rfl, rfl, rfl, rfl, rfl⟩, by simp [Reg.offset],
            by simp [Reg.offset]⟩
        · exact .inr (.inl ⟨trivial, rfl, by simp [Reg.offset], .inr ⟨_, _, _, rfl, by decide, by decide, hc⟩⟩)
    · have hk : ∀ k < 0x34, r.offset ≠ BitVec.ofNat 32 k := by
        rintro k hk h1
        have h0 := hreg 0 (by decide)
        rw [h1, BitVec.toNat_ofNat, Nat.mod_eq_of_lt (by omega), Nat.add_zero, regionOf_registers hk] at h0
        exact hne (Option.some.inj h0).symm
      cases hb : s.busy <;> simp only [State.writeWindow, hb]
      · exact .inl ⟨⟨by simp [State.writeBytes, hb], rfl, rfl, rfl, rfl, rfl, rfl, rfl, rfl⟩,
          fun v hv => by injection hv with h1; exact hk 8 (by decide) h1,
          fun v hv => by injection hv with h1; exact hk 16 (by decide) h1⟩
      · exact .inr (.inl ⟨trivial, rfl, fun v hv => by injection hv with h1; exact hk 8 (by decide) h1,
          .inr ⟨_, _, _, rfl, hk 4 (by decide), hk 8 (by decide), hc⟩⟩)

/-! ## Runs -/

/-- Every instruction answers a next state. -/
theorem exec_next (i : Instr) (s : State) : ∃ t, exec i s = .next t := by cases i <;> exact ⟨_, rfl⟩

/-- A run of k + 1 steps is one step and a run of k. -/
theorem run_succ {s t : State} (k : Nat) (h : step s = .next t) : core.run (k + 1) s = core.run k t := by
  have h' : core.step s = .next t := h
  simp only [Host.Core.run, h']

end Sys2Proof.Machine
end

