-- ==== Sys2Proof/Laws/PerInstr.lean ====
section
/-!
SUPPORT. Statements made for all instructions, one lemma per constructor.
-/

namespace Sys2Proof.Laws.WellFormedEncoding

/-- The encoder gives a legal command word (R90, R92), or a bus request that sets no unused bit (R96). -/
def Statement (i : Instr) : Prop := (Sys2Proof.encode i).wellFormed = true

theorem analyze : Statement .analyze := rfl
theorem build : Statement .build := rfl
theorem encode : Statement .encode := rfl
theorem decode : Statement .decode := rfl
theorem clear : Statement .clear := rfl
theorem rd8 (offset : Word) : Statement (.rd8 offset) := rfl
theorem rd32 (offset : Word) : Statement (.rd32 offset) := rfl

theorem wr8 (offset : Word) (data : Byte) : Statement (.wr8 offset data) := by
  have h : (data.setWidth 32).extractLsb' 8 24 = 0#24 := by
    apply BitVec.eq_of_toNat_eq
    have := data.isLt
    simp [BitVec.extractLsb'_toNat]
    omega
  simp [Statement, Sys2Proof.encode, Encoding.wellFormed, Request.wellFormed, h]

theorem wr32 (offset data : Word) : Statement (.wr32 offset data) := rfl

end Sys2Proof.Laws.WellFormedEncoding
end

