-- ==== Sys2Proof/Machine/HostProgram.lean ====
section
/-!
DEFINITION. The notation of Host programs (R103 to R106): the lines, their expansion into bus requests (R104, R105),
and how a program is given to the machine. The loop of `wait` "is host control flow, not a block operation" (R105):
how many polls it makes depends on LATENCY, so the number is an operand here.
-/

namespace Sys2Proof.Machine

/-- One line of a Host program, or one pseudo-instruction (R104, R105). -/
inductive HostLine where
  | wr32 (offset v : Word)
  | wr8 (offset : Word) (v : Byte)
  | rd32 (offset : Word)
  | rd8 (offset : Word)
  | analyze
  | build
  | encode
  | decode
  | clear
  /-- `wait`, with the number of STATUS reads its loop makes. -/
  | wait (polls : Nat)
  | wrbytes (offset : Word) (bs : List Byte)
  /-- `wrstr`: the bytes of the ASCII text, no terminator. -/
  | wrstr (offset : Word) (text : String)
  | expectRd32 (offset v : Word)
  | expectRd8 (offset : Word) (v : Byte)
deriving DecidableEq, Repr

/-- The offset symbol of a register (R106). -/
def Reg.offsetWord (r : Reg) : Word := BitVec.ofNat 32 r.offset

/-- `wr8` at consecutive offsets (R105). -/
def byteWrites : Word → List Byte → List Instr
  | _, [] => []
  | a, b :: bs => .wr8 a b :: byteWrites (a + 1) bs

/-- The transactions a line expands to (R104, R105). -/
def HostLine.expand : HostLine → List Instr
  | .wr32 a v => [.wr32 a v]
  | .wr8 a v => [.wr8 a v]
  | .rd32 a => [.rd32 a]
  | .rd8 a => [.rd8 a]
  | .analyze => [.wr32 Reg.cmd.offsetWord analyzeWord]
  | .build => [.wr32 Reg.cmd.offsetWord buildWord]
  | .encode => [.wr32 Reg.cmd.offsetWord encodeWord]
  | .decode => [.wr32 Reg.cmd.offsetWord decodeWord]
  | .clear => [.wr32 Reg.cmd.offsetWord clearWord]
  | .wait polls => List.replicate polls (.rd32 Reg.status.offsetWord)
  | .wrbytes a bs => byteWrites a bs
  | .wrstr a text => byteWrites a (text.toList.map fun c => BitVec.ofNat 8 c.toNat)
  | .expectRd32 a _ => [.rd32 a]
  | .expectRd8 a _ => [.rd8 a]

/-- The response an `expect` line asserts (R105): "the program fails if the value is not v". -/
def HostLine.expected : HostLine → Option Response
  | .expectRd32 _ v => some (.data v)
  | .expectRd8 _ v => some (.data (v.setWidth 32))
  | .wr32 _ _ | .wr8 _ _ | .rd32 _ | .rd8 _ | .analyze | .build | .encode | .decode | .clear | .wait _
  | .wrbytes _ _ | .wrstr _ _ => none

/-- A transaction as the Host's move; the five commands are no transactions and give none. -/
def hostMove (i : Instr) : List Move :=
  match encode i with
  | .bus r => [.request r]
  | .command _ => []

/-- A program's transactions in order, with no Core step between them. Where the Core's steps fall among them is the
schedule, not the program (R72, S4). -/
def hostMoves (program : List HostLine) : List Move := (program.flatMap HostLine.expand).flatMap hostMove

/-- Display form of a code: the characters `0` and `1`, first bit leftmost (R103). -/
def showCode (c : List Bool) : String := String.ofList (c.map fun b => if b then '1' else '0')

end Sys2Proof.Machine
end

