-- ==== Sys2Proof/Tests/Slice0.lean ====
section
/-!
SUPPORT. Tests of the model against the spec's own vectors (95_test_vectors.md; the vector's name stands above each
test), the checks of WellFormed, and for every obligation with hypotheses a witness that meets them.
-/

namespace Sys2Proof.Tests

open Sys2Proof Sys2Proof.Machine

/-! ## States the tests start from -/

/-- The parameters of the test vectors. -/
def small : Params := ⟨64, 64, false, 0⟩

/-- A block after reset, with the test parameters. -/
def idle : State := { State.reset with params := small }

/-- RAWBUF and RAW_LEN loaded. -/
def loaded (raw : List Byte) : State :=
  { idle with rawLen := BitVec.ofNat 32 raw.length, mem := Memory.setBytes [] 0x10000000 raw }

/-- FTAB loaded with entries of one-byte counts, and FT_COUNT. -/
def counted (fl : List (Byte × Byte)) : State :=
  { idle with
    ftCount := Fin.ofNat 257 fl.length,
    mem := Memory.setBytes [] 0x1000 (fl.flatMap fun e => [e.1, 0, 0, 0, e.2, 0, 0, 0]) }

/-- The table a = `0`, b = `10`, c = `11` of vector B1, as bytes 0, 1 and 32 of each entry. -/
def tableAbc : Memory :=
  [(0x10000, 0x61), (0x10001, 1), (0x10020, 0), (0x10040, 0x62), (0x10041, 2), (0x10060, 1), (0x10080, 0x63),
   (0x10081, 2), (0x100A0, 3)]

/-- The table of B1 with "aabbc" in RAWBUF. -/
def toEncode : State :=
  { idle with
    rawLen := 5, ctCount := 3, mem := Memory.setBytes tableAbc 0x10000000 [0x61, 0x61, 0x62, 0x62, 0x63] }

/-- The table a = `0` with PBUF `pb`, and IN_CAP `cap`. -/
def oneCode (cap : Nat) (pb : List Byte) : State :=
  { idle with
    params := ⟨cap, 64, false, 0⟩, ctCount := 1, pbLen := BitVec.ofNat 32 pb.length,
    mem := Memory.setBytes [(0x10000, 0x61), (0x10001, 1), (0x10020, 0)] 0x30000000 pb }

/-- The table a = `0`, b = `01` of rule R229, which is not prefix-free, with PBUF = 06 02. -/
def twoCodes : State :=
  { idle with
    ctCount := 2, pbLen := 2,
    mem := Memory.setBytes
      [(0x10000, 0x61), (0x10001, 1), (0x10020, 0), (0x10040, 0x62), (0x10041, 2), (0x10060, 2)]
      0x30000000 [6, 2] }

/-- A pending command, with a byte of RAWBUF written. -/
def busyWith (w : Word) : State := { (loaded [0x61]).issue w with werr := false }

/-- The state an instruction leaves. -/
def after (i : Instr) (s : State) : State :=
  match exec i s with
  | .next t => t
  | .fault _ => s
  | .refused _ => s

/-! ## WellFormed: an ill-formed term for each check -/

theorem test_mbz_refused : CmdWord.wellFormed 0x00000101#32 = false := by decide
theorem test_opcode_refused : CmdWord.wellFormed 0x00000005#32 = false := by decide
theorem test_opcode_zero_refused : CmdWord.wellFormed 0x00000000#32 = false := by decide
theorem test_command_accepted : CmdWord.wellFormed 0x00000080#32 = true := by decide
theorem test_read_data_refused : Request.wellFormed ⟨0b00#2, 0x4#32, 1#32⟩ = false := by decide
theorem test_wr8_high_data_refused : Request.wellFormed ⟨0b10#2, 0x4#32, 0x100#32⟩ = false := by decide
theorem test_bus_encoding_refused : Encoding.wellFormed (.bus ⟨0b01#2, 0x4#32, 1#32⟩) = false := by decide
theorem test_command_encoding_refused : Encoding.wellFormed (.command 0x81#32) = false := by decide
theorem test_inCap_zero_refused : Params.wellFormed ⟨0, 2, false, 0⟩ = false := by decide
theorem test_inCap_large_refused : Params.wellFormed ⟨2 ^ 24 + 1, 2, false, 0⟩ = false := by decide
theorem test_pbCap_one_refused : Params.wellFormed ⟨1, 1, false, 0⟩ = false := by decide
theorem test_pbCap_large_refused : Params.wellFormed ⟨1, 2 ^ 28 + 1, false, 0⟩ = false := by decide
theorem test_params_limits_accepted : Params.wellFormed ⟨2 ^ 24, 2 ^ 28, true, 7⟩ = true := by decide

/-! ## Decoding: words written out from R90, R92 and R96 -/

/-- OPCODE bits 7:0 = 0000_0001, MBZ bits 31:8 = 0 (R90, R92). -/
theorem test_decode_analyze : decodeCmd (0b000000000000000000000000#24 ++ 0b00000001#8) = .ok .analyze := rfl
theorem test_decode_build : decodeCmd (0b000000000000000000000000#24 ++ 0b00000010#8) = .ok .build := rfl
theorem test_decode_encode : decodeCmd (0b000000000000000000000000#24 ++ 0b00000011#8) = .ok .encode := rfl
theorem test_decode_decode : decodeCmd (0b000000000000000000000000#24 ++ 0b00000100#8) = .ok .decode := rfl
theorem test_decode_clear : decodeCmd (0b000000000000000000000000#24 ++ 0b10000000#8) = .ok .clear := rfl
/-- R93: 0x00, 0x05, 0x7F, 0x81, 0xFF and any set bit of 31:8 are illegal. -/
theorem test_decode_illegal :
    decodeCmd 0x00#32 = .error (.illegalCommand 0x00#32) ∧ decodeCmd 0x05#32 = .error (.illegalCommand 0x05#32) ∧
    decodeCmd 0x7F#32 = .error (.illegalCommand 0x7F#32) ∧ decodeCmd 0x81#32 = .error (.illegalCommand 0x81#32) ∧
    decodeCmd 0xFF#32 = .error (.illegalCommand 0xFF#32) ∧ decodeCmd 0x101#32 = .error (.illegalCommand 0x101#32) ∧
    decodeCmd 0x80000001#32 = .error (.illegalCommand 0x80000001#32) := ⟨rfl, rfl, rfl, rfl, rfl, rfl, rfl⟩
/-- R96: KIND 0b00, 0b01, 0b10, 0b11; reads ignore DATA, WR8 takes DATA[7:0]. -/
theorem test_decode_rd8 : decodeRequest ⟨0b00#2, 0x30000000#32, 0xFF#32⟩ = .rd8 0x30000000#32 := by decide
theorem test_decode_rd32 : decodeRequest ⟨0b01#2, 0x8#32, 0xFF#32⟩ = .rd32 0x8#32 := by decide
theorem test_decode_wr8 : decodeRequest ⟨0b10#2, 0x10000004#32, 0x1263#32⟩ = .wr8 0x10000004#32 0x63#8 := by decide
theorem test_decode_wr32 : decodeRequest ⟨0b11#2, 0x14#32, 0x5#32⟩ = .wr32 0x14#32 0x5#32 := by decide
/-- The table gives a bus row its KIND only: OFFSET and DATA are then 0. -/
theorem test_table_rows :
    decodeTableWord 8 0 = some (.rd8 0) ∧ decodeTableWord 8 1 = some (.rd32 0) ∧
    decodeTableWord 8 2 = some (.wr8 0 0) ∧ decodeTableWord 8 3 = some (.wr32 0 0) ∧
    decodeTableWord 32 0x80 = some .clear ∧ decodeTableWord 32 0x81 = none := by decide

/-! ## A placed instruction is the one the very next step runs -/

theorem test_fetch_analyze :
    step (State.reset.withFetchWord 32 1) = exec .analyze (State.reset.issue 1#32) := rfl
theorem test_fetch_build : step (State.reset.withFetchWord 32 2) = exec .build (State.reset.issue 2#32) := rfl
theorem test_fetch_encode : step (State.reset.withFetchWord 32 3) = exec .encode (State.reset.issue 3#32) := rfl
theorem test_fetch_decode : step (State.reset.withFetchWord 32 4) = exec .decode (State.reset.issue 4#32) := rfl
theorem test_fetch_clear :
    step (State.reset.withFetchWord 32 0x80) = exec (.wr32 0x010#32 0x80#32) State.reset := rfl
theorem test_fetch_rd8 : step (State.reset.withFetchWord 8 0) = exec (.rd8 0) State.reset := rfl
theorem test_fetch_rd32 : step (State.reset.withFetchWord 8 1) = exec (.rd32 0) State.reset := rfl
theorem test_fetch_wr8 : step (State.reset.withFetchWord 8 2) = exec (.wr8 0 0) State.reset := rfl
theorem test_fetch_wr32 : step (State.reset.withFetchWord 8 3) = exec (.wr32 0 0) State.reset := rfl

/-! ## The commands on the spec's vectors -/

/-- A4, "abcabcc": c:3 a:2 b:2, by count first, then by first-seen order. -/
theorem test_analyze_order :
    ((after .analyze (loaded [0x61, 0x62, 0x63, 0x61, 0x62, 0x63, 0x63])).freqTable 3 =
      [⟨0x63, 3⟩, ⟨0x61, 2⟩, ⟨0x62, 2⟩]) ∧
    (after .analyze (loaded [0x61, 0x62, 0x63, 0x61, 0x62, 0x63, 0x63])).ftCount = 3 := by decide +kernel

/-- A10: STATUS = 0x6, ERRCODE = 0x02. -/
theorem test_analyze_empty :
    (after .analyze idle).statusWord = 0x6#32 ∧ (after .analyze idle).errcodeWord = 0x02#32 := by decide +kernel

/-- B2, "abracadabra", where a tie goes to the smallest index: a=`0` b=`10` r=`110` c=`1110` d=`1111`. -/
theorem test_build_codes :
    ((buildCodes false [5, 2, 2, 1, 1]).map showCode) = ["0", "10", "110", "1110", "1111"] := by decide +kernel

/-- B1 as a host reads it: word 0 is `sym | len << 8`, byte 32 the code. -/
theorem test_build_ctab :
    let t := after .build (counted [(0x61, 2), (0x62, 2), (0x63, 1)])
    t.ctCount = 3 ∧ t.readWord .ctab 0x10040 = 0x262#32 ∧ t.readByte .ctab 0x100A0 = 0x03#8 := by decide +kernel

/-- E1, "aabbc": PBUF = 00 D4, PB_LEN = 2, TOTAL_BITS = 8. -/
theorem test_encode :
    let t := after .encode toEncode
    t.readBytes .pbuf 0x30000000 2 = [0x00#8, 0xD4#8] ∧ t.pbLen = 2 ∧ t.totalBits = 8 := by decide +kernel

/-- R205 step 6: a byte with no entry faults NO_CODE. -/
theorem test_encode_noCode :
    (after .encode { toEncode with mem := toEncode.mem.set 0x10000000 0x7A }).errcodeWord = 0x08#32 := by
  decide +kernel

/-- R232: PBUF = 00 D4 with that table gives "aabbc", DEC_LEN = 5, TOTAL_BITS = 8. -/
theorem test_decode :
    let t := after .decode { toEncode with pbLen := 2, mem := Memory.setBytes toEncode.mem 0x30000000 [0x00, 0xD4] }
    t.readBytes .dbuf 0x20000000 5 = [0x61, 0x61, 0x62, 0x62, 0x63] ∧ t.decLen = 5 ∧ t.totalBits = 8 := by
  decide +kernel

/-- R229: PBUF = 07 01 with the table a = `0` faults NO_MATCH; {a = `0`, b = `01`} with 06 02 faults AMBIGUOUS. -/
theorem test_decode_faults :
    (after .decode (oneCode 64 [7, 1])).errcodeWord = 0x0E#32 ∧
    (after .decode twoCodes).errcodeWord = 0x0F#32 := by decide +kernel

/-- R254's worked example: after a fault (STATUS = 0x6, ERRCODE = 0x0D) CLEAR gives 0, 0, CT_COUNT = 0, and keeps the
CTAB bytes. -/
theorem test_clear :
    let s := after .decode (oneCode 64 [8, 0])
    s.statusWord = 0x6#32 ∧ s.errcodeWord = 0x0D#32 ∧ (after .clear s).statusWord = 0 ∧
    (after .clear s).errcodeWord = 0 ∧ (after .clear s).ctCount = 0 ∧
    (after .clear s).readByte .ctab 0x10000 = 0x61#8 := by decide +kernel

/-- R66: a word is stored lowest byte first, and RD8 sees its byte. -/
theorem test_little_endian :
    (after (.rd8 0x10000001#32) (after (.wr32 0x10000000#32 0x44332211#32) idle)).responses.head? =
      some (.data 0x22#32) := by decide +kernel

/-- R64: a misaligned word, a word over the end of RAWBUF, and R63: a byte of a register, are bus errors. -/
theorem test_bus_errors :
    ∀ i ∈ [Instr.rd32 0x10000001#32, .rd32 0x1000003D#32, .rd32 0x34#32, .rd8 0x8#32, .wr8 0x8#32 0#8,
        .wr32 0x1000#32 0#32, .wr32 0x20000000#32 0#32, .wr32 0x0#32 0#32, .rd8 0x10000040#32],
      (after i idle).responses = [.busErr] := by decide +kernel

/-- R28, R260: a write to RAWBUF while BUSY is answered OK, dropped, and sets WERR. -/
theorem test_wr8_dropped :
    let t := after (.wr8 0x10000000#32 0x7A#8) (busyWith encodeWord)
    t.responses = [.ok] ∧ t.werr = true ∧ t.readByte .rawbuf 0x10000000 = 0x61#8 := by decide +kernel

/-- R29: a STATUS write clears DONE and WERR where its bits are 1, and nothing else. -/
theorem test_status_w1c :
    (after (.wr32 0x008#32 0xF#32) { idle with err := true, done := true, werr := true }).statusWord = 0x4#32 ∧
    (after (.wr32 0x008#32 0x2#32) { idle with done := true, werr := true }).statusWord = 0x8#32 := by decide +kernel

/-- K1, K3, K8 and U3. -/
theorem test_pack :
    pack [true, false, true, true, false, false, false, false, true] = [0x0D#8, 0x01#8] ∧
    pack [true, true, true, true, true, true, true, true, true] = [0xFF#8, 0x01#8] ∧ pack [] = [] ∧
    unpack [0xF4#8] 4 = [false, false, true, false] := by decide +kernel

/-- R105: `wrbytes` is one WR8 a byte, at consecutive offsets. -/
theorem test_wrbytes :
    (HostLine.wrbytes 0x10000000#32 [0x61, 0x62]).expand =
      [.wr8 0x10000000#32 0x61, .wr8 0x10000001#32 0x62] := by decide

/-! ## Witnesses: for each obligation with hypotheses, states and operands that meet them -/

/-- The obligations' invariant holds in a state with a pending BUILD and a written byte. -/
theorem witness_Inv : (busyWith buildWord).Inv := by
  refine ⟨by decide, rfl, by decide, by decide, by decide, by decide, by decide, by decide, fun c hc => ?_, by decide⟩
  have hc : c = (0x10000000, 0x61#8) := List.mem_singleton.mp (show c ∈ [(0x10000000, 0x61#8)] from hc)
  subst hc
  exact ⟨.rawbuf, by decide, by decide +kernel⟩

theorem witness_EncodeOfDecoded :
    Encoding.wellFormed (.bus ⟨0b10#2, 5#32, 0x7F#32⟩) = true ∧
    decode (.bus ⟨0b10#2, 5#32, 0x7F#32⟩) = .ok (.wr8 5#32 0x7F#8) ∧
    Encoding.wellFormed (.command 0x80#32) = true ∧ decode (.command 0x80#32) = .ok .clear := by decide

/-- R96: "WR8 uses only DATA[7:0]", and DATA "is used only by writes". -/
theorem test_unused_data_ignored :
    decode (.bus ⟨0b00#2, 5#32, 0xFFFFFFFF#32⟩) = .ok (.rd8 5#32) ∧
    decode (.bus ⟨0b01#2, 8#32, 0xFFFFFFFF#32⟩) = .ok (.rd32 8#32) ∧
    decode (.bus ⟨0b10#2, 5#32, 0xFFFFFF7F#32⟩) = .ok (.wr8 5#32 0x7F#8) := by decide

/-- Each clause in turn: the Host's turn, the Core's turn, nothing scheduled. -/
theorem witness_StepRunsDecodedInstruction :
    ({ idle with moves := [.request ⟨0b01#2, 8#32, 0⟩] }.rst = false) ∧
    ({ busyWith buildWord with moves := [.core] }.pending = some buildWord ∧ decodeCmd buildWord = .ok .build) ∧
    (busyWith buildWord).moves = [] ∧ (busyWith buildWord).rst = false := by decide

theorem witness_FinishedRunStaysFinished : idle.finished = true := by decide

theorem witness_EveryRunEndsWithNothingPending : ∃ s : State, s.Inv ∧ s.pending ≠ none :=
  ⟨busyWith buildWord, witness_Inv, by decide⟩

/-- A word that is none of the five: issued, rejected, and completed. -/
theorem witness_IllegalWordFaults :
    (0x81#32 ≠ 1#32 ∧ 0x81#32 ≠ 2#32 ∧ 0x81#32 ≠ 3#32 ∧ 0x81#32 ≠ 4#32 ∧ 0x81#32 ≠ 0x80#32) ∧ (idle.busy = false ∧ idle.err = false) ∧
    ({ idle with err := true }.busy = false ∧ { idle with err := true }.err = true) ∧
    { busyWith 0x81#32 with moves := [.core] }.pending = some 0x81#32 :=
  ⟨by simp, ⟨rfl, rfl⟩, ⟨rfl, rfl⟩, rfl⟩

theorem witness_StepKeepsInvariant : ∃ s t : State, s.Inv ∧ step s = .next t :=
  ⟨busyWith buildWord, _, witness_Inv, rfl⟩

theorem witness_ReachableStatesMeetR50 :
    ∃ s, core.run 1 { State.reset with moves := [.request ⟨0b11#2, 0x010#32, 2#32⟩] } = .next s ∧ s.busy = true :=
  ⟨_, rfl, rfl⟩

theorem witness_HardwiredRegistersNeverChange :
    ∃ t, step { busyWith buildWord with moves := [.assertRst] } = .next t := ⟨_, rfl⟩

theorem witness_ResetAndClearValues :
    { busyWith buildWord with moves := [.assertRst, .releaseRst] }.moves = .assertRst :: .releaseRst :: [] ∧
    regionOf small 0x1000 = some .ftab ∧ regionOf small 0x13FFF = some .ctab ∧
    regionOf small 0x1000003F = some .rawbuf ∧ regionOf small 0x20000000 = some .dbuf ∧
    regionOf small 0x3000003F = some .pbuf ∧ idle.busy = false := by decide

/-- Reset with a command pending; a transaction while `rst` is asserted; release; and a pending command that a step
ends. -/
theorem witness_ResetAbandonsPendingCommand :
    { busyWith buildWord with moves := [.assertRst] }.moves = .assertRst :: [] ∧
    ({ idle with rst := true, moves := [.request ⟨0b01#2, 8#32, 0⟩] }.rst = true) ∧
    ({ idle with rst := true, moves := [.releaseRst] }.moves = .releaseRst :: []) ∧
    (busyWith buildWord).pending = some buildWord ∧
    ∃ t, step (busyWith buildWord) = .next t ∧ t.pending = none := by
  exact ⟨rfl, rfl, rfl, rfl, _, rfl, rfl⟩

theorem witness_CommandIssue :
    (busyWith buildWord).busy = true ∧ idle.busy = false ∧ idle.err = false ∧ { idle with err := true }.err = true ∧
    decodeCmd 0#32 = .error (.illegalCommand 0#32) ∧ (busyWith 0#32).pending = some 0#32 ∧
    nextTurn (busyWith 0#32) = .completion 0#32 := by decide

theorem witness_ClearEffect : idle.busy = false ∧ (busyWith buildWord).busy = true := by decide

theorem witness_FaultEntry :
    analyzeRun idle = .error .emptyInput ∧ buildRun idle = .error .emptyFreq ∧
    encodeRun idle = .error .emptyInput ∧ decodeRun idle = .error .emptyTable := ⟨rfl, rfl, rfl, rfl⟩

/-- The first and the last code. -/
theorem witness_FaultCodes :
    (Cause.noFault, 0x00) ∈ [(Cause.noFault, 0x00), (.dbOverflow, 0x10)] ∧
    (Cause.dbOverflow, 0x10) ∈ [(Cause.noFault, 0x00), (.dbOverflow, 0x10)] := by decide

/-- BUILD with FT_COUNT = 0 faults. -/
theorem witness_FaultsOnlyAtCompletion :
    ∃ t, step (busyWith buildWord) = .next t ∧ (busyWith buildWord).err = false ∧ t.err = true := ⟨_, rfl, rfl, rfl⟩

/-- A locked block, with the next CMD write of `w` scheduled. -/
def lockedWith (w : Word) : State :=
  { idle with err := true, cause := .emptyFreq, moves := [.request ⟨0b11#2, 0x010#32, w⟩] }

theorem witness_Inv_locked (w : Word) : (lockedWith w).Inv := by
  refine ⟨show small.wellFormed = true by decide, rfl, nofun, nofun, nofun, nofun, nofun, ?_, fun c hc => ?_, nofun⟩
  · simp [lockedWith, idle, State.reset]
  · simp [lockedWith, idle, State.reset] at hc

theorem witness_FirstFaultCodeKept :
    ∃ t, (lockedWith buildWord).Inv ∧ step (lockedWith buildWord) = .next t ∧ t.err = true :=
  ⟨_, witness_Inv_locked buildWord, rfl, rfl⟩

/-- By CLEAR, and by reset. -/
theorem witness_ErrClearedOnlyByClearOrReset :
    (∃ t, (lockedWith clearWord).Inv ∧ step (lockedWith clearWord) = .next t ∧ (lockedWith clearWord).err = true ∧
      t.err = false) ∧
    ∃ t, { lockedWith clearWord with moves := [.assertRst] }.Inv ∧
      step { lockedWith clearWord with moves := [.assertRst] } = .next t ∧ (lockedWith clearWord).err = true ∧
      t.err = false := by
  have h := witness_Inv_locked clearWord
  exact ⟨⟨_, h, rfl, rfl, rfl⟩, _, ⟨h.1, h.2, h.3, h.4, h.5, h.6, h.7, h.8, h.9, h.10⟩, rfl, rfl, rfl⟩

/-- Completion, rejection, issue, STATUS write, CLEAR and reset, each as the next step of some state. -/
theorem witness_DoneSetAndCleared :
    (∃ t, (busyWith buildWord).Inv ∧ step (busyWith buildWord) = .next t ∧
      nextTurn (busyWith buildWord) = .completion buildWord) ∧
    ((lockedWith buildWord).NextIs (.wr32 0x010#32 buildWord) ∧ (lockedWith buildWord).busy = false) ∧
    { idle with moves := [.request ⟨0b11#2, 0x010#32, 2#32⟩] }.NextIs (.wr32 0x010#32 buildWord) ∧
    { idle with done := true, moves := [.request ⟨0b11#2, 0x008#32, 2#32⟩] }.NextIs (.wr32 0x008#32 2#32) ∧
    (2#32).getLsbD 1 = true ∧ (lockedWith clearWord).NextIs (.wr32 0x010#32 0x00000080#32) ∧
    nextTurn { idle with done := true, moves := [.assertRst] } = .assertReset :=
  ⟨⟨_, witness_Inv, rfl, rfl⟩, ⟨⟨_, rfl, rfl⟩, rfl⟩, ⟨_, rfl, rfl⟩, ⟨_, rfl, rfl⟩, rfl, ⟨_, rfl, rfl⟩, rfl⟩

/-- A dropped CMD write sets WERR, and so does a dropped byte; a STATUS write with bit 3, CLEAR and reset clear it. -/
theorem witness_WerrSetAndCleared :
    (∃ s t : State, s.Inv ∧ step s = .next t ∧ s.werr = false ∧ t.werr = true) ∧
    ((busyWith buildWord).busy = true ∧
      { busyWith buildWord with moves := [.request ⟨0b10#2, 0x1000003F#32, 7#32⟩] }.NextIs (.wr8 0x1000003F#32 7#8) ∧
      busCheck small .write 1 (0x1000003F#32).toNat = .ok (.window .rawbuf)) ∧
    ({ busyWith buildWord with moves := [.request ⟨0b11#2, 0x010#32, 2#32⟩] }.NextIs (.wr32 0x010#32 2#32) ∧
      0x010#32 ≠ 0x004#32 ∧ 0x010#32 ≠ 0x008#32 ∧
      busCheck small .write 4 (0x010#32).toNat = .ok (.register .cmd)) ∧
    { idle with werr := true, moves := [.request ⟨0b11#2, 0x008#32, 8#32⟩] }.NextIs (.wr32 0x008#32 8#32) ∧
    (8#32).getLsbD 3 = true ∧ (lockedWith clearWord).NextIs (.wr32 0x010#32 0x00000080#32) ∧
    nextTurn { idle with werr := true, moves := [.assertRst] } = .assertReset := by
  refine ⟨⟨{ busyWith buildWord with moves := [.request ⟨0b11#2, 0x010#32, 2#32⟩] }, _, ?_, rfl, rfl, rfl⟩,
    ⟨rfl, ⟨_, rfl, rfl⟩, by decide +kernel⟩, ⟨⟨_, rfl, rfl⟩, by decide, by decide, by decide +kernel⟩,
    ⟨_, rfl, rfl⟩, rfl, ⟨_, rfl, rfl⟩, rfl⟩
  have h := witness_Inv
  exact ⟨h.1, h.2, h.3, h.4, h.5, h.6, h.7, h.8, h.9, h.10⟩

theorem witness_InterruptLevel :
    (2#32).getLsbD 1 = true ∧ idle.busy = false ∧ idle.err = false ∧ (lockedWith buildWord).err = true ∧
    (lockedWith buildWord).busy = false ∧ buildWord ≠ 0x00000080#32 ∧
    { idle with moves := [.assertRst] }.moves = .assertRst :: [] := by decide

/-- The first and the last offset of each range, and offsets of each unmapped range. -/
theorem witness_AddressMap :
    small.wellFormed = true ∧
    (∀ a ∈ [0, 0x33], regionOf small a = some .registers) ∧ (∀ a ∈ [0x1000, 0x17FF], regionOf small a = some .ftab) ∧
    (∀ a ∈ [0x10000, 0x13FFF], regionOf small a = some .ctab) ∧
    (∀ a ∈ [0x10000000, 0x1000003F], regionOf small a = some .rawbuf) ∧
    (∀ a ∈ [0x20000000, 0x2000003F], regionOf small a = some .dbuf) ∧
    (∀ a ∈ [0x30000000, 0x3000003F], regionOf small a = some .pbuf) ∧
    ∀ a ∈ [0x34, 0xFFF, 0x1800, 0xFFFF, 0x14000, 0xFFFFFFF, 0x10000040, 0x1FFFFFFF, 0x20000040, 0x2FFFFFFF,
        0x30000040], regionOf small a = none := by decide +kernel

/-- A size of each kind; an access that passes and one that fails each check of R261. -/
theorem witness_TransactionCheck :
    busCheck small .read 1 0x1000003F = .ok (.window .rawbuf) ∧ busCheck small .read 4 0x30 = .ok (.register .pbCapReg) ∧
    busCheck small .read 4 0x34 = .error .unmapped ∧ busCheck small .read 1 0x30 = .error .badSize ∧
    busCheck small .read 4 0x1000003A = .error .misaligned ∧ busCheck small .write 4 0x17FC = .error .readOnly := by
  decide +kernel

theorem witness_BusErrorChangesNothing :
    busCheck idle.params .read 1 (0x34#32).toNat = .error .unmapped ∧
    busCheck idle.params .read 4 (0x1000003D#32).toNat = .error .unmapped ∧
    busCheck idle.params .write 1 (0x8#32).toNat = .error .badSize ∧
    busCheck idle.params .write 4 (0x0#32).toNat = .error .readOnly := by decide +kernel

/-- Each destination register hidden by its command, and not by another. -/
theorem witness_RegisterReads :
    (busyWith analyzeWord).RegHidden .ftCount ∧ (busyWith buildWord).RegHidden .ctCount ∧
    (busyWith encodeWord).RegHidden .pbLen ∧ (busyWith encodeWord).RegHidden .totalBits ∧
    (busyWith decodeWord).RegHidden .decLen ∧ (busyWith decodeWord).RegHidden .totalBits ∧
    ¬ (busyWith analyzeWord).RegHidden .totalBits ∧ ¬ idle.RegHidden .ftCount := by
  unfold State.RegHidden
  refine ⟨?_, ?_, ?_, ?_, ?_, ?_, ?_, ?_⟩ <;> decide +kernel

theorem witness_RegisterWrites : idle.busy = false ∧ (busyWith buildWord).busy = true := by decide

/-- The last byte and the last word of a window; hidden and not hidden. -/
theorem witness_WindowReads :
    InWindow small .rawbuf 1 0x1000003F#32 ∧ InWindow small .rawbuf 4 0x1000003C#32 ∧
    InWindow small .ftab 1 0x1000#32 ∧ InWindow small .ftab 4 0x17FC#32 ∧ (busyWith analyzeWord).RegionHidden .ftab ∧
    ¬ (busyWith analyzeWord).RegionHidden .rawbuf := by
  unfold InWindow State.RegionHidden
  decide +kernel

theorem witness_WindowWrites :
    InWindow small .ctab 1 0x13FFF#32 ∧ InWindow small .pbuf 4 0x3000003C#32 ∧ idle.busy = false ∧
    (busyWith encodeWord).busy = true := by
  unfold InWindow
  decide +kernel

theorem witness_WritesDroppedWhileBusy :
    (busyWith encodeWord).busy = true ∧ InWindow (busyWith encodeWord).params .rawbuf 4 0x10000000#32 ∧
    busCheck small .read 1 (0x10000000#32).toNat = .ok (.window .rawbuf) ∧
    busCheck small .read 4 (0x8#32).toNat = .ok (.register .status) := by
  unfold InWindow
  decide +kernel

theorem witness_SourcesStableWhileBusy :
    ∃ t, (busyWith encodeWord).busy = true ∧
      exec (decodeRequest ⟨0b11#2, 0x014#32, 7#32⟩) (busyWith encodeWord) = .next t := ⟨_, rfl, rfl⟩

/-- BUSY = 0; and BUSY = 1 outside the destination, a window (the source of ENCODE) and a register. -/
theorem witness_ReadsAreIdempotent :
    (∃ t u, ¬ idle.ReadHidden 4 0x10000000#32 ∧ exec (.rd32 0x10000000#32) idle = .next t ∧
      exec (.rd32 0x10000000#32) t = .next u) ∧
    (busyWith encodeWord).busy = true ∧ ¬ (busyWith encodeWord).ReadHidden 1 0x1000003F#32 ∧
    ¬ (busyWith encodeWord).ReadHidden 4 0x008#32 := by
  have hc : busCheck small .read 1 (0x1000003F#32).toNat = .ok (.window .rawbuf) := by decide +kernel
  have hd : busCheck small .read 4 (0x008#32).toNat = .ok (.register .status) := by decide +kernel
  refine ⟨⟨_, _, ?_, rfl, rfl⟩, rfl, ?_, ?_⟩
  · rintro (⟨r, -, hb, -⟩ | ⟨r, -, hb, -⟩) <;> cases hb
  · rintro (⟨r, h, -⟩ | ⟨r, h, hr⟩) <;> rw [show (busyWith encodeWord).params = small from rfl, hc] at h <;> cases h
    revert hr
    unfold State.RegionHidden
    decide +kernel
  · rintro (⟨r, h, hr⟩ | ⟨r, h, -⟩) <;> rw [show (busyWith encodeWord).params = small from rfl, hd] at h <;> cases h
    revert hr
    unfold State.RegHidden
    decide +kernel

theorem witness_LittleEndianReadBack : idle.busy = false ∧ InWindow idle.params .rawbuf 4 0x1000003C#32 := by
  unfold InWindow
  decide +kernel

theorem witness_BusyReadsIgnoreDestination :
    (busyWith decodeWord).RegionHidden .dbuf ∧ InWindow (busyWith decodeWord).params .dbuf 1 0x2000003F#32 ∧
    InWindow (busyWith decodeWord).params .dbuf 4 0x20000000#32 := by
  unfold InWindow State.RegionHidden
  decide +kernel

/-- RAW_LEN = 1, and RAW_LEN = IN_CAP. -/
theorem witness_AnalyzeWritesFrequencyList :
    small.wellFormed = true ∧ 1 ≤ (loaded [0x61]).rawLen.toNat ∧ (loaded [0x61]).rawLen.toNat ≤ small.inCap ∧
    { idle with rawLen := 64 }.rawLen.toNat = small.inCap := by decide

theorem witness_AnalyzeFaults :
    idle.rawLen.toNat = 0 ∧ small.inCap < { idle with rawLen := 65 }.rawLen.toNat ∧
    { idle with rawLen := 64 }.rawLen.toNat ≤ small.inCap := by decide

theorem witness_SplitIsSmallestBalanced :
    ∃ d : Nat → Int, 2 ≤ [2, 2, 1, 1].length ∧
      ∀ j, d j = |(([2, 2, 1, 1].take (j + 1)).sum : Int) - (([2, 2, 1, 1].sum : Int) -
        (([2, 2, 1, 1].take (j + 1)).sum : Int))| := ⟨_, by decide, fun _ => rfl⟩

theorem witness_BuildCodesFollowAssign : 2 ≤ [1, 1].length := by decide

/-- Two entries; the code of entry 1 exists. -/
theorem witness_BuildWritesCodeTable :
    1 ≤ (counted [(0x61, 2), (0x62, 1)]).ftCount.val ∧
    (buildCodes false (((counted [(0x61, 2), (0x62, 1)]).freqTable 2).map (·.cnt)))[1]? = some [true] := by
  decide +kernel

theorem witness_BuildCodesPrefixFree :
    ∃ t, 1 ≤ (counted [(0x61, 2), (0x62, 1)]).ftCount.val ∧
      exec .build (counted [(0x61, 2), (0x62, 1)]) = .next t ∧
      ((counted [(0x61, 2), (0x62, 1)]).freqEntry 0).sym ≠ ((counted [(0x61, 2), (0x62, 1)]).freqEntry 1).sym :=
  ⟨_, by decide, rfl, by decide +kernel⟩

theorem witness_BuildCodeLengths :
    (counted [(0x61, 2)]).ftCount.val = 1 ∧ 2 ≤ (counted [(0x61, 2), (0x62, 1)]).ftCount.val ∧
    ∃ t, exec .build (counted [(0x61, 2)]) = .next t := ⟨rfl, by decide, _, rfl⟩

theorem witness_BuildCodeComplete :
    [4].length = 1 ∧ 2 ≤ [2, 1].length ∧ [2, 1].length ≤ 256 ∧ 255 ≤ (List.replicate 255 true).length := by
  decide +kernel

theorem witness_BuildFaults :
    idle.ftCount.val = 0 ∧ (counted [(0x61, 2)]).ftCount.val ≠ 0 ∧ idle.busy = false ∧
    ∃ t, exec .clear idle = .next t := ⟨rfl, by decide, rfl, _, rfl⟩

/-- Bit 8 of nine bits, and the first bit after them. -/
theorem witness_PackPlacesBits :
    [true, false, true, true, false, false, false, false, true][8]? = some true ∧ 9 ≤ 9 ∧
    9 < 8 * (pack [true, false, true, true, false, false, false, false, true]).length := by decide +kernel

theorem witness_PackUnpackRoundTrips :
    1 ≤ [0x0D#8, 0x01#8].length ∧ 7 ≤ 7 ∧ 0 + 1 < [0x0D#8, 0x01#8].length ∧ [0x0D#8, 0x01#8][1]? = some 0x01#8 ∧
    (pack (unpack [0x0D#8, 0x01#8] 7))[2 - 1]? = some 0x01#8 := by decide +kernel

/-- Padding 1111 against 0000 under a header of 4. -/
theorem witness_PaddingIsIgnored :
    (∀ j, j + 4 < 8 → (0xF5#8).getLsbD j = (0x05#8).getLsbD j) ∧ small.wellFormed = true ∧
    2 ≤ (oneCode 64 [4, 0x0A]).pbLen.toNat ∧ (oneCode 64 [4, 0x0A]).pbLen.toNat ≤ small.pbCap ∧
    ∀ j, j + (oneCode 64 [4, 0x0A]).header < 8 → (0xFA#8).getLsbD j =
      ((oneCode 64 [4, 0x0A]).readByte .pbuf (Region.pbuf.start + ((oneCode 64 [4, 0x0A]).pbLen.toNat - 1))).getLsbD
        j := by
  have key : ∀ (x y : Byte), (∀ j < 4, x.getLsbD j = y.getLsbD j) → ∀ j, j + 4 < 8 → x.getLsbD j = y.getLsbD j :=
    fun x y h j hj => h j (by omega)
  have hh : (oneCode 64 [4, 0x0A]).header = 4 := by decide +kernel
  refine ⟨key _ _ (by decide), by decide, by decide +kernel, by decide +kernel, ?_⟩
  rw [hh]
  exact key _ _ (by decide +kernel)

/-- Where each byte of "aabbc" has its entry. -/
def index (x : Byte) : Nat := x.toNat - 0x61

theorem witness_EncodeWritesPackedBuffer :
    toEncode.params.wellFormed = true ∧ 1 ≤ toEncode.rawLen.toNat ∧ toEncode.rawLen.toNat ≤ toEncode.params.inCap ∧
    toEncode.TableOk ∧ (∀ x ∈ toEncode.rawInput toEncode.rawLen.toNat,
      toEncode.OnlyEntry toEncode.ctCount.toNat x (index x)) ∧
    1 + ((toEncode.codesOf ((toEncode.rawInput toEncode.rawLen.toNat).map index)).length + 7) / 8 ≤
      toEncode.params.pbCap := by
  unfold State.TableOk State.OnlyEntry
  decide +kernel

/-- A byte with no entry and one with two, each after bytes that have one; a code of length 0; a result too long. -/
theorem witness_EncodeFaults :
    idle.rawLen.toNat = 0 ∧ 64 < { idle with rawLen := 65 }.rawLen.toNat ∧
    ((loaded [0x61]).rawLen.toNat = 1 ∧ (loaded [0x61]).ctCount.toNat = 0) ∧
    256 < { loaded [0x61] with ctCount := 257 }.ctCount.toNat ∧
    { toEncode with mem := toEncode.mem.set 0x10041 0 }.codeLen 1 = 0 ∧
    (toEncode.TableOk ∧ toEncode.OnlyEntry 3 0x61 0 ∧
      { toEncode with mem := toEncode.mem.set 0x10000001 0x7A }.rawInput 5 = [0x61] ++ 0x7A :: [0x62, 0x62, 0x63] ∧
      ∀ k < 3, (toEncode.codeEntry k).sym ≠ 0x7A) ∧
    ({ toEncode with mem := toEncode.mem.set 0x10080 0x62 }.rawInput 5 = [0x61, 0x61] ++ 0x62 :: [0x62, 0x63] ∧
      ({ toEncode with mem := toEncode.mem.set 0x10080 0x62 }.codeEntry 1).sym = 0x62 ∧
      ({ toEncode with mem := toEncode.mem.set 0x10080 0x62 }.codeEntry 2).sym = 0x62) ∧
    (⟨64, 2, false, 0⟩ : Params).pbCap <
      1 + ((toEncode.codesOf (([0x61, 0x61, 0x62, 0x62, 0x63, 0x63] : List Byte).map index)).length + 7) / 8 := by
  unfold State.TableOk State.OnlyEntry
  decide +kernel

/-- One entry matched where `k` alone matches. -/
theorem parses_singleton {s : State} {n k : Nat} {tail : List Bool} (h : s.OnlyMatch n (s.codesOf [k] ++ tail) k) :
    s.Parses n [k] tail := by
  intro before j after he
  cases before with
  | nil =>
    simp only [List.nil_append, List.cons.injEq] at he
    obtain ⟨rfl, rfl⟩ := he
    exact h
  | cons x before => simp at he

/-- The table a = `0` with PBUF = 07 00: one symbol, and no bit left. -/
theorem witness_DecodeWritesSymbols :
    (oneCode 64 [7, 0]).params.wellFormed = true ∧ (oneCode 64 [7, 0]).TableOk ∧ (oneCode 64 [7, 0]).PackedOk ∧
    (oneCode 64 [7, 0]).payloadBits = (oneCode 64 [7, 0]).codesOf [0] ∧
    (oneCode 64 [7, 0]).Parses (oneCode 64 [7, 0]).ctCount.toNat [0] [] ∧
    [0].length ≤ (oneCode 64 [7, 0]).params.inCap := by
  refine ⟨by decide, ?_, ?_, by decide +kernel, parses_singleton ?_, by decide⟩
  · unfold State.TableOk; decide +kernel
  · unfold State.PackedOk; decide +kernel
  · unfold State.OnlyMatch; decide +kernel

theorem witness_DecodeSuccessMeansParsed :
    (oneCode 64 [7, 0]).params.wellFormed = true ∧ (oneCode 64 [7, 0]).err = false ∧
    exec .decode (oneCode 64 [7, 0]) = .next (after .decode (oneCode 64 [7, 0])) ∧
    (after .decode (oneCode 64 [7, 0])).err = false := ⟨by decide, rfl, rfl, by decide +kernel⟩

/-- CT_COUNT = 0 and 257, a zero length, PB_LEN = 0 and 65, header 8, and PB_LEN = 1 with header 3. -/
theorem witness_DecodeChecks :
    idle.ctCount.toNat = 0 ∧ 256 < { idle with ctCount := 257 }.ctCount.toNat ∧
    { toEncode with mem := toEncode.mem.set 0x10041 0 }.codeLen 1 = 0 ∧ (oneCode 64 []).TableOk ∧
    (oneCode 64 []).pbLen.toNat = 0 ∧ 64 < { oneCode 64 [] with pbLen := 65 }.pbLen.toNat ∧
    7 < (oneCode 64 [8, 0]).header ∧ 8 * ((oneCode 64 [3]).pbLen.toNat - 1) < (oneCode 64 [3]).header := by
  unfold State.TableOk
  decide +kernel

/-- NO_MATCH after one match (bits `01` of 06 02 with a = `0`); AMBIGUOUS at once (R229); DB_OVERFLOW at the second
symbol with IN_CAP = 1. -/
theorem witness_DecodeMatchFaults :
    ((oneCode 64 [6, 2]).TableOk ∧ (oneCode 64 [6, 2]).PackedOk ∧
      (oneCode 64 [6, 2]).payloadBits = (oneCode 64 [6, 2]).codesOf [0] ++ [true] ∧
      (oneCode 64 [6, 2]).Parses 1 [0] [true] ∧ ∀ k < 1, ¬ ((oneCode 64 [6, 2]).codeEntry k).code <+: [true]) ∧
    (twoCodes.TableOk ∧ twoCodes.PackedOk ∧ twoCodes.payloadBits = twoCodes.codesOf [] ++ [false, true] ∧
      twoCodes.Parses 2 [] [false, true] ∧ (twoCodes.codeEntry 0).code <+: [false, true] ∧
      (twoCodes.codeEntry 1).code <+: [false, true]) ∧
    ((oneCode 1 [6, 0]).TableOk ∧ (oneCode 1 [6, 0]).PackedOk ∧
      (oneCode 1 [6, 0]).payloadBits = (oneCode 1 [6, 0]).codesOf [0] ++ [false] ∧
      (oneCode 1 [6, 0]).Parses 1 [0] [false] ∧ (oneCode 1 [6, 0]).OnlyMatch 1 [false] 0 ∧
      [0].length = (oneCode 1 [6, 0]).params.inCap) := by
  refine ⟨⟨?_, ?_, by decide +kernel, parses_singleton ?_, by decide +kernel⟩,
    ⟨?_, ?_, by decide +kernel, ?_, by decide +kernel, by decide +kernel⟩,
    ⟨?_, ?_, by decide +kernel, parses_singleton ?_, ?_, by decide⟩⟩
  case refine_6 => intro before k after he; simp at he
  all_goals first
    | (unfold State.TableOk; decide +kernel)
    | (unfold State.PackedOk; decide +kernel)
    | (unfold State.OnlyMatch; decide +kernel)

theorem witness_ScanOrderUnobservable : ([⟨0x61, [false]⟩, ⟨0x62, [true]⟩] : List CodeEntry).Perm
    [⟨0x62, [true]⟩, ⟨0x61, [false]⟩] := by decide

/-- "aab" through ANALYZE, BUILD and ENCODE. -/
theorem witness_RoundTrip :
    (loaded [0x61, 0x61, 0x62]).params.wellFormed = true ∧ (loaded [0x61, 0x61, 0x62]).err = false ∧
    1 ≤ (loaded [0x61, 0x61, 0x62]).rawLen.toNat ∧
    (loaded [0x61, 0x61, 0x62]).rawLen.toNat ≤ (loaded [0x61, 0x61, 0x62]).params.inCap ∧
    (after .encode (after .build (after .analyze (loaded [0x61, 0x61, 0x62])))).err = false := by decide +kernel

end Sys2Proof.Tests
end

section
/-!
SUPPORT. The fault of a command's run is one of R281's causes and never NONE, and every step keeps `State.Inv` (R50).
-/

namespace Sys2Proof.Machine

/-! ## The causes of faults (R281) -/

theorem lookupCode_error_ne_noFault {table : List CodeEntry} {x : Byte} {c : Cause}
    (h : lookupCode table x = .error c) : c ≠ .noFault := by
  unfold lookupCode at h
  split at h <;> cases h <;> decide

theorem encodeBits_error_ne_noFault {table : List CodeEntry} {raw : List Byte} {c : Cause}
    (h : encodeBits table raw = .error c) : c ≠ .noFault := by
  induction raw with
  | nil => cases h
  | cons x raw ih =>
    simp only [encodeBits] at h
    split at h
    · rename_i hx
      cases h
      exact lookupCode_error_ne_noFault hx
    · split at h
      · rename_i hrest
        cases h
        exact ih hrest
      · cases h

theorem decodeLoop_error_ne_noFault {table : List CodeEntry} {bits : List Bool} {skip room : Nat} {c : Cause}
    (h : decodeLoop table bits skip room = .error c) : c ≠ .noFault := by
  induction bits generalizing skip room with
  | nil => cases skip <;> cases h
  | cons b bits ih =>
    cases skip with
    | succ skip => exact ih h
    | zero =>
      simp only [decodeLoop] at h
      split at h
      · cases h; decide
      · cases h; decide
      · cases room with
        | zero => cases h; decide
        | succ room =>
          rename_i e _
          cases hrest : decodeLoop table bits (e.code.length - 1) room with
          | error c' =>
            simp only [hrest, Except.map] at h
            cases h
            exact ih hrest
          | ok out => simp only [hrest, Except.map] at h; cases h

theorem State.tableCheck_error_ne_noFault {s : State} {c : Cause} (h : s.tableCheck = .error c) : c ≠ .noFault := by
  rcases s.tableCheck_eq with ⟨-, h'⟩ | ⟨-, h'⟩ | ⟨-, -, h'⟩ | ⟨-, -, h'⟩ <;> rw [h'] at h <;> cases h <;> decide

theorem analyzeRun_error_ne_noFault {s : State} {c : Cause} (h : analyzeRun s = .error c) : c ≠ .noFault := by
  rcases analyzeRun_eq s with ⟨-, h'⟩ | ⟨-, -, h'⟩ | ⟨-, -, h'⟩ <;> rw [h'] at h <;> cases h <;> decide

theorem buildRun_error_ne_noFault {s : State} {c : Cause} (h : buildRun s = .error c) : c ≠ .noFault := by
  rcases buildRun_eq s with ⟨-, h'⟩ | ⟨-, h'⟩ <;> rw [h'] at h <;> cases h
  decide

theorem encodeRun_error_ne_noFault {s : State} {c : Cause} (h : encodeRun s = .error c) : c ≠ .noFault := by
  simp only [encodeRun] at h
  split_ifs at h
  · cases h; decide
  · cases h; decide
  · split at h
    · rename_i htable
      cases h
      exact State.tableCheck_error_ne_noFault htable
    · split at h
      · rename_i hbits
        cases h
        exact encodeBits_error_ne_noFault hbits
      · split_ifs at h
        cases h; decide

theorem decodeRun_error_ne_noFault {s : State} {c : Cause} (h : decodeRun s = .error c) : c ≠ .noFault := by
  simp only [decodeRun] at h
  split at h
  · rename_i htable
    cases h
    exact State.tableCheck_error_ne_noFault htable
  · split_ifs at h
    · cases h; decide
    · cases h; decide
    · cases h; decide
    · cases h; decide
    · split at h
      · rename_i hbits
        cases h
        exact decodeLoop_error_ne_noFault hbits
      · cases h

/-! ## Completion -/

/-- What the run of a command with destination `d` can end with, from `s`: a result inside the destination (R253), or a
fault whose cause is not NONE (R281). -/
structure State.RunEnds (d : Dest) (s : State) (r : Except Cause State) : Prop where
  ok : ∀ t, r = .ok t → State.RanOk d s t
  error : ∀ c, r = .error c → c ≠ .noFault

/-- The next completion, unless CLEAR pends, ends a command's run (R252). -/
theorem step_completion_runEnds {s : State} {w : Word} (h : nextTurn s = .completion w) (hw : w ≠ clearWord) :
    ∃ d r, step s = .next (s.popMove.complete d r) ∧ State.RunEnds d s.popMove r := by
  rcases decodeCmd_cases w with ⟨-, hd⟩ | ⟨-, hd⟩ | ⟨-, hd⟩ | ⟨-, hd⟩ | ⟨hc, -⟩ | ⟨-, hd⟩
  · exact ⟨_, _, by simp [step, h, hd], fun _ => analyzeRun_ranOk, fun _ => analyzeRun_error_ne_noFault⟩
  · exact ⟨_, _, by simp [step, h, hd], fun _ => buildRun_ranOk, fun _ => buildRun_error_ne_noFault⟩
  · exact ⟨_, _, by simp [step, h, hd], fun _ => encodeRun_ranOk, fun _ => encodeRun_error_ne_noFault⟩
  · exact ⟨_, _, by simp [step, h, hd], fun _ => decodeRun_ranOk, fun _ => decodeRun_error_ne_noFault⟩
  · exact absurd hc hw
  · refine ⟨.nothing, .error .illegalCmd, by simp [step, h, hd, State.completeIllegal], fun t ht => ?_, fun c hc => ?_⟩
    · cases ht
    · cases hc; decide

theorem State.Inv.complete {s : State} (h : s.Inv) {d : Dest} {r : Except Cause State}
    (hr : State.RunEnds d s r) : (s.complete d r).Inv := by
  cases r with
  | ok t => exact h.finish_of_ranOk (hr.ok t rfl)
  | error c => exact h.finish_faultEntry (hr.error c rfl) d

/-- Only PENDING is completed (R252). -/
theorem pending_of_completion {s : State} {w : Word} (h : nextTurn s = .completion w) : s.pending = some w := by
  rcases step_cases s with ⟨h', -⟩ | ⟨_, h', -⟩ | ⟨h', -⟩ | ⟨h', -⟩ | ⟨_, h', -⟩ | ⟨w', h', -, hp, -⟩ <;>
    rw [h] at h' <;> cases h'
  exact hp

theorem State.Inv.completion_ne_clearWord {s : State} (hi : s.Inv) {w : Word} (h : nextTurn s = .completion w) :
    w ≠ clearWord := by
  rintro rfl
  exact hi.clear_not_pending (pending_of_completion h)

/-! ## Every step keeps the invariant -/

theorem State.Inv.hardReset {s : State} (h : s.Inv) : s.hardReset.Inv where
  params := h.params
  pending_iff_busy := rfl
  busy_not_done _ := rfl
  no_err_no_cause _ := rfl
  err_cause he := by cases he
  busy_not_err _ := rfl
  clear_not_pending := by simp
  mem_wf := List.Pairwise.nil
  mem_mapped c hc := by cases hc
  rst_idle _ := rfl

theorem State.Inv.releaseReset {s : State} (h : s.Inv) : s.releaseReset.Inv :=
  { h with rst_idle := fun hr => by cases hr }

/-- A host transaction keeps the invariant while `rst` is not asserted (R255). -/
theorem State.Inv.exec_request {s t : State} (h : s.Inv) (hr : s.rst = false) {q : Request}
    (ht : exec (decodeRequest q) s = .next t) : t.Inv := by
  rcases decodeRequest_cases q with hd | hd | hd | hd <;> rw [hd] at ht <;> cases ht
  · exact h.hostRead ..
  · exact h.hostRead ..
  · exact h.hostWrite hr ..
  · exact h.hostWrite hr ..

/-- Settles O11: by the kinds of step, each of whose operations keeps the invariant. -/
theorem stepKeepsInvariant : Obligations.StepKeepsInvariant := by
  intro s t hi ht
  rcases step_cases s with
    ⟨-, he⟩ | ⟨_, -, -, he⟩ | ⟨-, he⟩ | ⟨-, he⟩ | ⟨_, -, hr, he⟩ | ⟨w, hw, -⟩
  · cases he.symm.trans ht
    exact hi.popMove
  · cases he.symm.trans ht
    exact hi.popMove.respond _
  · cases he.symm.trans ht
    exact hi.popMove.hardReset
  · cases he.symm.trans ht
    exact hi.popMove.releaseReset
  · exact hi.popMove.exec_request hr (he.symm.trans ht)
  · obtain ⟨d, r, he, hends⟩ := step_completion_runEnds hw (hi.completion_ne_clearWord hw)
    cases he.symm.trans ht
    exact hi.popMove.complete hends

end Sys2Proof.Machine
end

section
/-!
SUPPORT. The step that carries out a given turn, and the effects a step can have on STATUS, said once for the statements
about single status bits (R26 to R28).
-/

namespace Sys2Proof.Machine

/-! ## The step of a given turn -/

/-- No step stops the machine. -/
theorem step_answers_next (s : State) : ∃ t, step s = .next t := by
  rcases step_cases s with ⟨-, he⟩ | ⟨_, -, -, he⟩ | ⟨-, he⟩ | ⟨-, he⟩ | ⟨r, -, -, he⟩ |
    ⟨_, -, -, -, ⟨i, -, he⟩ | ⟨-, he⟩⟩
  · exact ⟨_, he⟩
  · exact ⟨_, he⟩
  · exact ⟨_, he⟩
  · exact ⟨_, he⟩
  · exact he ▸ exec_next (decodeRequest r) s.popMove
  · exact he ▸ exec_next i s.popMove
  · exact ⟨_, he⟩

theorem step_assertReset {s : State} (h : nextTurn s = .assertReset) : step s = .next s.popMove.hardReset := by
  simp [step, h]

/-- The Host's transaction is executed (R255). -/
theorem State.NextIs.step_eq {s : State} {i : Instr} (h : s.NextIs i) : step s = exec i s.popMove := by
  obtain ⟨r, hr, rfl⟩ := h
  simp [step, hr]

theorem State.NextIs.step_register {s : State} {r : Reg} {v : Word}
    (h : s.NextIs (.wr32 (BitVec.ofNat 32 r.offset) v)) (hw : r.writable = true) :
    step s = .next ((s.popMove.writeRegister r v).respond .ok) :=
  h.step_eq.trans (exec_wr32_register _ hw v)

theorem State.NextIs.step_status {s : State} {v : Word} (h : s.NextIs (.wr32 0x008#32 v)) :
    step s = .next ((s.popMove.writeStatus v).respond .ok) :=
  State.NextIs.step_register (r := .status) h rfl

theorem State.NextIs.step_cmd {s : State} {w : Word} (h : s.NextIs (.wr32 0x010#32 w)) :
    step s = .next ((s.popMove.writeCmd w).respond .ok) :=
  State.NextIs.step_register (r := .cmd) h rfl

/-! ## The CMD write, case by case (R250) -/

theorem State.writeCmd_clearWord {s : State} (hb : s.busy = false) : s.writeCmd clearWord = s.clear := by
  simp [State.writeCmd, hb]

theorem State.writeCmd_of_err {s : State} {w : Word} (hb : s.busy = false) (hw : w ≠ clearWord)
    (he : s.err = true) : s.writeCmd w = s.reject := by
  simp [State.writeCmd, hb, decodeCmd_eq_clear_iff, hw, he]

theorem State.writeCmd_of_not_err {s : State} {w : Word} (hb : s.busy = false) (hw : w ≠ clearWord)
    (he : s.err = false) : s.writeCmd w = s.issue w := by
  simp [State.writeCmd, hb, decodeCmd_eq_clear_iff, hw, he]

@[simp] theorem State.writeCmd_params (s : State) (w : Word) : (s.writeCmd w).params = s.params := by
  rcases s.writeCmd_cases w with ⟨-, he⟩ | ⟨-, -, he⟩ | ⟨-, -, -, he⟩ | ⟨-, -, -, he⟩ <;> rw [he] <;> rfl

/-! ## What a step can do to STATUS -/

/-- Alike in STATUS and the parameters. -/
structure State.SameStatus (s t : State) : Prop where
  busy : t.busy = s.busy
  done : t.done = s.done
  err : t.err = s.err
  werr : t.werr = s.werr
  params : t.params = s.params

/-- The next step is a write that passes the check of R261 and is neither of CTRL nor of STATUS: one that BUSY drops
(R260). -/
def State.NextDroppable (s : State) : Prop :=
  (∃ o v x, s.NextIs (.wr8 o v) ∧ busCheck s.params .write 1 o.toNat = .ok x) ∨
    ∃ o v x, s.NextIs (.wr32 o v) ∧ o ≠ 0x004#32 ∧ o ≠ 0x008#32 ∧ busCheck s.params .write 4 o.toNat = .ok x

/-- The effects a step can have on STATUS, each with the turn it belongs to. -/
inductive StepEffect (s : State) : State → Prop where
  | quiet {t : State} (same : State.SameStatus s t) : StepEffect s t
  | reset (turn : nextTurn s = .assertReset) : StepEffect s s.popMove.hardReset
  | dropped (busy : s.busy = true) (drops : s.NextDroppable) : StepEffect s (s.popMove.dropWrite.respond .ok)
  | statusWrite {v : Word} (next : s.NextIs (.wr32 0x008#32 v)) :
      StepEffect s ((s.popMove.writeStatus v).respond .ok)
  | cmdWrite {w : Word} (next : s.NextIs (.wr32 0x010#32 w)) (busy : s.busy = false) :
      StepEffect s ((s.popMove.writeCmd w).respond .ok)
  | completion {w : Word} {d : Dest} {r : Except Cause State} (turn : nextTurn s = .completion w)
      (ends : State.RunEnds d s.popMove r) : StepEffect s (s.popMove.complete d r)
  | pendingClear (turn : nextTurn s = .completion clearWord) : StepEffect s (s.popMove.writeCmd clearWord)

theorem stepEffect_transaction {s t : State} {r : Request} (h : nextTurn s = .transaction r)
    (ht : exec (decodeRequest r) s.popMove = .next t) : StepEffect s t := by
  rcases exec_request_cases ht with ⟨hs, -, -⟩ | ⟨hb, rfl, -, hd⟩ | ⟨v, hd, rfl⟩ | ⟨hb, w, hd, rfl⟩
  · exact .quiet ⟨hs.busy, hs.done, hs.err, hs.werr, hs.params⟩
  · refine .dropped hb ?_
    rcases hd with ⟨o, v, x, hd, hc⟩ | ⟨o, v, x, hd, h4, h8, hc⟩
    · exact .inl ⟨o, v, x, ⟨r, h, hd⟩, hc⟩
    · exact .inr ⟨o, v, x, ⟨r, h, hd⟩, h4, h8, hc⟩
  · exact .statusWrite ⟨r, h, hd⟩
  · exact .cmdWrite ⟨r, h, hd⟩ hb

theorem stepEffect_completion {s t : State} {w : Word} (h : nextTurn s = .completion w) (ht : step s = .next t) :
    StepEffect s t := by
  by_cases hw : w = clearWord
  · subst hw
    have he : step s = .next (s.popMove.writeCmd clearWord) := by simp [step, h]
    cases he.symm.trans ht
    exact .pendingClear h
  · obtain ⟨d, r, he, hends⟩ := step_completion_runEnds h hw
    cases he.symm.trans ht
    exact .completion h hends

theorem stepEffect_of_step {s t : State} (ht : step s = .next t) : StepEffect s t := by
  rcases step_cases s with ⟨-, he⟩ | ⟨_, -, -, he⟩ | ⟨h, he⟩ | ⟨-, he⟩ | ⟨r, h, -, he⟩ | ⟨w, h, -⟩
  · cases he.symm.trans ht
    exact .quiet ⟨rfl, rfl, rfl, rfl, rfl⟩
  · cases he.symm.trans ht
    exact .quiet ⟨rfl, rfl, rfl, rfl, rfl⟩
  · cases he.symm.trans ht
    exact .reset h
  · cases he.symm.trans ht
    exact .quiet ⟨rfl, rfl, rfl, rfl, rfl⟩
  · exact stepEffect_transaction h (he.symm.trans ht)
  · exact stepEffect_completion h ht

/-- A completion changes nothing outside its destination (R253, R293). -/
theorem State.RunEnds.keptOutside {d : Dest} {s : State} {r : Except Cause State} (h : State.RunEnds d s r) :
    State.KeptOutside d s (s.complete d r) :=
  State.keptOutside_complete s d r fun t ht => (h.ok t ht).kept

/-- A command completes only while BUSY = 1, hence with ERR = 0 (R47, R295). -/
theorem State.Inv.not_err_of_completion {s : State} (hi : s.Inv) {w : Word} (h : nextTurn s = .completion w) :
    s.err = false :=
  hi.busy_not_err (by rw [← hi.pending_iff_busy, pending_of_completion h]; rfl)

/-- The first clause of R26: completion sets DONE. -/
theorem State.Inv.done_of_completion {s t : State} (hi : s.Inv) {w : Word} (h : nextTurn s = .completion w)
    (ht : step s = .next t) : t.done = true := by
  obtain ⟨d, r, he, -⟩ := step_completion_runEnds h (hi.completion_ne_clearWord h)
  cases he.symm.trans ht
  exact State.complete_done ..

/-! ## The status bits -/

/-- Settles O24: of the effects a step can have, those that leave ERR = 0 after ERR = 1 are CLEAR and reset. -/
theorem errClearedOnlyByClearOrReset : Obligations.ErrClearedOnlyByClearOrReset := by
  intro s t hi ht hs hclear
  cases stepEffect_of_step ht with
  | quiet same => simp [same.err, hs] at hclear
  | reset turn => exact .inr turn
  | dropped busy drops => simp [hs] at hclear
  | statusWrite next => simp [hs] at hclear
  | @cmdWrite w next busy =>
    rcases eq_or_ne w clearWord with rfl | hw
    · exact .inl next
    · simp [State.writeCmd_of_err (s := s.popMove) busy hw hs, hs] at hclear
  | completion turn ends => simp [hi.not_err_of_completion turn] at hs
  | pendingClear turn => exact absurd rfl (hi.completion_ne_clearWord turn)

/-- What sets DONE (R26, R251, R252). -/
theorem step_sets_done {s t : State} (ht : step s = .next t) (hs : s.done = false)
    (hset : t.done = true) :
    (∃ w, nextTurn s = .completion w) ∨
      ∃ w, s.NextIs (.wr32 0x010#32 w) ∧ w ≠ clearWord ∧ s.busy = false ∧ s.err = true := by
  cases stepEffect_of_step ht with
  | quiet same => simp [same.done, hs] at hset
  | reset turn => simp at hset
  | dropped busy drops => simp [hs] at hset
  | statusWrite next => simp [hs] at hset
  | @cmdWrite w next busy =>
    rcases s.popMove.writeCmd_cases w with ⟨hb, -⟩ | ⟨-, -, he⟩ | ⟨-, hw, herr, -⟩ | ⟨-, -, -, he⟩
    · simp [busy] at hb
    · simp [he] at hset
    · exact .inr ⟨w, next, hw, busy, herr⟩
    · simp [he] at hset
  | completion turn ends => exact .inl ⟨_, turn⟩
  | pendingClear turn => exact .inl ⟨_, turn⟩

/-- What clears DONE (R26, R29, R250, R254). -/
theorem State.Inv.step_clears_done {s t : State} (hi : s.Inv) (ht : step s = .next t) (hs : s.done = true)
    (hclear : t.done = false) :
    (∃ w, s.NextIs (.wr32 0x010#32 w) ∧ (w = clearWord ∨ s.err = false)) ∨
      (∃ v, s.NextIs (.wr32 0x008#32 v) ∧ v.getLsbD 1 = true) ∨ nextTurn s = .assertReset := by
  cases stepEffect_of_step ht with
  | quiet same => simp [same.done, hs] at hclear
  | reset turn => exact .inr (.inr turn)
  | dropped busy drops => simp [hs] at hclear
  | @statusWrite v next => exact .inr (.inl ⟨v, next, by simpa [hs] using hclear⟩)
  | @cmdWrite w next busy =>
    rcases s.popMove.writeCmd_cases w with ⟨hb, -⟩ | ⟨-, hw, -⟩ | ⟨-, -, -, he⟩ | ⟨-, -, herr, -⟩
    · simp [busy] at hb
    · exact .inl ⟨w, next, .inl hw⟩
    · simp [he] at hclear
    · exact .inl ⟨w, next, .inr herr⟩
  | completion turn ends => simp at hclear
  | pendingClear turn => exact absurd rfl (hi.completion_ne_clearWord turn)

/-- Settles O25: each event of R26 by the step of its turn; that there is no other, by the effects a step can have. -/
theorem doneSetAndCleared : Obligations.DoneSetAndCleared := by
  intro s t hi ht
  refine ⟨fun w h => hi.done_of_completion h ht, fun w h hw hb he => ?_, step_sets_done ht, fun w h hw hb he => ?_,
    fun v h hv => ?_, fun h hb => ?_, fun h => ?_, hi.step_clears_done ht⟩
  · cases h.step_cmd.symm.trans ht
    simp [State.writeCmd_of_err (s := s.popMove) hb hw he]
  · cases h.step_cmd.symm.trans ht
    simp [State.writeCmd_of_not_err (s := s.popMove) hb hw he]
  · cases h.step_status.symm.trans ht
    simp [hv]
  · cases h.step_cmd.symm.trans ht
    simp [State.writeCmd_clearWord (s := s.popMove) hb]
  · cases (step_assertReset h).symm.trans ht
    rfl

/-- What sets WERR (R28, R260). -/
theorem State.Inv.step_sets_werr {s t : State} (hi : s.Inv) (ht : step s = .next t) (hs : s.werr = false)
    (hset : t.werr = true) : s.busy = true ∧ s.NextDroppable := by
  cases stepEffect_of_step ht with
  | quiet same => simp [same.werr, hs] at hset
  | reset turn => simp at hset
  | dropped busy drops => exact ⟨busy, drops⟩
  | statusWrite next => simp [hs] at hset
  | @cmdWrite w next busy =>
    rcases s.popMove.writeCmd_cases w with ⟨hb, -⟩ | ⟨-, -, he⟩ | ⟨-, -, -, he⟩ | ⟨-, -, -, he⟩
    · simp [busy] at hb
    all_goals simp [he, hs] at hset
  | completion turn ends => simp [ends.keptOutside.werr, hs] at hset
  | pendingClear turn => exact absurd rfl (hi.completion_ne_clearWord turn)

/-- What clears WERR (R28, R29, R254). -/
theorem State.Inv.step_clears_werr {s t : State} (hi : s.Inv) (ht : step s = .next t) (hs : s.werr = true)
    (hclear : t.werr = false) :
    (∃ v, s.NextIs (.wr32 0x008#32 v) ∧ v.getLsbD 3 = true) ∨
      (s.NextIs (.wr32 0x010#32 clearWord) ∧ s.busy = false) ∨ nextTurn s = .assertReset := by
  cases stepEffect_of_step ht with
  | quiet same => simp [same.werr, hs] at hclear
  | reset turn => exact .inr (.inr turn)
  | dropped busy drops => simp at hclear
  | @statusWrite v next => exact .inl ⟨v, next, by simpa [hs] using hclear⟩
  | @cmdWrite w next busy =>
    rcases s.popMove.writeCmd_cases w with ⟨hb, -⟩ | ⟨-, rfl, -⟩ | ⟨-, -, -, he⟩ | ⟨-, -, -, he⟩
    · simp [busy] at hb
    · exact .inr (.inl ⟨next, busy⟩)
    all_goals simp [he, hs] at hclear
  | completion turn ends => simp [ends.keptOutside.werr, hs] at hclear
  | pendingClear turn => exact absurd rfl (hi.completion_ne_clearWord turn)

/-- Settles O26: a dropped write by the law of dropped writes, the clearing events by the step of their turn; that there
is no other, by the effects a step can have. -/
theorem werrSetAndCleared : Obligations.WerrSetAndCleared := by
  intro s t hi ht
  refine ⟨hi.step_sets_werr ht, fun o v x hb h hc => ?_, fun o v x hb h h4 h8 hc => ?_, fun v h hv => ?_, fun h hb => ?_,
    fun h => ?_, hi.step_clears_werr ht⟩
  · have he := State.hostWrite_dropped (s := s.popMove) (v := v.setWidth 32) hb hc (by simp) (by simp)
    cases (h.step_eq.trans (congrArg Host.Outcome.next he)).symm.trans ht
    rfl
  · have he := State.hostWrite_dropped (s := s.popMove) (v := v) hb hc (fun _ => h4) fun _ => h8
    cases (h.step_eq.trans (congrArg Host.Outcome.next he)).symm.trans ht
    rfl
  · cases h.step_status.symm.trans ht
    simp [hv]
  · cases h.step_cmd.symm.trans ht
    simp [State.writeCmd_clearWord (s := s.popMove) hb]
  · cases (step_assertReset h).symm.trans ht
    rfl

end Sys2Proof.Machine
end

section
/-!
SUPPORT. Every run from reset, the hardwired registers, the values of reset and CLEAR, and what a transaction can do
while BUSY = 1.
-/

namespace Sys2Proof.Machine

/-! ## Every run from reset keeps the invariant (R50) -/

/-- Settles O10: field by field; the parameters of reset are legal whatever they are. -/
theorem invariantAtReset : Obligations.InvariantAtReset where
  params := Config.params_wellFormed
  pending_iff_busy := rfl
  busy_not_done _ := rfl
  no_err_no_cause _ := rfl
  err_cause he := by cases he
  busy_not_err _ := rfl
  clear_not_pending := by simp [State.reset]
  mem_wf := List.Pairwise.nil
  mem_mapped c hc := by cases hc
  rst_idle _ := rfl

/-- The invariant does not look at the schedule. -/
theorem State.Inv.withMoves {s : State} (h : s.Inv) (ms : List Move) : { s with moves := ms }.Inv := { h with }

/-- The invariant holds all along a run, since every step keeps it. -/
theorem State.Inv.run {s t : State} (h : s.Inv) {k : Nat} (ht : core.run k s = .next t) : t.Inv := by
  induction k generalizing s with
  | zero => cases ht; exact h
  | succ k ih =>
    obtain ⟨u, hu⟩ := step_answers_next s
    exact ih (stepKeepsInvariant s u h hu) ((run_succ k hu).symm.trans ht)

theorem Cause.code_le (c : Cause) : c.code.toNat ≤ 0x10 := by cases c <;> decide

theorem Cause.one_le_code {c : Cause} (h : c ≠ .noFault) : 0x01 ≤ c.code.toNat := by
  cases c <;> first | exact absurd rfl h | decide

theorem State.toNat_errcodeWord (s : State) : s.errcodeWord.toNat = s.cause.code.toNat :=
  BitVec.toNat_setWidth_of_le (by decide)

/-- RAW_LEN, CT_COUNT and PB_LEN each written with `v`. -/
def lengthWrites (v : Word) : List Move :=
  [.request ⟨0b11#2, 0x014#32, v⟩, .request ⟨0b11#2, 0x01C#32, v⟩, .request ⟨0b11#2, 0x020#32, v⟩]

/-- R32, R34, R35: the three length registers take any value. -/
theorem run_lengthWrites (v : Word) :
    core.run 3 { State.reset with moves := lengthWrites v } =
      .next { State.reset with rawLen := v, ctCount := v, pbLen := v, responses := [.ok, .ok, .ok] } := by
  refine (run_succ 2 (State.NextIs.step_register (r := .rawLen) (v := v) ⟨_, rfl, rfl⟩ rfl)).trans ?_
  refine (run_succ 1 (State.NextIs.step_register (r := .ctCount) (v := v) ⟨_, rfl, rfl⟩ rfl)).trans ?_
  exact run_succ 0 (State.NextIs.step_register (r := .pbLen) (v := v) ⟨_, rfl, rfl⟩ rfl)

/-- Settles O12: the bounds follow from the invariant along the run, the free values from three register writes. -/
theorem reachableStatesMeetR50 : Obligations.ReachableStatesMeetR50 := by
  refine ⟨fun moves k s hs => ?_, fun v => ?_⟩
  · have hi : s.Inv := (invariantAtReset.withMoves moves).run hs
    refine ⟨?_, ?_, hi.busy_not_done, fun he => ?_, fun he => ⟨?_, ?_⟩⟩
    · have := s.ftCount.isLt
      simp only [State.regWord, BitVec.toNat_ofNat]
      omega
    · rw [← hi.pending_iff_busy, Option.isSome_iff_ne_none]
    · simp [State.regWord, State.errcodeWord, hi.no_err_no_cause he, Cause.code]
    · exact (Cause.one_le_code (hi.err_cause he)).trans_eq s.toNat_errcodeWord.symm
    · exact s.toNat_errcodeWord.trans_le s.cause.code_le
  · exact ⟨lengthWrites v, 3, _, run_lengthWrites v, rfl, rfl, rfl⟩

/-! ## The hardwired registers (R23, R38, R39) -/

/-- RD32 of a register that no pending command may be writing answers its current value (R256). -/
theorem exec_rd32_of_not_hidden {s : State} {r : Reg} (h : ¬ s.RegHidden r) :
    exec (.rd32 (BitVec.ofNat 32 r.offset)) s = .next (s.respond (.data (s.regWord r))) := by
  rw [State.regHidden_iff] at h
  rw [exec_rd32_register, State.readRegister, if_neg h]

theorem step_params {s t : State} (ht : step s = .next t) : t.params = s.params := by
  cases stepEffect_of_step ht with
  | quiet same => exact same.params
  | completion turn ends => exact ends.keptOutside.params
  | reset turn => rfl
  | dropped busy drops => rfl
  | statusWrite next => rfl
  | cmdWrite next busy => simp
  | pendingClear turn => simp

/-- Settles O13: no command's destination holds a hardwired register, and no effect of a step reaches the parameters. -/
theorem hardwiredRegistersNeverChange : Obligations.HardwiredRegistersNeverChange := by
  refine ⟨fun s => ⟨?_, ?_, ?_⟩, fun _ _ => step_params⟩
  · exact exec_rd32_of_not_hidden (r := .id) (by simp [State.RegHidden])
  · exact exec_rd32_of_not_hidden (r := .inCapReg) (by simp [State.RegHidden])
  · exact exec_rd32_of_not_hidden (r := .pbCapReg) (by simp [State.RegHidden])

/-! ## Reset and CLEAR (R52) -/

theorem Gens.of_nextAll (g : Gens) {r : Region} (hr : r ≠ .registers) : g.nextAll.of r = g.of r + 1 := by
  cases r <;> first | exact absurd rfl hr | rfl

/-- After a hard reset every mapped byte is UNSPEC anew (R52, R320). -/
theorem State.byteAt?_hardReset (s : State) {r : Region} (hr : r ≠ .registers) {a : Nat}
    (h : regionOf s.params a = some r) : s.hardReset.byteAt? a = some (Config.unspecByte (s.gens.of r + 1) a) := by
  rw [State.byteAt?_eq (s := s.hardReset) hr h, State.readByte_eq, State.hardReset_mem, Memory.get?_nil,
    State.hardReset_gens, Gens.of_nextAll _ hr]
  rfl

/-- Every register that is not hardwired reads 0 after a hard reset (R52). -/
theorem State.regWord_hardReset (s : State) {r : Reg} (h1 : r ≠ .id) (h2 : r ≠ .inCapReg) (h3 : r ≠ .pbCapReg) :
    s.hardReset.regWord r = 0 := by
  cases r
  case id => exact absurd rfl h1
  case inCapReg => exact absurd rfl h2
  case pbCapReg => exact absurd rfl h3
  all_goals rfl

/-- CLEAR leaves 0 in every register but CTRL that is not hardwired (R52, R254). -/
theorem State.regWord_clear (s : State) {r : Reg} (h1 : r ≠ .id) (h2 : r ≠ .inCapReg) (h3 : r ≠ .pbCapReg)
    (h4 : r ≠ .ctrl) : s.clear.regWord r = 0 := by
  cases r
  case id => exact absurd rfl h1
  case inCapReg => exact absurd rfl h2
  case pbCapReg => exact absurd rfl h3
  case ctrl => exact absurd rfl h4
  all_goals rfl

/-- Settles O14: the state after release is the hard reset's with `rst` down, and CLEAR's is `State.clear`. -/
theorem resetAndClearValues : Obligations.ResetAndClearValues := by
  refine fun s => ⟨fun ms hm => ?_, fun hb => ?_⟩
  · have ha : step s = .next s.popMove.hardReset := step_assertReset (by simp [nextTurn, hm])
    have hr : step s.popMove.hardReset = .next s.popMove.hardReset.popMove.releaseReset := by simp [step, nextTurn, hm]
    exact ⟨_, _, ha, hr, rfl, by simp [hm], rfl, rfl, rfl, fun r h1 h2 h3 => s.popMove.regWord_hardReset h1 h2 h3,
      rfl, rfl, fun r a hne h => s.popMove.byteAt?_hardReset hne h⟩
  · have hc : exec .clear s = .next s.clear := by rw [exec_clear, State.writeCmd_clearWord hb]
    exact ⟨_, hc, rfl, rfl, rfl, rfl, fun r h1 h2 h3 h4 => s.regWord_clear h1 h2 h3 h4, rfl, by simp [State.irq],
      fun a => rfl⟩

/-! ## Transactions while BUSY = 1 (R45, R46) -/

/-- A register write while BUSY changes at most CTRL and the bits DONE and WERR (R257, R260). -/
theorem State.writeRegister_busy {s : State} (hb : s.busy = true) (r : Reg) (v : Word) :
    ∃ ie done werr, s.writeRegister r v = { s with ie := ie, done := done, werr := werr } := by
  cases r
  case cmd | rawLen | ctCount | pbLen => exact ⟨s.ie, s.done, true, if_pos hb⟩
  all_goals exact ⟨_, _, _, rfl⟩

/-- What a write can do while BUSY: be answered, and change CTRL and the bits DONE and WERR (R257, R259, R260). -/
theorem State.hostWrite_busy {s : State} (hb : s.busy = true) (size : Nat) (o v : Word) :
    ∃ ie done werr x, s.hostWrite size o v =
      { s with ie := ie, done := done, werr := werr, responses := x :: s.responses } := by
  rcases s.hostWrite_cases size o v with ⟨-, he⟩ | ⟨r, -, -, -, -, he⟩ | ⟨r, -, -, -, -, he⟩
  · exact ⟨_, _, _, _, he⟩
  · obtain ⟨ie, done, werr, hw⟩ := State.writeRegister_busy hb r v
    rw [hw] at he
    exact ⟨_, _, _, _, he⟩
  · rw [State.writeWindow, if_pos hb] at he
    exact ⟨_, _, _, _, he⟩

/-- What a transaction can do while BUSY. -/
theorem exec_request_busy {s t : State} {r : Request} (hb : s.busy = true)
    (ht : exec (decodeRequest r) s = .next t) :
    ∃ ie done werr draws x,
      t = { s with ie := ie, done := done, werr := werr, draws := draws, responses := x :: s.responses } := by
  rcases decodeRequest_cases r with hd | hd | hd | hd <;> rw [hd] at ht <;> cases ht
  · obtain ⟨x, d, he, -⟩ := s.hostRead_cases 1 r.offset
    exact ⟨_, _, _, _, _, he⟩
  · obtain ⟨x, d, he, -⟩ := s.hostRead_cases 4 r.offset
    exact ⟨_, _, _, _, _, he⟩
  · obtain ⟨ie, done, werr, x, he⟩ := State.hostWrite_busy hb 1 r.offset ((r.data.extractLsb' 0 8).setWidth 32)
    exact ⟨_, _, _, _, _, he⟩
  · obtain ⟨ie, done, werr, x, he⟩ := State.hostWrite_busy hb 4 r.offset r.data
    exact ⟨_, _, _, _, _, he⟩

/-- Settles O36: none of the fields a transaction can change while BUSY is one a command reads. -/
theorem sourcesStableWhileBusy : Obligations.SourcesStableWhileBusy := by
  intro s t r hb ht
  obtain ⟨ie, done, werr, draws, x, rfl⟩ := exec_request_busy hb ht
  exact ⟨rfl, rfl, rfl, rfl, rfl, rfl, rfl, rfl, rfl, hb⟩

/-- A read of a hidden window answers fresh free values, whatever the bytes are (R45, R258). -/
theorem State.responses_hostRead_hidden {s : State} {r : Region} (h : s.RegionHidden r) {size : Nat} (hn : 0 < size)
    {o : Word} (hin : InWindow s.params r size o) :
    (s.hostRead size o).responses =
      .data (wordOfBytes ((List.range size).map fun i => Config.freeByte (s.draws + i))) :: s.responses := by
  rw [State.regionHidden_iff] at h
  rw [State.hostRead_window hn hin, State.readWindow, if_pos h]
  rfl

/-- Writing bytes changes neither what is hidden nor the draw numbers, so a hidden read answers the same. -/
theorem State.responses_hostRead_writeBytes {s : State} {r : Region} (h : s.RegionHidden r) {size : Nat}
    (hn : 0 < size) {o : Word} (hin : InWindow s.params r size o) (a : Nat) (bs : List Byte) :
    ((s.writeBytes a bs).hostRead size o).responses = (s.hostRead size o).responses := by
  have h' : (s.writeBytes a bs).RegionHidden r := h
  rw [State.responses_hostRead_hidden h' hn hin, State.responses_hostRead_hidden h hn hin]
  rfl

/-- Settles O40: the answer is a free value numbered by `draws`, which the bytes do not enter. -/
theorem busyReadsIgnoreDestination : Obligations.BusyReadsIgnoreDestination := fun _ _ _ bs h =>
  ⟨fun hin => ⟨_, _, rfl, rfl, State.responses_hostRead_writeBytes h (by decide) hin _ bs⟩,
    fun hin => ⟨_, _, rfl, rfl, State.responses_hostRead_writeBytes h (by decide) hin _ bs⟩⟩

end Sys2Proof.Machine
end

section
/-!
SUPPORT. The memory as the Host sees it: the address map range by range (R60, R61), what a read leaves alone and when it
repeats its response (R69, R70), a word written and read back (R66), and which instruction a step runs (R72).
-/

namespace Sys2Proof.Machine

/-! ## The address map (R60, R61) -/

/-- The map's answer for each range, by the range's bounds. -/
theorem regionOf_eq_some_iff_bounds {p : Params} (hp : p.wellFormed = true) {a : Nat} {r : Region} :
    regionOf p a = some r ↔ r.start ≤ a ∧ a < r.start + r.size p := by
  rw [regionOf_eq_some_iff hp, Region.covers_iff]

theorem Region.covers_eq_false_iff (p : Params) (r : Region) (a : Nat) :
    r.covers p a = false ↔ a < r.start ∨ r.start + r.size p ≤ a := by
  rw [← Bool.not_eq_true, Region.covers_iff]
  omega

theorem Region.forall_iff {P : Region → Prop} :
    (∀ r, P r) ↔ P .registers ∧ P .ftab ∧ P .ctab ∧ P .rawbuf ∧ P .dbuf ∧ P .pbuf :=
  ⟨fun h => ⟨h _, h _, h _, h _, h _, h _⟩, fun ⟨h0, h1, h2, h3, h4, h5⟩ r => by cases r <;> assumption⟩

/-- Settles O28: each range by its bounds; the gaps are what lies outside all six. -/
theorem addressMap : Obligations.AddressMap := by
  intro p a hp
  have hcap := (Params.wellFormed_iff p).1 hp
  simp only [regionOf_eq_some_iff_bounds hp, regionOf_eq_none_iff, Region.covers_eq_false_iff, Region.forall_iff,
    Region.start, Region.size]
  refine ⟨?_, ?_, ?_, ?_, ?_, ?_, ?_⟩ <;> omega

/-! ## Reads (R69, R70) -/

/-- Settles O37: by the one law of what a read can do, at both sizes. -/
theorem readsHaveNoSideEffects : Obligations.ReadsHaveNoSideEffects := by
  intro s o
  simp only [exec_rd8, exec_rd32, Host.Outcome.next.injEq]
  exact ⟨s.hostRead_cases 1 o, s.hostRead_cases 4 o⟩

/-- A response given changes nothing a read looks at, so a read that R45 does not cover repeats its own (R70). -/
theorem State.responses_hostRead_twice {s : State} {size : Nat} {o : Word} (h : ¬ s.ReadHidden size o) :
    ∃ x, (s.hostRead size o).responses = x :: s.responses ∧
      ((s.hostRead size o).hostRead size o).responses = x :: (s.hostRead size o).responses := by
  have again (x : Response) : ¬ (s.respond x).ReadHidden size o := h
  rw [State.hostRead_of_not_hidden h]
  exact ⟨_, rfl, congrArg State.responses (State.hostRead_of_not_hidden (again _))⟩

/-- Settles O38: at both sizes the second read repeats the first one's response. -/
theorem readsAreIdempotent : Obligations.ReadsAreIdempotent := by
  rintro s t u o i (⟨rfl, h⟩ | ⟨rfl, h⟩) ht hu <;> cases ht <;> cases hu
  · exact State.responses_hostRead_twice h
  · exact State.responses_hostRead_twice h

/-! ## Reading back what was written (R66) -/

theorem State.readWindow_of_not_busy {s : State} (hb : s.busy = false) (r : Region) (size a : Nat) :
    s.readWindow r size a = s.respond (.data (wordOfBytes (s.readBytes r a size))) := by
  simp [State.readWindow, State.busyDest, hb, Dest.region]

/-- The four bytes of a word do not wrap past the end of the offsets, since the word is aligned (R63). -/
theorem InWindow.toNat_byte {p : Params} {r : Region} {o : Word} (h : InWindow p r 4 o) {j : Nat} (hj : j < 4) :
    (o + BitVec.ofNat 32 j).toNat = o.toNat + j := by
  obtain ⟨-, -, aligned⟩ := h
  have := aligned rfl
  have := o.isLt
  rw [BitVec.toNat_add, BitVec.toNat_ofNat]
  omega

/-- Each byte of a word inside a window is a size-1 access inside it (R64). -/
theorem InWindow.byte {p : Params} {r : Region} {o : Word} (h : InWindow p r 4 o) {j : Nat} (hj : j < 4) :
    InWindow p r 1 (o + BitVec.ofNat 32 j) := by
  have ho := h.toNat_byte hj
  obtain ⟨hr, inside, -⟩ := h
  refine ⟨hr, fun i hi => ?_, by simp⟩
  rw [ho, Nat.lt_one_iff.1 hi]
  exact inside j hj

/-- RD8 in a window while BUSY = 0 answers the byte there (R258). -/
theorem exec_rd8_byte {s : State} (hb : s.busy = false) {r : Region} {o : Word} (h : InWindow s.params r 1 o)
    {b : Byte} (hr : s.readByte r o.toNat = b) : exec (.rd8 o) s = .next (s.respond (.data (b.setWidth 32))) := by
  rw [exec_rd8, State.hostRead_window (by decide) h, State.readWindow_of_not_busy hb, ← hr, ← wordOfBytes_singleton]
  rfl

/-- RD32 in a window while BUSY = 0 answers the word there (R258). -/
theorem exec_rd32_word {s : State} (hb : s.busy = false) {r : Region} {o : Word} (h : InWindow s.params r 4 o)
    {v : Word} (hr : s.readWord r o.toNat = v) : exec (.rd32 o) s = .next (s.respond (.data v)) := by
  rw [exec_rd32, State.hostRead_window (by decide) h, State.readWindow_of_not_busy hb, ← hr, State.readWord]

/-- The word written is the word read (R66). -/
theorem State.readWord_writeBytes (s : State) (r : Region) (a : Nat) (v : Word) :
    (s.writeBytes a (bytesOfWord 4 v)).readWord r a = v := by
  have h := s.readBytes_writeBytes r a (bytesOfWord 4 v)
  rw [length_bytesOfWord] at h
  rw [State.readWord, h, wordOfBytes_bytesOfWord]

/-- Byte j of the word written is the byte read at its place (R66). -/
theorem State.readByte_writeBytes_word (s : State) (r : Region) (a : Nat) (v : Word) {j : Nat} (hj : j < 4) :
    (s.writeBytes a (bytesOfWord 4 v)).readByte r (a + j) = v.extractLsb' (8 * j) 8 := by
  rw [State.readByte_writeBytes_in s r a _ (by simpa using hj)]
  simp [bytesOfWord]

/-- What WR32 in a writable window leaves while BUSY = 0: the word there, each byte of it at its place (R66, R259). -/
theorem exec_wr32_window {s : State} (hb : s.busy = false) {r : Region} (hw : r.writable = true) {o : Word}
    (h : InWindow s.params r 4 o) (v : Word) :
    ∃ t, exec (.wr32 o v) s = .next t ∧ t.busy = false ∧ t.params = s.params ∧ t.readWord r o.toNat = v ∧
      ∀ j < 4, t.readByte r (o.toNat + j) = v.extractLsb' (8 * j) 8 := by
  refine ⟨(s.writeBytes o.toNat (bytesOfWord 4 v)).respond .ok, ?_, hb, rfl, s.readWord_writeBytes r o.toNat v,
    fun j hj => s.readByte_writeBytes_word r o.toNat v hj⟩
  simp [State.hostWrite_window hw (by decide) h, State.writeWindow, hb]

/-- Settles O39: the write leaves the word in the window, and reads of both sizes answer what stands there. -/
theorem littleEndianReadBack : Obligations.LittleEndianReadBack := by
  intro s r o v hr hb hin
  have hw : r.writable = true := by rcases hr with rfl | rfl | rfl <;> rfl
  obtain ⟨t, ht, hbt, hpt, word, byte⟩ := exec_wr32_window hb hw hin v
  rw [← hpt] at hin
  exact ⟨t, ht, exec_rd32_word hbt hin word, fun j hj =>
    exec_rd8_byte hbt (hin.byte hj) ((congrArg (t.readByte r) (hin.toNat_byte hj)).trans (byte j hj))⟩

/-! ## The instruction a step runs (R72, R252, R255) -/

theorem State.popMove_of_moves {s : State} {m : Move} {ms : List Move} (h : s.moves = m :: ms) :
    s.popMove = { s with moves := ms } := by rw [State.popMove, h, List.tail_cons]

theorem State.popMove_of_nil {s : State} (h : s.moves = []) : s.popMove = s := by
  rw [State.popMove, h, List.tail_nil, ← h]

/-- The completion of a word that decodes runs its instruction (R252). -/
theorem step_completion_ok {s : State} {w : Word} {i : Instr} (h : nextTurn s = .completion w)
    (hi : decodeCmd w = .ok i) : step s = exec i s.popMove := by simp [step, h, hi]

/-- Settles O5: the turn read from `moves`, then the step of that turn. -/
theorem stepRunsDecodedInstruction : Obligations.StepRunsDecodedInstruction := by
  refine ⟨fun s r ms hr hm => ?_, fun s ms w i hr hm hp hi => ?_, fun s w i hr hm hp hi => ?_⟩
  · rw [← State.popMove_of_moves hm]
    exact State.NextIs.step_eq ⟨r, by simp [nextTurn, hm, hr], rfl⟩
  · rw [← State.popMove_of_moves hm]
    exact step_completion_ok (by simp [nextTurn, hm, hr, hp]) hi
  · conv_rhs => rw [← State.popMove_of_nil hm]
    exact step_completion_ok (by simp [nextTurn, hm, hr, hp]) hi

end Sys2Proof.Machine
end

section
/-!
SUPPORT. Encodings (R90 to R96, R107): the numbered bits of an encoding read back, decoder and encoder inverse to
each other, and what an illegal command word does.
-/

namespace Sys2Proof

/-! ## The decoder inverts the encoder -/

theorem decode_encode (i : Instr) : decode (encode i) = .ok i := by
  cases i with
  | analyze | build | encode | decode | clear | rd8 | rd32 | wr32 => rfl
  | wr8 o b => exact congrArg (fun x => Except.ok (Instr.wr8 o x)) (extractByte_setWidth b)

/-- OFFSET and DATA stand above KIND without overlap, so the bit places of a request give each field back. -/
theorem Encoding.ofNat_toNat (e : Encoding) : Encoding.ofNat e.nbits e.toNat = .ok e := by
  cases e with
  | command w =>
    rw [Encoding.nbits, Encoding.toNat, Encoding.ofNat, if_pos rfl, if_pos w.isLt, BitVec.ofNat_toNat,
      BitVec.setWidth_eq]
  | bus r =>
    obtain ⟨kind, offset, data⟩ := r
    have hk := kind.isLt
    have ho := offset.isLt
    have hd := data.isLt
    have kindBits : BitVec.ofNat 2 (Encoding.bus ⟨kind, offset, data⟩).toNat = kind :=
      BitVec.eq_of_toNat_eq (by simp only [Encoding.toNat, BitVec.toNat_ofNat]; omega)
    have offsetBits : BitVec.ofNat 32 ((Encoding.bus ⟨kind, offset, data⟩).toNat / 2 ^ 2) = offset :=
      BitVec.eq_of_toNat_eq (by simp only [Encoding.toNat, BitVec.toNat_ofNat]; omega)
    have dataBits : BitVec.ofNat 32 ((Encoding.bus ⟨kind, offset, data⟩).toNat / 2 ^ 34) = data :=
      BitVec.eq_of_toNat_eq (by simp only [Encoding.toNat, BitVec.toNat_ofNat]; omega)
    have inRange : (Encoding.bus ⟨kind, offset, data⟩).toNat < 2 ^ 66 := by
      simp only [Encoding.toNat]; omega
    rw [Encoding.nbits, Encoding.ofNat, if_neg (by decide), if_pos inRange, kindBits, offsetBits, dataBits]

theorem decodeTableWord_eq_some {nbits w : Nat} {e : Encoding} {i : Instr} (he : Encoding.ofNat nbits w = .ok e)
    (hi : decode e = .ok i) : decodeTableWord nbits w = some i := by
  simp [decodeTableWord, he, hi]

/-- Settles O1: the numbered bits read back as the encoding, and the encoding decodes to its instruction. -/
theorem decodeOfEncodedBits : Obligations.DecodeOfEncodedBits := fun i =>
  decodeTableWord_eq_some (Encoding.ofNat_toNat (encode i)) (decode_encode i)

/-! ## Command words (R92, R93, R107) -/

/-- R107: a word decodes to an instruction exactly when it is the word R92 gives that instruction. -/
theorem decodeCmd_eq_ok_iff {w : Word} {i : Instr} : decodeCmd w = .ok i ↔ encode i = .command w := by
  constructor
  · intro h
    rcases decodeCmd_cases w with ⟨rfl, hd⟩ | ⟨rfl, hd⟩ | ⟨rfl, hd⟩ | ⟨rfl, hd⟩ | ⟨rfl, hd⟩ | ⟨-, hd⟩ <;>
      cases hd.symm.trans h <;> rfl
  · intro h
    have hd := decode_encode i
    rwa [h] at hd

/-- R93: every word that is none of R92's five is illegal. -/
theorem exists_decodeCmd_eq_error_iff {w : Word} : (∃ e, decodeCmd w = .error e) ↔
    w ≠ analyzeWord ∧ w ≠ buildWord ∧ w ≠ encodeWord ∧ w ≠ decodeWord ∧ w ≠ clearWord := by
  constructor
  · rintro ⟨e, he⟩
    refine ⟨?_, ?_, ?_, ?_, ?_⟩ <;> rintro rfl <;> cases he
  · rintro ⟨h1, h2, h3, h4, h5⟩
    exact ⟨.illegalCommand w, by simp only [decodeCmd, if_neg h1, if_neg h2, if_neg h3, if_neg h4, if_neg h5]⟩

/-- Settles O3: a word decodes to the command whose encoding it is, and to none when it is no command's. -/
theorem commandWordOutcomes : Obligations.CommandWordOutcomes := fun w => by
  simp only [decodeCmd_eq_ok_iff, exists_decodeCmd_eq_error_iff, encode, Encoding.command.injEq, eq_comm (b := w),
    and_self]

/-! ## Bus requests (R96) -/

theorem kind_cases (k : BitVec 2) : k = 0b00#2 ∨ k = 0b01#2 ∨ k = 0b10#2 ∨ k = 0b11#2 := by
  revert k; decide

/-- DATA with no bit above 7:0 is its low byte widened. -/
theorem setWidth_extractByte {d : Word} (h : d.extractLsb' 8 24 = 0#24) : (d.extractLsb' 0 8).setWidth 32 = d := by
  have hd := d.isLt
  have hz := congrArg BitVec.toNat h
  simp only [BitVec.extractLsb'_toNat, Nat.shiftRight_eq_div_pow, BitVec.toNat_ofNat] at hz
  refine BitVec.eq_of_toNat_eq ?_
  simp only [BitVec.toNat_setWidth, BitVec.extractLsb'_toNat, Nat.shiftRight_zero]
  omega

/-- A request that sets no unused bit is what the encoder gives for its transaction. -/
theorem encode_decodeRequest {r : Request} (h : r.wellFormed = true) : encode (decodeRequest r) = .bus r := by
  obtain ⟨kind, offset, data⟩ := r
  rcases kind_cases kind with rfl | rfl | rfl | rfl
  · have hz : data = 0 := by simpa [Request.wellFormed] using h
    simp [encode, hz]
  · have hz : data = 0 := by simpa [Request.wellFormed] using h
    simp [encode, hz]
  · have hz : data.extractLsb' 8 24 = 0#24 := by simpa [Request.wellFormed] using h
    simp only [decodeRequest_wr8, encode, setWidth_extractByte hz]
  · rfl

theorem encode_of_decode {e : Encoding} {i : Instr} (hw : e.wellFormed = true) (h : decode e = .ok i) :
    encode i = e := by
  cases e with
  | command w => exact decodeCmd_eq_ok_iff.1 h
  | bus r => cases h; exact encode_decodeRequest hw

theorem extractByte_eq_ofNat (d : Word) : d.extractLsb' 0 8 = BitVec.ofNat 8 (d.toNat % 2 ^ 8) :=
  BitVec.eq_of_toNat_eq (by simp [BitVec.extractLsb'_toNat])

/-- Settles O2: per format, the encoding of what it decodes to; and the decoder on each KIND with any DATA. -/
theorem encodeOfDecoded : Obligations.EncodeOfDecoded :=
  ⟨fun _ _ => encode_of_decode, fun o d => ⟨rfl, rfl, by rw [← extractByte_eq_ofNat]; rfl, rfl⟩⟩

/-- Settles O4: the decoder evaluated on each word. -/
theorem specWordsDecode : Obligations.SpecWordsDecode :=
  ⟨rfl, rfl, rfl, rfl, rfl, rfl, rfl, rfl, rfl, rfl⟩

namespace Machine

/-! ## An illegal command word (R93, R250, R252) -/

theorem exec_wr32_cmd (s : State) (w : Word) : exec (.wr32 0x010#32 w) s = .next ((s.writeCmd w).respond .ok) :=
  exec_wr32_register (r := .cmd) s rfl w

/-- The completion of a word that decodes to nothing is Fault(ILLEGAL_CMD) (R93). -/
theorem step_completion_error {s : State} {w : Word} {e : DecodeError} (h : nextTurn s = .completion w)
    (he : decodeCmd w = .error e) : step s = .next s.popMove.completeIllegal := by simp [step, h, he]

/-- Settles O9: the CMD write's cases of issue and rejection, and the completion of a word that decodes to nothing. -/
theorem illegalWordFaults : Obligations.IllegalWordFaults := by
  intro s w h1 h2 h3 h4 h5
  obtain ⟨e, he⟩ := exists_decodeCmd_eq_error_iff.2 ⟨h1, h2, h3, h4, h5⟩
  refine ⟨fun hb herr => ?_, fun hb herr => ?_, fun ms hr hm hp => ?_⟩
  · rw [exec_wr32_cmd, State.writeCmd_of_not_err hb h5 herr]; rfl
  · rw [exec_wr32_cmd, State.writeCmd_of_err hb h5 herr]; rfl
  · rw [step_completion_error (by simp [nextTurn, hm, hr, hp]) he, State.popMove_of_moves hm]; rfl

end Machine

end Sys2Proof
end

section
/-!
SUPPORT. The FrequencyAnalyzer (R131 to R135): the FrequencyList as FTAB holds it after ANALYZE, and the run's outcomes
in the words of the statements.
-/

namespace Sys2Proof.Machine

/-! ## The FrequencyList against its input (R131 to R133) -/

/-- The list is no longer than the input: its symbols are distinct bytes of the input. -/
theorem length_frequencyList_le_input (raw : List Byte) : (frequencyList raw).length ≤ raw.length := by
  rw [length_frequencyList]
  exact (List.subperm_of_subset (nodup_firstSeen raw) fun y hy => (mem_firstSeen raw y).1 hy).length_le

theorem mem_input_iff_mem_frequencyList (raw : List Byte) (x : Byte) :
    x ∈ raw ↔ ∃ e ∈ frequencyList raw, e.sym = x := by
  constructor
  · exact fun hx => ⟨⟨x, raw.count x⟩, (mem_frequencyList raw _).2 ⟨hx, rfl⟩, rfl⟩
  · rintro ⟨e, he, rfl⟩
    exact ((mem_frequencyList raw e).1 he).1

/-- Counts are at least 1 (R9). -/
theorem one_le_cnt_of_mem_frequencyList {raw : List Byte} {e : FreqEntry} (he : e ∈ frequencyList raw) :
    1 ≤ e.cnt := by
  obtain ⟨hmem, hcnt⟩ := (mem_frequencyList raw e).1 he
  rw [hcnt]
  exact List.count_pos_iff.2 hmem

theorem cnt_le_length_of_mem_frequencyList {raw : List Byte} {e : FreqEntry} (he : e ∈ frequencyList raw) :
    e.cnt ≤ raw.length := by
  rw [((mem_frequencyList raw e).1 he).2]
  exact List.count_le_length

@[simp] theorem State.length_rawInput (s : State) (n : Nat) : (s.rawInput n).length = n := State.length_readBytes ..

/-! ## A FrequencyList in FTAB (R100, R134) -/

/-- Between the symbol and the count of an entry stand three zeros (R100). -/
theorem FreqEntry.getElem_bytes_pad (e : FreqEntry) {j : Nat} (h1 : 1 ≤ j) (h3 : j ≤ 3) :
    e.bytes[j]'(by rw [e.length_bytes]; omega) = 0 := by
  obtain rfl | rfl | rfl : j = 1 ∨ j = 2 ∨ j = 3 := by omega
  all_goals rfl

/-- Byte j of entry k stands in FTAB at offset j of FT[k]. -/
theorem State.readByte_writeBytes_freqEntry (s : State) (fl : List FreqEntry) {k j : Nat} (hk : k < fl.length)
    (hj : j < 8) : (s.writeBytes (ftabEntry 0) (fl.flatMap FreqEntry.bytes)).readByte .ftab (ftabEntry k + j) =
      fl[k].bytes[j]'(by rw [FreqEntry.length_bytes]; exact hj) := by
  rw [← s.readByte_writeBytes_block .ftab (ftabEntry 0) FreqEntry.bytes 8 fl (fun e _ => e.length_bytes) hk hj,
    ftabEntry, ftabEntry, Nat.mul_zero, Nat.add_zero, Nat.add_assoc]

/-- `t` holds the list `fl` in FT[0..FT_COUNT), in the byte format of R100, and from there on the bytes of `s`. -/
structure State.FreqListWritten (s t : State) (fl : List FreqEntry) : Prop where
  count : t.ftCount.val = fl.length
  entry : ∀ k (hk : k < fl.length), t.freqEntry k = fl[k]
  pad : ∀ k < fl.length, ∀ j, 1 ≤ j → j ≤ 3 → t.readByte .ftab (ftabEntry k + j) = 0
  rest : ∀ a, ftabEntry fl.length ≤ a → t.byteAt? a = s.byteAt? a

/-- ANALYZE's two writes, FTAB's bytes and FT_COUNT, put the list there (R134). -/
theorem State.freqListWritten_writeBytes (s : State) {fl : List FreqEntry} (hlen : fl.length ≤ 256)
    (hcnt : ∀ e ∈ fl, e.cnt < 2 ^ 32) :
    State.FreqListWritten s { s.writeBytes (ftabEntry 0) (fl.flatMap FreqEntry.bytes) with
      ftCount := Fin.ofNat 257 fl.length } fl where
  count := Nat.mod_eq_of_lt (by omega)
  entry _ hk := s.freqEntry_writeBytes fl hk (hcnt _ (List.getElem_mem hk))
  pad _ hk _ h1 h3 := (s.readByte_writeBytes_freqEntry fl hk (by omega)).trans (FreqEntry.getElem_bytes_pad _ h1 h3)
  rest a ha := by
    refine s.byteAt?_writeBytes_out _ _ fun hin => ?_
    rw [length_flatMap_block _ 8 _ fun e _ => e.length_bytes] at hin
    simp only [ftabEntry] at ha hin
    omega

namespace State.FreqListWritten

variable {s t : State} {fl : List FreqEntry}

/-- The end of the completion touches neither FTAB nor FT_COUNT (R252). -/
theorem finish (h : FreqListWritten s t fl) : FreqListWritten s t.finish fl := ⟨h.count, h.entry, h.pad, h.rest⟩

theorem exists_entry_iff (h : FreqListWritten s t fl) (p : FreqEntry → Prop) :
    (∃ k < t.ftCount.val, p (t.freqEntry k)) ↔ ∃ e ∈ fl, p e := by
  rw [h.count]
  constructor
  · rintro ⟨k, hk, hp⟩
    exact ⟨_, List.getElem_mem hk, h.entry k hk ▸ hp⟩
  · rintro ⟨e, he, hp⟩
    obtain ⟨k, hk, rfl⟩ := List.mem_iff_getElem.1 he
    exact ⟨k, hk, (h.entry k hk).symm ▸ hp⟩

theorem entry_mem (h : FreqListWritten s t fl) {k : Nat} (hk : k < t.ftCount.val) : t.freqEntry k ∈ fl := by
  rw [h.count] at hk
  exact h.entry k hk ▸ List.getElem_mem hk

/-- What holds along the list holds along FT. -/
theorem entry_rel (h : FreqListWritten s t fl) {r : FreqEntry → FreqEntry → Prop} (hr : fl.Pairwise r) {j k : Nat}
    (hjk : j < k) (hk : k < t.ftCount.val) : r (t.freqEntry j) (t.freqEntry k) := by
  rw [h.count] at hk
  rw [h.entry j (hjk.trans hk), h.entry k hk]
  exact List.pairwise_iff_getElem.1 hr j k _ _ hjk

end State.FreqListWritten

/-! ## How ANALYZE completes (R134, R135) -/

theorem exec_analyze_of_error {s : State} {c : Cause} (h : analyzeRun s = .error c) :
    ∃ t, exec .analyze s = .next t ∧ State.FaultTaken .frequency c s t :=
  ⟨_, by rw [exec_analyze, h], s.faultTaken_complete .frequency c⟩

/-- With 1 ≤ RAW_LEN ≤ IN_CAP, ANALYZE completes without fault and leaves the input's FrequencyList. -/
theorem exec_analyze_completes {s : State} (h1 : 1 ≤ s.rawLen.toNat) (h2 : s.rawLen.toNat ≤ s.params.inCap) :
    ∃ t, exec .analyze s = .next t ∧ State.Completed .frequency s t ∧
      State.FreqListWritten s t (frequencyList (s.rawInput s.rawLen.toNat)) := by
  have hcnt : ∀ e ∈ frequencyList (s.rawInput s.rawLen.toNat), e.cnt < 2 ^ 32 := fun e he =>
    calc e.cnt ≤ (s.rawInput s.rawLen.toNat).length := cnt_le_length_of_mem_frequencyList he
      _ = s.rawLen.toNat := s.length_rawInput _
      _ < 2 ^ 32 := s.rawLen.isLt
  obtain ⟨h0, -⟩ | ⟨-, hcap, -⟩ | ⟨-, -, hrun⟩ := analyzeRun_eq s
  · omega
  · omega
  · exact ⟨_, by rw [exec_analyze, hrun, State.complete_ok], (analyzeRun_ranOk hrun).completed,
      (s.freqListWritten_writeBytes (length_frequencyList_le _) hcnt).finish⟩

/-- Settles O42: the two checks of the run in their order, each with fault entry, and its success otherwise. -/
theorem analyzeFaults : Obligations.AnalyzeFaults := by
  intro s
  refine ⟨fun h0 => ?_, fun h0 hcap => ?_, fun h1 h2 => ?_⟩
  · exact exec_analyze_of_error (by simp [analyzeRun, h0])
  · exact exec_analyze_of_error (by simp [analyzeRun, h0, hcap])
  · obtain ⟨t, ht, completed, -⟩ := exec_analyze_completes h1 h2
    exact ⟨t, ht, completed⟩

/-- Settles O41: FT holds the input's FrequencyList, whose members, order and length are known. -/
theorem analyzeWritesFrequencyList : Obligations.AnalyzeWritesFrequencyList := by
  intro s _ h1 h2
  obtain ⟨t, ht, completed, written⟩ := exec_analyze_completes h1 h2
  have hne : s.rawInput s.rawLen.toNat ≠ [] := List.ne_nil_of_length_pos (by rw [s.length_rawInput]; exact h1)
  refine ⟨t, ht, completed, fun x => ?_, fun k hk => ?_, fun j k hjk hk => ?_, ⟨?_, ?_⟩, ?_, ?_⟩
  · rw [written.exists_entry_iff (·.sym = x)]
    exact mem_input_iff_mem_frequencyList _ x
  · have hmem := written.entry_mem hk
    exact ⟨((mem_frequencyList _ _).1 hmem).2, one_le_cnt_of_mem_frequencyList hmem⟩
  · exact written.entry_rel (sorted_frequencyList _) hjk hk
  · rw [written.count]
    exact List.length_pos_iff.2 (frequencyList_ne_nil hne)
  · rw [written.count]
    exact le_min (length_frequencyList_le _)
      ((length_frequencyList_le_input _).trans_eq (s.length_rawInput _))
  · rw [written.count]
    exact written.pad
  · rw [written.count]
    exact written.rest

end Sys2Proof.Machine
end

section
/-!
SUPPORT. SPLIT and the tree of ASSIGN (R151 to R156, R158, R159, R163): the statements about the codes of a list of
counts, which no state enters.
-/

namespace Sys2Proof.Machine

/-! ## SPLIT (R151 to R153) -/

/-- The imbalance of candidate `j`, in the integers in which the statements write it. -/
theorem natCast_candidate (cs : List Nat) (j : Nat) :
    (candidate cs.sum 0 cs j : Int) =
      |((cs.take (j + 1)).sum : Int) - ((cs.sum : Int) - ((cs.take (j + 1)).sum : Int))| := by
  rw [candidate, Nat.zero_add, imbalance, Int.natCast_natAbs]

/-- Settles O43: the loop's result is a candidate, least among the candidates and less than every earlier one. -/
theorem splitIsSmallestBalanced : Obligations.SplitIsSmallestBalanced := by
  intro cs d h2 hd
  obtain ⟨hlt, hleast, hfirst⟩ := split_spec h2
  simp only [hd, ← natCast_candidate, Nat.cast_le, Nat.cast_lt]
  exact ⟨by omega, fun j hj => hleast j (by omega), hfirst⟩

/-! ## ASSIGN's tree (R154) -/

/-- Both halves of a split are non-empty and shorter than the whole (R152). -/
theorem split_halves {cs : List Nat} (h : 2 ≤ cs.length) :
    (1 ≤ (cs.take (split cs + 1)).length ∧ (cs.take (split cs + 1)).length < cs.length) ∧
    1 ≤ (cs.drop (split cs + 1)).length ∧ (cs.drop (split cs + 1)).length < cs.length := by
  obtain ⟨hlt, -⟩ := split_spec h
  simp only [List.length_take, List.length_drop]
  omega

/-- With enough fuel ASSIGN gives the tree of the spec's recursion. -/
theorem assignTree_assign {fuel : Nat} {cs : List Nat} (h1 : 1 ≤ cs.length) (hf : cs.length ≤ fuel + 1)
    (path : List Bool) : AssignTree cs path (assign fuel cs path) := by
  induction fuel generalizing cs path with
  | zero =>
    obtain ⟨c, rfl⟩ := List.length_eq_one_iff.1 (Nat.le_antisymm hf h1)
    exact .leaf c path
  | succ fuel ih =>
    obtain rfl | ⟨c, rfl⟩ | h2 := counts_cases cs
    · cases h1
    · rw [assign_singleton]
      exact .leaf c path
    · obtain ⟨⟨hl1, hl⟩, hr1, hr⟩ := split_halves h2
      rw [assign_succ fuel h2]
      exact .node cs path _ _ h2 (ih hl1 (by omega) _) (ih hr1 (by omega) _)

theorem assignTree_buildCodes (single : Bool) {cs : List Nat} (h : 2 ≤ cs.length) :
    AssignTree cs [] (buildCodes single cs) := by
  rw [buildCodes_of_two_le single h]
  exact assignTree_assign (by omega) (by omega) []

/-- Settles O44: a lone symbol's code by definition, the others by the tree. -/
theorem buildCodesFollowAssign : Obligations.BuildCodesFollowAssign :=
  ⟨buildCodes_singleton, fun single _ h => assignTree_buildCodes single h⟩

/-! ## Completeness (R159) -/

/-- Below a node at `path` the tree covers every bit sequence that goes on from there for as many bits as the tree can
be deep. -/
theorem AssignTree.exists_isPrefix {cs : List Nat} {path : List Bool} {codes : List (List Bool)}
    (tree : AssignTree cs path codes) {bits : List Bool} (hp : path <+: bits)
    (hlen : path.length + cs.length ≤ bits.length + 1) : ∃ c ∈ codes, c <+: bits := by
  induction tree with
  | leaf c path => exact ⟨path, List.mem_singleton_self path, hp⟩
  | node cs path l r h2 _ _ ihl ihr =>
    obtain ⟨rest, rfl⟩ := hp
    obtain ⟨⟨-, hl⟩, -, hr⟩ := split_halves h2
    match rest with
    | [] => rw [List.append_nil] at hlen; omega
    | b :: rest =>
      have next : path ++ [b] <+: path ++ b :: rest := ⟨rest, by simp⟩
      have fits : ∀ m < cs.length, (path ++ [b]).length + m ≤ (path ++ b :: rest).length + 1 := fun m hm => by
        simp only [List.length_append, List.length_cons, List.length_nil] at hlen ⊢
        omega
      cases b
      · obtain ⟨c, hc, hpre⟩ := ihl next (fits _ hl)
        exact ⟨c, List.mem_append_left r hc, hpre⟩
      · obtain ⟨c, hc, hpre⟩ := ihr next (fits _ hr)
        exact ⟨c, List.mem_append_right l hc, hpre⟩

/-- Two codes of BUILD that both begin one bit sequence are one code (R158). -/
theorem buildCodes_index_unique {single : Bool} {cs : List Nat} {j k : Nat} {c d : List Bool}
    (hj : (buildCodes single cs)[j]? = some c) (hk : (buildCodes single cs)[k]? = some d) (h : c <+: d) : j = k := by
  obtain ⟨hj', rfl⟩ := List.getElem?_eq_some_iff.1 hj
  obtain ⟨hk', rfl⟩ := List.getElem?_eq_some_iff.1 hk
  have free := List.pairwise_iff_getElem.1 (buildCodes_prefixFree single cs)
  rcases Nat.lt_trichotomy j k with hlt | heq | hgt
  · exact absurd h (free j k hj' hk' hlt).1
  · exact heq
  · exact absurd h (free k j hk' hj' hgt).2

/-- The codes below a node share its path's part of Kraft's sum: each split halves it. -/
theorem AssignTree.kraft {cs : List Nat} {path : List Bool} {codes : List (List Bool)}
    (tree : AssignTree cs path codes) :
    (codes.map fun c => (1 / 2 : Rat) ^ c.length).sum = (1 / 2) ^ path.length := by
  induction tree with
  | leaf c path => simp
  | node cs path l r _ _ _ ihl ihr =>
    rw [List.map_append, List.sum_append, ihl, ihr, List.length_append, List.length_append, List.length_singleton,
      List.length_singleton, pow_succ]
    ring

/-- Settles O48: each split shares out Kraft's sum, and the tree covers every long enough bit sequence once. -/
theorem buildCodeComplete : Obligations.BuildCodeComplete := by
  refine fun single cs => ⟨fun h1 => ?_, fun h2 => ?_, fun h2 h256 bits hbits => ?_⟩
  · obtain ⟨c, rfl⟩ := List.length_eq_one_iff.1 h1
    simp [buildCodes_singleton]
  · simpa using (assignTree_buildCodes single h2).kraft
  · obtain ⟨c, hc, hpre⟩ := (assignTree_buildCodes single h2).exists_isPrefix (bits := bits) List.nil_prefix
      (by rw [List.length_nil]; omega)
    obtain ⟨k, hk⟩ := List.mem_iff_getElem?.1 hc
    refine ⟨k, c, hk, hpre, fun j c' hj hpre' => ?_⟩
    rcases List.prefix_or_prefix_of_prefix hpre' hpre with h | h
    · exact buildCodes_index_unique hj hk h
    · exact (buildCodes_index_unique hk hj h).symm

end Sys2Proof.Machine
end

section
/-!
SUPPORT. The command BUILD: the table it leaves in CTAB (R157, R158, R156) and its one fault (R160).
-/

namespace Sys2Proof.Machine

/-! ## A CodeTable in CTAB (R101, R102, R157) -/

/-- Between the length and the code field of an entry stand thirty zeros (R101). -/
theorem CodeEntry.getElem_bytes_rsv (e : CodeEntry) {j : Nat} (h2 : 2 ≤ j) (h31 : j ≤ 31) (h : j < e.bytes.length) :
    e.bytes[j] = 0 := by
  simp only [CodeEntry.bytes, List.append_assoc]
  rw [List.getElem_append_right (by simpa using h2), List.getElem_append_left (by simp; omega),
    List.getElem_replicate]

/-- `t` holds `table` in CT[0..CT_COUNT), in the byte format of R101 and R102 with zeros in every reserved byte and
unused code bit, and from there on the bytes of `s`. -/
structure State.CodeTableWritten (s t : State) (table : List CodeEntry) : Prop where
  count : t.ctCount.toNat = table.length
  entry : ∀ k (hk : k < table.length), t.codeEntry k = table[k]
  rsv : ∀ k < table.length, ∀ j, 2 ≤ j → j ≤ 31 → t.readByte .ctab (ctabEntry k + j) = 0
  bits : ∀ k (hk : k < table.length), ∀ j ≤ 255, t.codeBit k j = table[k].code.getD j false
  rest : ∀ a, ctabEntry table.length ≤ a → t.byteAt? a = s.byteAt? a

/-- BUILD's two writes, CTAB's bytes and CT_COUNT, put the table there (R154, R157). -/
theorem State.codeTableWritten_writeBytes (s : State) {table : List CodeEntry} (hlen : table.length ≤ 256)
    (hcode : ∀ e ∈ table, e.code.length ≤ 255) :
    State.CodeTableWritten s { s.writeBytes (ctabEntry 0) (table.flatMap CodeEntry.bytes) with
      ctCount := BitVec.ofNat 32 table.length } table := by
  have hfit : ∀ e ∈ table, e.code.length ≤ 256 := fun e he => (hcode e he).trans (by omega)
  refine ⟨?_, fun k hk => s.codeEntry_writeBytes hcode hk, fun k hk j h2 h31 => ?_,
    fun k hk j hj => s.codeBit_writeBytes hfit hk (by omega), fun a ha => ?_⟩
  · rw [BitVec.toNat_ofNat, Nat.mod_eq_of_lt (by omega)]
  · exact (s.readByte_codeEntry_writeBytes hfit hk (by omega)).trans (CodeEntry.getElem_bytes_rsv _ h2 h31 _)
  · refine s.byteAt?_writeBytes_out _ _ fun hin => ?_
    rw [length_flatMap_block _ 64 _ fun e he => CodeEntry.length_bytes (hfit e he)] at hin
    simp only [ctabEntry] at ha hin
    omega

/-- The end of the completion touches neither CTAB nor CT_COUNT (R252). -/
theorem State.CodeTableWritten.finish {s t : State} {table : List CodeEntry} (h : CodeTableWritten s t table) :
    CodeTableWritten s t.finish table :=
  ⟨h.count, h.entry, h.rsv, h.bits, h.rest⟩

/-! ## How BUILD completes (R154, R160) -/

/-- The codes BUILD gives the entries FT[0..FT_COUNT) of a state. -/
def State.builtCodes (s : State) : List (List Bool) :=
  buildCodes s.params.singleCodeBit ((s.freqTable s.ftCount.val).map (·.cnt))

/-- The table BUILD makes of FT[0..FT_COUNT). -/
def State.builtTable (s : State) : List CodeEntry :=
  buildTable s.params.singleCodeBit (s.freqTable s.ftCount.val)

@[simp] theorem State.length_builtCodes (s : State) : s.builtCodes.length = s.ftCount.val := by
  simp [State.builtCodes]

@[simp] theorem State.length_builtTable (s : State) : s.builtTable.length = s.ftCount.val := by
  simp [State.builtTable]

theorem State.getElem_builtTable (s : State) {k : Nat} (h : k < s.builtTable.length) :
    s.builtTable[k] = ⟨(s.freqEntry k).sym, s.builtCodes[k]'(by simpa using h)⟩ := by
  simp [State.builtTable, State.builtCodes, getElem_buildTable]

/-- With FT_COUNT ≥ 1, BUILD completes without fault and leaves its table in CTAB. -/
theorem exec_build_completes {s : State} (h : 1 ≤ s.ftCount.val) :
    ∃ t, exec .build s = .next t ∧ State.Completed .codeTable s t ∧ State.CodeTableWritten s t s.builtTable := by
  obtain ⟨h0, -⟩ | ⟨-, hrun⟩ := buildRun_eq s
  · omega
  · have hlen : s.builtTable.length ≤ 256 := by rw [s.length_builtTable]; omega
    have written := s.codeTableWritten_writeBytes hlen fun e he => (buildTable_length_le (by simp; omega) he).2
    rw [s.length_builtTable] at written
    exact ⟨_, by rw [exec_build, hrun, State.complete_ok], (buildRun_ranOk hrun).completed, written.finish⟩

/-- Settles O49: fault entry when FT_COUNT is 0, as reset and CLEAR leave it, and success otherwise. -/
theorem buildFaults : Obligations.BuildFaults := by
  refine ⟨rfl, fun s t hb ht => ?_, fun s => ⟨fun h0 => ?_, fun h => ?_⟩⟩
  · rw [exec_clear, State.writeCmd_clearWord hb] at ht
    cases ht
    rfl
  · have hrun : buildRun s = .error .emptyFreq := by simp [buildRun, h0]
    exact ⟨_, by rw [exec_build, hrun], s.faultTaken_complete .codeTable .emptyFreq⟩
  · obtain ⟨t, ht, completed, -⟩ := exec_build_completes (Nat.one_le_iff_ne_zero.2 h)
    exact ⟨t, ht, completed⟩

/-! ## Reading BUILD's table back -/

namespace State.CodeTableWritten

variable {s t : State} {k : Nat}

theorem codeEntry_eq (h : CodeTableWritten s t s.builtTable) (hk : k < s.ftCount.val) :
    t.codeEntry k = ⟨(s.freqEntry k).sym, s.builtCodes[k]'(by simpa using hk)⟩ :=
  (h.entry k (by simpa using hk)).trans (s.getElem_builtTable _)

theorem codeLen_eq (h : CodeTableWritten s t s.builtTable) (hk : k < s.ftCount.val) :
    t.codeLen k = (s.builtCodes[k]'(by simpa using hk)).length := by
  rw [← State.codeEntry_length, h.codeEntry_eq hk]

theorem ctCount_eq (h : CodeTableWritten s t s.builtTable) : t.ctCount.toNat = s.ftCount.val :=
  h.count.trans s.length_builtTable

end State.CodeTableWritten

/-- A BUILD with FT_COUNT ≥ 1, whatever state it answers, has written its table there. -/
theorem codeTableWritten_of_exec_build {s t : State} (h : 1 ≤ s.ftCount.val) (ht : exec .build s = .next t) :
    State.CodeTableWritten s t s.builtTable := by
  obtain ⟨t', ht', -, written⟩ := exec_build_completes h
  cases ht.symm.trans ht'
  exact written

/-- Settles O45: the table is in CTAB, and entry k of it is FT[k]'s symbol with code k. -/
theorem buildWritesCodeTable : Obligations.BuildWritesCodeTable := by
  intro s h
  obtain ⟨t, ht, completed, written⟩ := exec_build_completes h
  refine ⟨t, ht, completed, written.ctCount_eq, fun k c hc => ?_, ?_⟩
  · obtain ⟨hk', rfl⟩ := List.getElem?_eq_some_iff.1 (show s.builtCodes[k]? = some c from hc)
    have hk : k < s.ftCount.val := by simpa using hk'
    have hkt : k < s.builtTable.length := by simpa using hk
    have hsym : (t.codeEntry k).sym = (s.freqEntry k).sym := by rw [written.codeEntry_eq hk]
    refine ⟨hsym, written.codeLen_eq hk, written.rsv k hkt, fun j hj => ?_⟩
    rw [written.bits k hkt j hj, s.getElem_builtTable]
    by_cases hl : j < s.builtCodes[k].length <;> simp [hl]
  · simpa using written.rest

/-- Settles O46: the codes read back are BUILD's, none of which begins another, and the symbols are FT's in order. -/
theorem buildCodesPrefixFree : Obligations.BuildCodesPrefixFree := by
  intro s t h ht
  have written := codeTableWritten_of_exec_build h ht
  rw [written.ctCount_eq]
  refine ⟨fun j k hj hk hne hpre => hne ?_, fun distinct j k hj hk hne => ?_⟩
  · rw [written.codeEntry_eq hj, written.codeEntry_eq hk] at hpre
    exact buildCodes_index_unique (List.getElem?_eq_getElem _) (List.getElem?_eq_getElem _) hpre
  · rw [written.codeEntry_eq hj, written.codeEntry_eq hk]
    exact distinct j k hj hk hne

/-- Settles O47: the lengths read back are those of BUILD's codes, and the example list evaluates to its lengths. -/
theorem buildCodeLengths : Obligations.BuildCodeLengths := by
  refine ⟨fun s t h ht => ?_, fun _ => rfl⟩
  have written := codeTableWritten_of_exec_build h ht
  have bounds : ∀ k < s.ftCount.val, 1 ≤ t.codeLen k ∧ t.codeLen k ≤ max 1 (s.ftCount.val - 1) := fun k hk => by
    have := buildCodes_length s.params.singleCodeBit (List.getElem_mem (l := s.builtCodes) (by simpa using hk))
    rwa [← written.codeLen_eq hk, List.length_map, State.length_freqTable] at this
  exact ⟨fun h1 => by have := bounds 0 h; omega, fun h2 k hk => by have := bounds k hk; omega⟩

end Sys2Proof.Machine
end

section
/-!
SUPPORT. The bit packer: where PACK puts each bit (R180, R181), both round trips with UNPACK (R184), and that neither
UNPACK nor DECODE sees the padding (R183, R226).
-/

namespace Sys2Proof.Machine

/-! ## Where PACK puts each bit (R180, R181) -/

/-- Bit j of byte q is bit 8q + j of the sequence of bytes (R99). -/
theorem bitOf_of_getElem? {P : List Byte} {q j : Nat} {x : Byte} (hx : P[q]? = some x) (hj : j < 8) :
    bitOf P (8 * q + j) = x.getLsbD j := by
  rw [bitOf, show (8 * q + j) / 8 = q by omega, show (8 * q + j) % 8 = j by omega, List.getD_eq_getElem?_getD, hx]
  rfl

/-- Each bit position of the packed bytes, those of the padding included, with the bit it holds. -/
theorem exists_getElem?_pack {b : List Bool} {i : Nat} (h : i < 8 * (pack b).length) :
    ∃ P, (pack b)[i / 8]? = some P ∧ P.getLsbD (i % 8) = b.getD i false := by
  have hP := List.getElem?_eq_getElem (show i / 8 < (pack b).length by omega)
  refine ⟨_, hP, ?_⟩
  rw [← bitOf_of_getElem? hP (by omega), Nat.div_add_mod, bitOf_pack]

/-- Settles O50: every position holds the sequence's bit, or 0 beyond its end. -/
theorem packPlacesBits : Obligations.PackPlacesBits := by
  refine fun b => ⟨length_pack b, fun i x hx => ?_, fun i hge hlt => ?_, ?_, Nat.le_of_lt_succ (padBits_lt _)⟩
  · obtain ⟨hi, rfl⟩ := List.getElem?_eq_some_iff.1 hx
    have hfit : i < 8 * (pack b).length := by rw [length_pack]; exact hi.trans_le (bytesFor_le _)
    simpa [hi] using exists_getElem?_pack hfit
  · simpa [hge] using exists_getElem?_pack hlt
  · rw [length_pack, padBits]

/-! ## The round trips (R184) -/

/-- Bytes unpacked without their last h bits and packed again: each keeps the bits that are not among those h. -/
theorem getLsbD_pack_unpack {P : List Byte} {h q j : Nat} {x y : Byte} (hx : (pack (unpack P h))[q]? = some x)
    (hy : P[q]? = some y) (hj : j < 8) : x.getLsbD j = (y.getLsbD j && decide (8 * q + j < 8 * P.length - h)) := by
  rw [← bitOf_of_getElem? hx hj, ← bitOf_of_getElem? hy hj, bitOf_pack_unpack]
  split <;> simp [*]

theorem length_pack_unpack (P : List Byte) {h : Nat} (h7 : h ≤ 7) : (pack (unpack P h)).length = P.length := by
  rw [length_pack, length_unpack, bytesFor]
  omega

/-- Settles O51: the second round trip by the bits that are kept, which are all of a byte before the final one. -/
theorem packUnpackRoundTrips : Obligations.PackUnpackRoundTrips := by
  refine ⟨unpack_pack, fun P h hP h7 => ?_⟩
  have hlen := length_pack_unpack P h7
  refine ⟨hlen, fun q hq => ?_, fun x y hx hy j hj => ?_⟩
  · have hx := List.getElem?_eq_getElem (show q < (pack (unpack P h)).length by omega)
    have hy := List.getElem?_eq_getElem (show q < P.length by omega)
    rw [hx, hy]
    refine congrArg some (BitVec.eq_of_getLsbD_eq fun j hj => ?_)
    rw [getLsbD_pack_unpack hx hy hj, decide_eq_true (by omega), Bool.and_true]
  · exact (getLsbD_pack_unpack hx hy hj).trans (congrArg _ (decide_eq_decide.2 (by omega)))

/-! ## UNPACK does not see the padding (R183) -/

theorem unpack_append_congr (P : List Byte) {x y : Byte} {h : Nat}
    (hxy : ∀ j, j + h < 8 → x.getLsbD j = y.getLsbD j) : unpack (P ++ [x]) h = unpack (P ++ [y]) h := by
  refine unpack_congr (by simp) fun i hi => ?_
  rw [List.length_append, List.length_singleton] at hi
  obtain hlt | heq : i / 8 < P.length ∨ i / 8 = P.length := by omega
  · rw [bitOf, bitOf, List.getD_append _ _ _ _ hlt, List.getD_append _ _ _ _ hlt]
  · have last (z : Byte) : bitOf (P ++ [z]) i = z.getLsbD (i % 8) := by simp [bitOf, heq]
    rw [last, last]
    exact hxy _ (by omega)

/-! ## What DECODE looks at (R221 to R224) -/

/-- An entry of CTAB reads alike in two states that hold CTAB's bytes alike (R101, R102). -/
theorem State.codeEntry_congr {s t : State}
    (h : ∀ a, Region.ctab.covers s.params a = true → t.readByte .ctab a = s.readByte .ctab a) {k : Nat}
    (hk : k < 256) : t.codeEntry k = s.codeEntry k := by
  have byte (j : Nat) (hj : j < 64) : t.readByte .ctab (ctabEntry k + j) = s.readByte .ctab (ctabEntry k + j) :=
    h _ ((Region.covers_iff ..).2 (by simp only [ctabEntry, Region.size]; omega))
  have hlen : t.codeLen k = s.codeLen k := congrArg BitVec.toNat (byte 1 (by omega))
  rw [State.codeEntry, State.codeEntry, hlen]
  refine congrArg₂ CodeEntry.mk (byte 0 (by omega)) (List.map_congr_left fun j hj => ?_)
  have hj : j < 256 := (List.mem_range.1 hj).trans (s.codeLen_lt k)
  rw [State.codeBit, State.codeBit, Nat.add_assoc, byte _ (by omega)]

theorem State.hasZeroLen_eq_any (s : State) (n : Nat) :
    s.hasZeroLen n = (s.codeTable n).any fun e => e.code.length == 0 := by
  simp [State.hasZeroLen, State.codeTable, Function.comp_def]

/-- The checks of the table answer alike when CT_COUNT and CTAB's bytes are alike (R221 steps 1 to 3). -/
theorem State.tableCheck_congr {s t : State} (hc : t.ctCount = s.ctCount)
    (h : ∀ a, Region.ctab.covers s.params a = true → t.readByte .ctab a = s.readByte .ctab a) :
    t.tableCheck = s.tableCheck := by
  by_cases hn : 256 < s.ctCount.toNat
  · simp only [State.tableCheck, hc, if_pos hn]
  · have table : t.codeTable s.ctCount.toNat = s.codeTable s.ctCount.toNat :=
      List.map_congr_left fun k hk => State.codeEntry_congr h (by have := List.mem_range.1 hk; omega)
    simp only [State.tableCheck, State.hasZeroLen_eq_any, hc, table]

/-- The result of a DECODE that emits `out` from `n` bits: DBUF, DEC_LEN and TOTAL_BITS (R224, R228). -/
def State.storeDecoded (s : State) (out : List Byte) (n : Nat) : State :=
  { s.writeBytes Region.dbuf.start out with decLen := BitVec.ofNat 32 out.length, totalBits := BitVec.ofNat 32 n }

/-- DECODE looks at no more than the table, the parameters, PB_LEN, the header and the bits UNPACK keeps: from two
states alike in these it stops with one fault, or stores one result. -/
theorem decodeRun_congr {s t : State} (htable : t.tableCheck = s.tableCheck) (hp : t.params = s.params)
    (hl : t.pbLen = s.pbLen) (hh : t.header = s.header) (hb : t.payloadBits = s.payloadBits) :
    (∃ c, decodeRun s = .error c ∧ decodeRun t = .error c) ∨
      ∃ out n, decodeRun s = .ok (s.storeDecoded out n) ∧ decodeRun t = .ok (t.storeDecoded out n) := by
  simp only [State.payloadBits, hl, hh] at hb
  simp only [decodeRun, htable, hp, hl, hh, hb]
  cases s.tableCheck with
  | error c => exact .inl ⟨c, rfl, rfl⟩
  | ok table =>
    simp only
    split_ifs
    · exact .inl ⟨_, rfl, rfl⟩
    · exact .inl ⟨_, rfl, rfl⟩
    · exact .inl ⟨_, rfl, rfl⟩
    · exact .inl ⟨_, rfl, rfl⟩
    · cases decodeBits table (unpack (s.payload s.pbLen.toNat) s.header) s.params.inCap with
      | error c => exact .inl ⟨c, rfl, rfl⟩
      | ok out => exact .inr ⟨out, _, rfl, rfl⟩

/-! ## The last payload byte replaced (R226) -/

theorem State.readBytes_succ (s : State) (r : Region) (a n : Nat) :
    s.readBytes r a (n + 1) = s.readBytes r a n ++ [s.readByte r (a + n)] := by
  simp [State.readBytes, List.range_succ]

theorem State.payload_eq_append (s : State) {n : Nat} (h : 2 ≤ n) :
    s.payload n = s.readBytes .pbuf (Region.pbuf.start + 1) (n - 2) ++
      [s.readByte .pbuf (Region.pbuf.start + (n - 1))] := by
  obtain ⟨m, rfl⟩ := Nat.exists_eq_add_of_le' h
  rw [show Region.pbuf.start + (m + 2 - 1) = Region.pbuf.start + 1 + m by omega]
  exact s.readBytes_succ ..

/-- Another last byte stands at the end of the payload, and the bytes before it are as they were. -/
theorem State.payload_writeBytes_last (s : State) {n : Nat} (h : 2 ≤ n) (x : Byte) :
    (s.writeBytes (Region.pbuf.start + (n - 1)) [x]).payload n =
      s.readBytes .pbuf (Region.pbuf.start + 1) (n - 2) ++ [x] := by
  rw [State.payload_eq_append _ h]
  refine congrArg₂ (· ++ [·]) (State.readBytes_congr fun i hi => ?_) ?_
  · exact s.readByte_writeBytes_out _ _ _ (by rw [List.length_singleton]; omega)
  · exact s.readByte_writeBytes_in _ _ [x] (i := 0) Nat.zero_lt_one

/-- The header is not the last byte of a buffer of two or more. -/
theorem State.header_writeBytes_last (s : State) {n : Nat} (h : 2 ≤ n) (x : Byte) :
    (s.writeBytes (Region.pbuf.start + (n - 1)) [x]).header = s.header :=
  congrArg BitVec.toNat (s.readByte_writeBytes_out _ _ _ (by omega))

theorem State.payloadBits_writeBytes_last {s : State} (h : 2 ≤ s.pbLen.toNat) {x : Byte}
    (hx : ∀ j, j + s.header < 8 →
      x.getLsbD j = (s.readByte .pbuf (Region.pbuf.start + (s.pbLen.toNat - 1))).getLsbD j) :
    (s.writeBytes (Region.pbuf.start + (s.pbLen.toNat - 1)) [x]).payloadBits = s.payloadBits := by
  rw [State.payloadBits, State.header_writeBytes_last s h, State.writeBytes_pbLen, State.payload_writeBytes_last s h,
    State.payloadBits, State.payload_eq_append s h]
  exact unpack_append_congr _ hx

/-- PBUF lies behind DBUF (R60). -/
theorem lt_pbuf_of_regionOf_dbuf {p : Params} (hp : p.wellFormed = true) {a : Nat} (h : regionOf p a = some .dbuf) :
    a < Region.pbuf.start := by
  have hcap := (Params.wellFormed_iff p).1 hp
  rw [regionOf_eq_some_iff_bounds hp] at h
  simp only [Region.start, Region.size] at h ⊢
  omega

/-- PBUF lies behind CTAB, so a byte written in PBUF is none of the table's (R60). -/
theorem State.tableCheck_writeBytes_pbuf (s : State) {a : Nat} (ha : Region.pbuf.start ≤ a) (bs : List Byte) :
    (s.writeBytes a bs).tableCheck = s.tableCheck := by
  refine State.tableCheck_congr rfl fun b hb => s.readByte_writeBytes_out _ _ _ fun hin => ?_
  rw [Region.covers_iff] at hb
  simp only [Region.start, Region.size] at ha hb
  omega

/-- Bytes written before DECODE stores its result change no other byte that it leaves. -/
theorem State.byteAt?_storeDecoded_writeBytes (s : State) {p a : Nat} {bs : List Byte}
    (h : ¬(p ≤ a ∧ a < p + bs.length)) (out : List Byte) (n : Nat) :
    ((s.writeBytes p bs).storeDecoded out n).finish.byteAt? a = (s.storeDecoded out n).finish.byteAt? a := by
  refine State.byteAt?_congr rfl ?_ fun _ _ => rfl
  change ((s.mem.setBytes p bs).setBytes _ out).get? a = (s.mem.setBytes _ out).get? a
  rw [Memory.get?_setBytes _ _ out, Memory.get?_setBytes _ _ out, Memory.get?_setBytes_out _ _ _ h]

/-- The bytes of DBUF after a fault of DECODE are free values (R290). -/
theorem State.byteAt?_complete_decoded_error (s : State) (c : Cause) {a : Nat} (h : regionOf s.params a = some .dbuf) :
    (s.complete .decoded (.error c)).byteAt? a = some (Config.unspecByte (s.gens.dbuf + 1) a) := by
  obtain ⟨-, -, bytes⟩ := (s.faultTaken_complete .decoded c).unspec
  exact bytes a h

/-- Settles O52: the replaced byte is in PBUF and leaves the kept bits alone, so DECODE ends alike. -/
theorem paddingIsIgnored : Obligations.PaddingIsIgnored := by
  refine ⟨fun P _ _ _ => unpack_append_congr P, fun s x hp h2 _ hx => ?_⟩
  refine ⟨_, _, exec_decode s, exec_decode _, ?_⟩
  obtain ⟨c, hs, ht⟩ | ⟨out, n, hs, ht⟩ := decodeRun_congr
    (s.tableCheck_writeBytes_pbuf (Nat.le_add_right ..) [x]) rfl rfl (s.header_writeBytes_last h2 x)
    (State.payloadBits_writeBytes_last h2 hx)
  · rw [hs, ht]
    refine ⟨fun r => by cases r <;> rfl, fun a ha => ?_⟩
    rw [s.byteAt?_complete_decoded_error c ha]
    exact State.byteAt?_complete_decoded_error _ c ha
  · rw [hs, ht]
    refine ⟨fun r => by cases r <;> rfl, fun a ha => s.byteAt?_storeDecoded_writeBytes (fun hin => ?_) out n⟩
    have := lt_pbuf_of_regionOf_dbuf hp ha
    omega

end Sys2Proof.Machine
end

section
/-!
SUPPORT. The command ENCODE: the packed buffer it leaves in PBUF (R202 to R204) and its faults in their order (R205).
-/

namespace Sys2Proof.Machine

/-! ## The checks of the table and of the input bytes (R201, R205) -/

theorem State.TableOk.tableCheck {s : State} (h : s.TableOk) : s.tableCheck = .ok (s.codeTable s.ctCount.toNat) := by
  obtain ⟨hpos, hle, hlen⟩ := h
  exact State.tableCheck_ok hpos hle hlen

theorem State.tableCheck_emptyTable {s : State} (h : s.ctCount.toNat = 0) : s.tableCheck = .error .emptyTable := by
  simp [State.tableCheck, h]

theorem State.tableCheck_ctCountRange {s : State} (h : 256 < s.ctCount.toNat) :
    s.tableCheck = .error .ctCountRange := by
  simp [State.tableCheck, Nat.ne_of_gt (Nat.zero_lt_of_lt h), h]

theorem State.tableCheck_badCodeLen {s : State} (hpos : 1 ≤ s.ctCount.toNat) (hle : s.ctCount.toNat ≤ 256)
    (h : ∃ k < s.ctCount.toNat, s.codeLen k = 0) : s.tableCheck = .error .badCodeLen := by
  simp [State.tableCheck, Nat.ne_of_gt hpos, Nat.not_lt.2 hle, (s.hasZeroLen_iff _).2 h]

/-- The byte's one entry gives its code (R201). -/
theorem State.OnlyEntry.lookupCode {s : State} {n : Nat} {x : Byte} {k : Nat} (h : s.OnlyEntry n x k) :
    lookupCode (s.codeTable n) x = .ok (s.codeEntry k).code := by
  obtain ⟨hk, hx, unique⟩ := h
  have := lookupCode_of_unique (table := s.codeTable n) (k := k) (by simpa using hk) (by simpa using hx)
    (by simpa using unique)
  simpa using this

/-- When every byte has one entry, the bits are the entries' codes in input order (R202). -/
theorem State.encodeBits_eq_codesOf {s : State} {n : Nat} {raw : List Byte} {idx : Byte → Nat}
    (h : ∀ x ∈ raw, s.OnlyEntry n x (idx x)) : encodeBits (s.codeTable n) raw = .ok (s.codesOf (raw.map idx)) := by
  rw [State.codesOf, List.flatMap_map]
  exact encodeBits_eq_flatMap fun x hx => (h x hx).lookupCode

/-- The first byte that has not one entry decides the fault (R205 step 6). -/
theorem State.encodeBits_first_error {s : State} {n : Nat} {before after : List Byte} {x : Byte} {c : Cause}
    (hb : ∀ y ∈ before, ∃ k, s.OnlyEntry n y k) (hx : lookupCode (s.codeTable n) x = .error c) :
    encodeBits (s.codeTable n) (before ++ x :: after) = .error c := by
  choose! idx hentry using hb
  exact encodeBits_error (fun y hy => (hentry y hy).lookupCode) hx

theorem State.lookupCode_noCode {s : State} {n : Nat} {x : Byte} (h : ∀ k < n, (s.codeEntry k).sym ≠ x) :
    lookupCode (s.codeTable n) x = .error .noCode :=
  lookupCode_of_none fun e he => by
    obtain ⟨k, hk, rfl⟩ := List.mem_map.1 he
    exact h k (List.mem_range.1 hk)

theorem State.lookupCode_dupSymbol {s : State} {n : Nat} {x : Byte} {j k : Nat} (hj : j < n) (hk : k < n)
    (hne : j ≠ k) (hxj : (s.codeEntry j).sym = x) (hxk : (s.codeEntry k).sym = x) :
    lookupCode (s.codeTable n) x = .error .dupSymbol :=
  lookupCode_of_two (by simpa using hj) (by simpa using hk) hne (by simpa using hxj) (by simpa using hxk)

/-- Each code has a bit, so the codes together have no fewer bits than there are codes (R204). -/
theorem State.length_le_length_codesOf {s : State} {ks : List Nat} (h : ∀ k ∈ ks, s.codeLen k ≠ 0) :
    ks.length ≤ (s.codesOf ks).length := by
  induction ks with
  | nil => exact Nat.zero_le _
  | cons k ks ih =>
    obtain ⟨hk, hks⟩ := List.forall_mem_cons.1 h
    have := ih hks
    rw [State.codesOf] at this ⊢
    rw [List.flatMap_cons, List.length_append, List.length_cons, s.codeEntry_length]
    omega

/-! ## A PackedBuffer in PBUF (R98, R203, R204) -/

/-- `t` holds the PackedBuffer of `bits` in PBUF[0..PB_LEN), and from there on the bytes of `s`. -/
structure State.PackedWritten (s t : State) (bits : List Bool) : Prop where
  pbLen : t.pbLen.toNat = 1 + bytesFor bits.length
  totalBits : t.totalBits.toNat = bits.length
  header : t.header = padBits bits.length
  payload : t.payload t.pbLen.toNat = pack bits
  rest : ∀ a, Region.pbuf.start + t.pbLen.toNat ≤ a → t.byteAt? a = s.byteAt? a

@[simp] theorem length_packedBuffer (bits : List Bool) : (packedBuffer bits).length = 1 + bytesFor bits.length := by
  rw [packedBuffer, List.length_cons, length_pack, Nat.add_comm]

theorem State.header_writeBytes_packedBuffer (s : State) (bits : List Bool) :
    (s.writeBytes Region.pbuf.start (packedBuffer bits)).header = padBits bits.length := by
  have first := s.readByte_writeBytes_in .pbuf Region.pbuf.start (packedBuffer bits) (i := 0) (by simp)
  have := padBits_lt bits.length
  calc (s.writeBytes Region.pbuf.start (packedBuffer bits)).header
      = (BitVec.ofNat 8 (padBits bits.length)).toNat := congrArg BitVec.toNat first
    _ = padBits bits.length := by rw [BitVec.toNat_ofNat]; omega

/-- The payload is written behind the header byte. -/
theorem State.payload_writeBytes_packedBuffer (s : State) (bits : List Bool) :
    (s.writeBytes Region.pbuf.start (packedBuffer bits)).payload (1 + bytesFor bits.length) = pack bits := by
  have := (s.writeBytes Region.pbuf.start [BitVec.ofNat 8 (padBits bits.length)]).readBytes_writeBytes .pbuf
    (Region.pbuf.start + 1) (pack bits)
  rw [length_pack] at this
  rw [State.payload, Nat.add_sub_cancel_left]
  exact this

/-- ENCODE's writes, PBUF's bytes and the two lengths, put the buffer there. Both lengths fit in 32 bits when the
buffer fits in PBUF (R8, R204). -/
theorem State.packedWritten_writeBytes {s : State} (hp : s.params.wellFormed = true) {bits : List Bool}
    (hfit : 1 + bytesFor bits.length ≤ s.params.pbCap) :
    State.PackedWritten s { s.writeBytes Region.pbuf.start (packedBuffer bits) with
      pbLen := BitVec.ofNat 32 (1 + bytesFor bits.length), totalBits := BitVec.ofNat 32 bits.length } bits := by
  obtain ⟨-, -, hcap⟩ := (Params.wellFormed_iff _).1 hp
  have hbits := bytesFor_le bits.length
  have hlen : (BitVec.ofNat 32 (1 + bytesFor bits.length)).toNat = 1 + bytesFor bits.length :=
    (BitVec.toNat_ofNat ..).trans (Nat.mod_eq_of_lt (by omega))
  refine ⟨hlen, (BitVec.toNat_ofNat ..).trans (Nat.mod_eq_of_lt (by omega)), s.header_writeBytes_packedBuffer bits,
    ?_, fun a ha => s.byteAt?_writeBytes_out _ _ ?_⟩
  · rw [hlen]
    exact s.payload_writeBytes_packedBuffer bits
  · rw [hlen] at ha
    rw [length_packedBuffer]
    omega

/-- The end of the completion touches neither PBUF nor the lengths (R252). -/
theorem State.PackedWritten.finish {s t : State} {bits : List Bool} (h : PackedWritten s t bits) :
    PackedWritten s t.finish bits :=
  ⟨h.pbLen, h.totalBits, h.header, h.payload, h.rest⟩

/-! ## How ENCODE completes (R204, R205) -/

theorem exec_encode_of_error {s : State} {c : Cause} (h : encodeRun s = .error c) :
    ∃ t, exec .encode s = .next t ∧ State.FaultTaken .packed c s t :=
  ⟨_, by rw [exec_encode, h], s.faultTaken_complete .packed c⟩

section InputInRange

variable {s : State} (h1 : 1 ≤ s.rawLen.toNat) (h2 : s.rawLen.toNat ≤ s.params.inCap)

include h1 h2

theorem encodeRun_of_tableCheck_error {c : Cause} (ht : s.tableCheck = .error c) : encodeRun s = .error c := by
  simp [encodeRun, Nat.ne_of_gt h1, Nat.not_lt.2 h2, ht]

theorem encodeRun_of_encodeBits_error {c : Cause} {table : List CodeEntry} (ht : s.tableCheck = .ok table)
    (hb : encodeBits table (s.rawInput s.rawLen.toNat) = .error c) : encodeRun s = .error c := by
  simp [encodeRun, Nat.ne_of_gt h1, Nat.not_lt.2 h2, ht, hb]

theorem encodeRun_pbOverflow {table : List CodeEntry} {bits : List Bool} (ht : s.tableCheck = .ok table)
    (hb : encodeBits table (s.rawInput s.rawLen.toNat) = .ok bits) (hc : s.params.pbCap < 1 + bytesFor bits.length) :
    encodeRun s = .error .pbOverflow := by
  simp [encodeRun, Nat.ne_of_gt h1, Nat.not_lt.2 h2, ht, hb, hc]

/-- ENCODE of an input whose bits fit in PBUF completes without fault and leaves their PackedBuffer. -/
theorem exec_encode_completes (hp : s.params.wellFormed = true) {table : List CodeEntry} {bits : List Bool}
    (ht : s.tableCheck = .ok table) (hb : encodeBits table (s.rawInput s.rawLen.toNat) = .ok bits)
    (hfit : 1 + bytesFor bits.length ≤ s.params.pbCap) :
    ∃ t, exec .encode s = .next t ∧ State.Completed .packed s t ∧ State.PackedWritten s t bits := by
  have hrun := encodeRun_ok (Nat.ne_of_gt h1) h2 ht hb hfit
  exact ⟨_, by rw [exec_encode, hrun, State.complete_ok], (encodeRun_ranOk hrun).completed,
    (State.packedWritten_writeBytes hp hfit).finish⟩

end InputInRange

/-- Settles O53: the bits are the codes in input order, at least one bit for each byte, and their PackedBuffer is in
PBUF. -/
theorem encodeWritesPackedBuffer : Obligations.EncodeWritesPackedBuffer := by
  intro s idx hp h1 h2 hok hentry bits hbits hfit
  have encoded := State.encodeBits_eq_codesOf hentry
  rw [← hbits] at encoded
  obtain ⟨t, ht, completed, written⟩ := exec_encode_completes h1 h2 hp hok.tableCheck encoded hfit
  have hlen : s.rawLen.toNat ≤ bits.length := by
    obtain ⟨-, -, hcodes⟩ := hok
    rw [hbits]
    calc s.rawLen.toNat = ((s.rawInput s.rawLen.toNat).map idx).length := by rw [List.length_map, s.length_rawInput]
      _ ≤ _ := State.length_le_length_codesOf fun k hk => by
        obtain ⟨x, hx, rfl⟩ := List.mem_map.1 hk
        exact hcodes _ (hentry x hx).1
  have hpos := bytesFor_pos (h1.trans hlen)
  refine ⟨t, ht, completed, written.pbLen, ?_, written.pbLen.trans_le hfit, written.totalBits, hlen, written.header,
    ?_, written.payload, written.rest⟩
  · rw [written.pbLen]
    omega
  · rw [written.header]
    exact Nat.le_of_lt_succ (padBits_lt _)

/-- Settles O54: each check of the run, in order, after those before it have passed. -/
theorem encodeFaults : Obligations.EncodeFaults := by
  intro s
  refine ⟨fun h0 => ?_, fun h0 hcap => ?_, fun h1 h2 => ⟨fun h0 => ?_, fun h256 => ?_, fun hpos hle hzero => ?_,
    ?_, ?_⟩⟩
  · exact exec_encode_of_error (by simp [encodeRun, h0])
  · exact exec_encode_of_error (by simp [encodeRun, h0, hcap])
  · exact exec_encode_of_error (encodeRun_of_tableCheck_error h1 h2 (State.tableCheck_emptyTable h0))
  · exact exec_encode_of_error (encodeRun_of_tableCheck_error h1 h2 (State.tableCheck_ctCountRange h256))
  · exact exec_encode_of_error (encodeRun_of_tableCheck_error h1 h2 (State.tableCheck_badCodeLen hpos hle hzero))
  · intro hok before after x hraw hbefore
    have fault {c : Cause} (hx : lookupCode (s.codeTable s.ctCount.toNat) x = .error c) : encodeRun s = .error c :=
      encodeRun_of_encodeBits_error h1 h2 hok.tableCheck (hraw ▸ State.encodeBits_first_error hbefore hx)
    refine ⟨fun hnone => ?_, fun ⟨j, hj, k, hk, hne, hxj, hxk⟩ => ?_⟩
    · exact exec_encode_of_error (fault (State.lookupCode_noCode hnone))
    · exact exec_encode_of_error (fault (State.lookupCode_dupSymbol hj hk hne hxj hxk))
  · intro hok idx hentry hfull
    exact exec_encode_of_error (encodeRun_pbOverflow h1 h2 hok.tableCheck (State.encodeBits_eq_codesOf hentry) hfull)

end Sys2Proof.Machine
end

section
/-!
SUPPORT. The command DECODE: its checks (R221), its matching in terms of the entries of CTAB (R223), the symbols it
leaves in DBUF (R224, R228), its faults while matching (R227), that the order of the table is not observable (R230),
and the round trip through ANALYZE, BUILD and ENCODE (R231).
-/

namespace Sys2Proof.Machine

/-! ## What a completion leaves for the next command (R252, R253) -/

/-- A completion that leaves ERR = 0 ended a run without fault (R252, R290). -/
theorem State.run_ok_of_complete {s t : State} {d : Dest} {r : Except Cause State} (ht : s.complete d r = t)
    (h : t.err = false) : ∃ w, r = .ok w := by
  subst ht
  cases r with
  | ok w => exact ⟨w, rfl⟩
  | error c => simp at h

theorem Dest.region_ne_rawbuf (d : Dest) : d.region ≠ some .rawbuf := by cases d <;> decide

theorem Dest.rawLen_notMem_regs (d : Dest) : Reg.rawLen ∉ d.regs := by cases d <;> decide

namespace State.KeptOutside

variable {d : Dest} {s t : State}

/-- A byte of a region that is not the destination's reads as before. -/
theorem readByte_eq (h : KeptOutside d s t) (hwf : s.params.wellFormed = true) {r : Region} (hr : r ≠ .registers)
    (hd : d.region ≠ some r) {a : Nat} (ha : r.covers s.params a = true) : t.readByte r a = s.readByte r a := by
  have hreg := (regionOf_eq_some_iff hwf).2 ha
  have hb := h.bytes a fun q hq => Bool.eq_false_iff.2 fun hc => hd (Region.covers_unique hwf hc ha ▸ hq)
  rw [State.byteAt?_eq hr hreg, State.byteAt?_eq hr (h.params.symm ▸ hreg)] at hb
  exact Option.some.inj hb

/-- No command's destination is the raw input (R253). -/
theorem rawLen_eq (h : KeptOutside d s t) : t.rawLen = s.rawLen :=
  h.regs .rawLen (by decide) (by decide) d.rawLen_notMem_regs

theorem rawInput_eq (h : KeptOutside d s t) (hwf : s.params.wellFormed = true) {n : Nat} (hn : n ≤ s.params.inCap) :
    t.rawInput n = s.rawInput n :=
  State.readBytes_congr fun i hi => h.readByte_eq hwf (by decide) d.region_ne_rawbuf <|
    (Region.covers_iff ..).2 (by simp only [Region.size]; omega)

/-- A command that does not write the code table leaves what the checks of it answer. -/
theorem tableCheck_eq (h : KeptOutside d s t) (hwf : s.params.wellFormed = true) (hd : d.region ≠ some .ctab)
    (hregs : Reg.ctCount ∉ d.regs) : t.tableCheck = s.tableCheck :=
  State.tableCheck_congr (h.regs .ctCount (by decide) (by decide) hregs) fun _ => h.readByte_eq hwf (by decide) hd

end State.KeptOutside

/-! ## The checks before any bit is matched (R221) -/

theorem exec_decode_of_error {s : State} {c : Cause} (h : decodeRun s = .error c) :
    ∃ t, exec .decode s = .next t ∧ State.FaultTaken .decoded c s t :=
  ⟨_, by rw [exec_decode, h], s.faultTaken_complete .decoded c⟩

theorem decodeRun_of_tableCheck_error {s : State} {c : Cause} (h : s.tableCheck = .error c) :
    decodeRun s = .error c := by
  simp [decodeRun, h]

/-- The checks of the table pass only for a good table, and answer CT[0..CT_COUNT). -/
theorem State.tableOk_of_tableCheck_ok {s : State} {table : List CodeEntry} (h : s.tableCheck = .ok table) :
    s.TableOk ∧ table = s.codeTable s.ctCount.toNat := by
  obtain ⟨-, he⟩ | ⟨-, he⟩ | ⟨-, -, he⟩ | ⟨⟨hpos, hle⟩, hlen, he⟩ := s.tableCheck_eq <;> cases he.symm.trans h
  exact ⟨⟨hpos, hle, hlen⟩, rfl⟩

theorem State.TableOk.codeLen_ne_zero {s : State} (h : s.TableOk) : ∀ k < s.ctCount.toNat, s.codeLen k ≠ 0 := h.2.2

theorem State.codeEntry_code_ne_nil {s : State} {k : Nat} (h : s.codeLen k ≠ 0) : (s.codeEntry k).code ≠ [] :=
  List.ne_nil_of_length_pos (by rw [s.codeEntry_length]; exact Nat.pos_of_ne_zero h)

theorem State.codeTable_code_ne_nil {s : State} {n : Nat} (h : ∀ k < n, s.codeLen k ≠ 0) {e : CodeEntry}
    (he : e ∈ s.codeTable n) : e.code ≠ [] := by
  obtain ⟨k, hk, rfl⟩ := List.mem_map.1 he
  exact State.codeEntry_code_ne_nil (h k (List.mem_range.1 hk))

/-- When all checks pass, DECODE ends as the matching of the payload's bits does (R224). -/
theorem decodeRun_of_checks {s : State} (ht : s.TableOk) (hp : s.PackedOk) :
    decodeRun s = (decodeBits (s.codeTable s.ctCount.toNat) s.payloadBits s.params.inCap).map
      fun out => s.storeDecoded out s.payloadBits.length := by
  obtain ⟨hpos, hcap, h7, hbits⟩ := hp
  simp only [decodeRun, ht.tableCheck, Nat.ne_of_gt hpos, if_false, Nat.not_lt.2 hcap, Nat.not_lt.2 h7,
    Nat.not_lt.2 hbits, State.payloadBits]
  cases decodeBits _ _ _ <;> rfl

/-- Settles O57: each check of the run, in order, after those before it have passed. -/
theorem decodeChecks : Obligations.DecodeChecks := by
  intro s
  refine ⟨fun h0 => ?_, fun h256 => ?_, fun hpos hle hzero => ?_, fun hok => ⟨fun h0 => ?_, fun h0 hcap => ?_,
    fun hpos hcap hheader => ?_⟩⟩
  · exact exec_decode_of_error (decodeRun_of_tableCheck_error (State.tableCheck_emptyTable h0))
  · exact exec_decode_of_error (decodeRun_of_tableCheck_error (State.tableCheck_ctCountRange h256))
  · exact exec_decode_of_error (decodeRun_of_tableCheck_error (State.tableCheck_badCodeLen hpos hle hzero))
  · exact exec_decode_of_error (by simp [decodeRun, hok.tableCheck, h0])
  · exact exec_decode_of_error (by simp [decodeRun, hok.tableCheck, h0, hcap])
  · refine exec_decode_of_error ?_
    rcases hheader with h | h <;>
      simp [decodeRun, hok.tableCheck, Nat.ne_of_gt hpos, Nat.not_lt.2 hcap, h]

/-! ## The match set as entries of CTAB (R223) -/

theorem State.OnlyMatch.matchSet_eq {s : State} {n k : Nat} {rest : List Bool} (h : s.OnlyMatch n rest k) :
    matchSet (s.codeTable n) rest = [s.codeEntry k] := by
  obtain ⟨hk, hpre, unique⟩ := h
  have := filter_eq_singleton (fun e : CodeEntry => e.code.isPrefixOf rest) (s.codeTable n) (k := k) (by simpa using hk)
    (by simpa using hpre) (by simpa using unique)
  simpa [matchSet] using this

theorem State.matchSet_eq_nil {s : State} {n : Nat} {rest : List Bool}
    (h : ∀ k < n, ¬ (s.codeEntry k).code <+: rest) : matchSet (s.codeTable n) rest = [] := by
  refine List.filter_eq_nil_iff.2 fun e he => ?_
  obtain ⟨k, hk, rfl⟩ := List.mem_map.1 he
  simpa using h k (List.mem_range.1 hk)

/-- Two entries that match are two members of the match set, even if they are alike. -/
theorem State.two_le_length_matchSet {s : State} {n j k : Nat} {rest : List Bool} (hj : j < n) (hk : k < n)
    (hne : j ≠ k) (hpj : (s.codeEntry j).code <+: rest) (hpk : (s.codeEntry k).code <+: rest) :
    2 ≤ (matchSet (s.codeTable n) rest).length :=
  filter_two _ (s.codeTable n) (by simpa using hj) (by simpa using hk) hne (by simpa using hpj) (by simpa using hpk)

/-- A match set of one member is one entry's. -/
theorem State.exists_onlyMatch {s : State} {n : Nat} {rest : List Bool} {e : CodeEntry}
    (h : matchSet (s.codeTable n) rest = [e]) : ∃ k, s.OnlyMatch n rest k ∧ e = s.codeEntry k := by
  obtain ⟨he, hpre⟩ := mem_matchSet.1 (h ▸ List.mem_singleton_self e)
  obtain ⟨k, hk, rfl⟩ := List.mem_map.1 he
  have hk := List.mem_range.1 hk
  refine ⟨k, ⟨hk, hpre, fun j hj hpj => ?_⟩, rfl⟩
  by_contra hne
  have two := State.two_le_length_matchSet hj hk hne hpj hpre
  rw [h, List.length_singleton] at two
  omega

/-! ## Sequences of codes (R224) -/

theorem State.codesOf_cons (s : State) (k : Nat) (ks : List Nat) :
    s.codesOf (k :: ks) = (s.codeEntry k).code ++ s.codesOf ks := List.flatMap_cons ..

theorem State.length_codesOf (s : State) (ks : List Nat) : (s.codesOf ks).length = (ks.map s.codeLen).sum := by
  simp [State.codesOf, List.length_flatMap]

theorem State.parses_nil (s : State) (n : Nat) (tail : List Bool) : s.Parses n [] tail := by
  intro before k after h
  simp at h

theorem State.Parses.cons {s : State} {n k : Nat} {ks : List Nat} {tail : List Bool}
    (hk : s.OnlyMatch n (s.codesOf (k :: ks) ++ tail) k) (hks : s.Parses n ks tail) : s.Parses n (k :: ks) tail := by
  intro before j after h
  obtain ⟨rfl, h⟩ | ⟨before, rfl, rfl⟩ := List.cons_eq_append_iff.1 h
  · cases h
    exact hk
  · exact hks before j after rfl

/-- A sequence of entries as the loop matches them is a sequence of unique matches in the table. -/
theorem State.Parses.uniqueParse {s : State} {n : Nat} {ks : List Nat} {tail : List Bool} (h : s.Parses n ks tail)
    (hlen : ∀ k < n, s.codeLen k ≠ 0) : UniqueParse (s.codeTable n) (ks.map s.codeEntry) tail := by
  intro before e after he
  obtain ⟨before, rest, rfl, rfl, hrest⟩ := List.map_eq_append_iff.1 he
  obtain ⟨k, after, rfl, rfl, rfl⟩ := List.map_eq_cons_iff.1 hrest
  have only := h before k after rfl
  have ⟨hk, _⟩ := only
  refine ⟨State.codeEntry_code_ne_nil (hlen k hk), ?_⟩
  rw [List.flatMap_map]
  exact only.matchSet_eq

/-- The loop takes a sequence of codes off the front, symbol by symbol, and goes on with what is left. -/
theorem State.Parses.decodeBits_append {s : State} {n : Nat} {ks : List Nat} {tail : List Bool} (h : s.Parses n ks tail)
    (hlen : ∀ k < n, s.codeLen k ≠ 0) {cap : Nat} (hroom : ks.length ≤ cap) :
    decodeBits (s.codeTable n) (s.codesOf ks ++ tail) cap =
      (decodeBits (s.codeTable n) tail (cap - ks.length)).map (ks.map (fun k => (s.codeEntry k).sym) ++ ·) := by
  have := decodeBits_parse (h.uniqueParse hlen) (cap - ks.length)
  rw [List.length_map, Nat.add_sub_cancel' hroom, List.flatMap_map, List.map_map] at this
  exact this

/-- Where the loop goes on, one entry matched and there was room for its symbol (R224, R227). -/
theorem decodeBits_ok_inv {table : List CodeEntry} {bits : List Bool} {room : Nat} {out : List Byte}
    (hne : bits ≠ []) (hcode : ∀ e ∈ table, e.code ≠ []) (h : decodeBits table bits room = .ok out) :
    ∃ e out', matchSet table bits = [e] ∧ decodeBits table (bits.drop e.code.length) (room - 1) = .ok out' ∧
      out = e.sym :: out' := by
  match hm : matchSet table bits, room with
  | [], _ => rw [decodeBits_noMatch hne hm] at h; cases h
  | _ :: _ :: _, _ => rw [decodeBits_ambiguous hne (by simp [hm])] at h; cases h
  | [e], 0 => rw [decodeBits_overflow hne hm] at h; cases h
  | [e], room + 1 =>
    rw [decodeBits_match hne (hcode e (mem_matchSet.1 (hm ▸ List.mem_singleton_self e)).1) hm] at h
    cases hrest : decodeBits table (bits.drop e.code.length) room with
    | error c => rw [hrest] at h; cases h
    | ok out' => rw [hrest] at h; cases h; exact ⟨e, out', rfl, hrest, rfl⟩

/-- Bits that decode are a sequence of codes, each the only match where it stands, and decode to their symbols
(R228). -/
theorem State.parses_of_decodeBits {s : State} {n : Nat} (hlen : ∀ k < n, s.codeLen k ≠ 0) {bits : List Bool}
    {room : Nat} {out : List Byte} (h : decodeBits (s.codeTable n) bits room = .ok out) :
    ∃ ks, bits = s.codesOf ks ∧ s.Parses n ks [] ∧ out = ks.map fun k => (s.codeEntry k).sym := by
  induction hl : bits.length using Nat.strong_induction_on generalizing bits room out with
  | _ l ih =>
    by_cases hne : bits = []
    · subst hne
      cases h
      exact ⟨[], rfl, s.parses_nil n [], rfl⟩
    · obtain ⟨e, out', hm, hrest, rfl⟩ := decodeBits_ok_inv hne (fun _ => State.codeTable_code_ne_nil hlen) h
      obtain ⟨k, only, rfl⟩ := State.exists_onlyMatch hm
      have ⟨hk, hpre, _⟩ := only
      obtain ⟨rest, rfl⟩ := hpre
      have hpos := List.length_pos_iff.2 (State.codeEntry_code_ne_nil (hlen k hk))
      rw [List.drop_left] at hrest
      obtain ⟨ks, rfl, parses, rfl⟩ := ih rest.length (by rw [← hl, List.length_append]; omega) hrest rfl
      exact ⟨k :: ks, (s.codesOf_cons k ks).symm,
        .cons (by rwa [s.codesOf_cons, List.append_nil]) parses, rfl⟩

/-! ## The symbols in DBUF (R224, R228) -/

theorem State.length_payloadBits (s : State) : s.payloadBits.length = 8 * (s.pbLen.toNat - 1) - s.header := by
  rw [State.payloadBits, length_unpack, State.payload, State.length_readBytes]

/-- `t` holds the symbols `out` in DBUF[0..DEC_LEN), from there on the bytes of `s`, and in TOTAL_BITS how many bits `s`
had to match. -/
structure State.SymbolsWritten (s t : State) (out : List Byte) : Prop where
  decLen : t.decLen.toNat = out.length
  symbols : t.readBytes .dbuf Region.dbuf.start out.length = out
  totalBits : t.totalBits.toNat = 8 * (s.pbLen.toNat - 1) - s.header
  rest : ∀ a, Region.dbuf.start + out.length ≤ a → t.byteAt? a = s.byteAt? a

/-- DECODE's writes put the symbols there. Both lengths fit in 32 bits when the symbols fit in DBUF and the buffer in
PBUF (R8). -/
theorem State.symbolsWritten_storeDecoded {s : State} (hp : s.params.wellFormed = true)
    (hcap : s.pbLen.toNat ≤ s.params.pbCap) {out : List Byte} (hout : out.length ≤ s.params.inCap) :
    State.SymbolsWritten s (s.storeDecoded out s.payloadBits.length) out := by
  obtain ⟨⟨-, hin⟩, -, hpb⟩ := (Params.wellFormed_iff _).1 hp
  have hlen := s.length_payloadBits
  refine ⟨(BitVec.toNat_ofNat ..).trans (Nat.mod_eq_of_lt (by omega)), s.readBytes_writeBytes ..,
    (BitVec.toNat_ofNat ..).trans ?_, fun a ha => s.byteAt?_writeBytes_out _ _ (by omega)⟩
  rw [Nat.mod_eq_of_lt (by omega), hlen]

/-- The end of the completion touches neither DBUF nor the lengths (R252). -/
theorem State.SymbolsWritten.finish {s t : State} {out : List Byte} (h : SymbolsWritten s t out) :
    SymbolsWritten s t.finish out :=
  ⟨h.decLen, h.symbols, h.totalBits, h.rest⟩

/-- When the checks pass and the bits decode, DECODE completes without fault and leaves their symbols. -/
theorem exec_decode_completes {s : State} (hwf : s.params.wellFormed = true) (ht : s.TableOk) (hp : s.PackedOk)
    {out : List Byte} (h : decodeBits (s.codeTable s.ctCount.toNat) s.payloadBits s.params.inCap = .ok out) :
    ∃ t, exec .decode s = .next t ∧ State.Completed .decoded s t ∧ State.SymbolsWritten s t out := by
  have hrun : decodeRun s = .ok (s.storeDecoded out s.payloadBits.length) := by
    rw [decodeRun_of_checks ht hp, h]
    rfl
  obtain ⟨-, hcap, -⟩ := hp
  exact ⟨_, by rw [exec_decode, hrun, State.complete_ok], (decodeRun_ranOk hrun).completed,
    (State.symbolsWritten_storeDecoded hwf hcap (decodeBits_length_le h)).finish⟩

/-- Settles O55: the loop takes the codes off one by one and ends with no bit left. -/
theorem decodeWritesSymbols : Obligations.DecodeWritesSymbols := by
  intro s ks hwf ht hp hbits parses hroom
  have decoded : decodeBits (s.codeTable s.ctCount.toNat) s.payloadBits s.params.inCap =
      .ok (ks.map fun k => (s.codeEntry k).sym) := by
    rw [hbits, ← List.append_nil (s.codesOf ks), parses.decodeBits_append ht.codeLen_ne_zero hroom, decodeBits_nil]
    exact congrArg Except.ok (List.append_nil _)
  obtain ⟨t, he, completed, written⟩ := exec_decode_completes hwf ht hp decoded
  exact ⟨t, he, completed, by simpa using written.decLen, by simpa using written.symbols, written.totalBits,
    by simpa using written.rest⟩

/-! ## What success means (R228) -/

/-- A run of DECODE without fault has passed every check and decoded its bits. -/
theorem decodeRun_ok_checks {s t : State} (h : decodeRun s = .ok t) : s.TableOk ∧ s.PackedOk ∧
    ∃ out, decodeBits (s.codeTable s.ctCount.toNat) s.payloadBits s.params.inCap = .ok out := by
  obtain ⟨table, out, htable, hpos, hcap, h7, hbits, decoded, -⟩ := decodeRun_inv h
  obtain ⟨ht, rfl⟩ := State.tableOk_of_tableCheck_ok htable
  exact ⟨ht, ⟨Nat.one_le_iff_ne_zero.2 hpos, hcap, h7, hbits⟩, out, decoded⟩

/-- Settles O56: the bits that decoded are a sequence of codes, whose lengths sum to the number of bits. -/
theorem decodeSuccessMeansParsed : Obligations.DecodeSuccessMeansParsed := by
  intro s t hwf _ he hok
  obtain ⟨w, hrun⟩ := State.run_ok_of_complete (Host.Outcome.next.inj he) hok
  obtain ⟨ht, hp, out, decoded⟩ := decodeRun_ok_checks hrun
  obtain ⟨t', he', -, written⟩ := exec_decode_completes hwf ht hp decoded
  cases he.symm.trans he'
  obtain ⟨ks, hbits, parses, rfl⟩ := State.parses_of_decodeBits ht.codeLen_ne_zero decoded
  refine ⟨ks, ht, hp, hbits, parses, by simpa using written.decLen, ?_, by simpa using written.symbols,
    written.totalBits, ?_⟩
  · rw [written.decLen]
    exact decodeBits_length_le decoded
  · rw [← s.length_codesOf, ← hbits, written.totalBits, s.length_payloadBits]

/-! ## The faults while matching (R227) -/

/-- Settles O58: the codes before the position are taken off, and the match set there decides. -/
theorem decodeMatchFaults : Obligations.DecodeMatchFaults := by
  intro s ks rest ht hp hbits hne parses hroom
  have fault {c : Cause}
      (h : decodeBits (s.codeTable s.ctCount.toNat) rest (s.params.inCap - ks.length) = .error c) :
      ∃ t, exec .decode s = .next t ∧ State.FaultTaken .decoded c s t := by
    refine exec_decode_of_error ?_
    rw [decodeRun_of_checks ht hp, hbits, parses.decodeBits_append ht.codeLen_ne_zero hroom, h]
    rfl
  refine ⟨fun hnone => ?_, fun ⟨j, hj, k, hk, hjk, hpj, hpk⟩ => ⟨?_, ?_⟩, fun ⟨k, only⟩ hfull => ?_⟩
  · exact fault (decodeBits_noMatch hne (State.matchSet_eq_nil hnone) _)
  · exact fault (decodeBits_ambiguous hne (State.two_le_length_matchSet hj hk hjk hpj hpk) _)
  · rcases List.prefix_or_prefix_of_prefix hpj hpk with h | h
    · exact ⟨j, hj, k, hk, hjk, h⟩
    · exact ⟨k, hk, j, hj, hjk.symm, h⟩
  · refine fault ?_
    rw [hfull, Nat.sub_self]
    exact decodeBits_overflow hne only.matchSet_eq

/-! ## The order of the table (R230) -/

/-- A permuted table has the same match set up to order; the loop looks at its size, and at the entry when there is but
one. -/
theorem decodeLoop_perm {table table' : List CodeEntry} (h : table.Perm table') (bits : List Bool) (skip room : Nat) :
    decodeLoop table bits skip room = decodeLoop table' bits skip room := by
  induction bits generalizing skip room with
  | nil => cases skip <;> rfl
  | cons b bits ih =>
    cases skip with
    | succ skip => exact ih skip room
    | zero =>
      have hp : (matchSet table (b :: bits)).Perm (matchSet table' (b :: bits)) := h.filter _
      have hne := List.cons_ne_nil b bits
      match hm : matchSet table (b :: bits) with
      | [] =>
        rw [hm, List.nil_perm] at hp
        exact (decodeBits_noMatch hne hm room).trans (decodeBits_noMatch hne hp room).symm
      | _ :: _ :: _ =>
        have two : 2 ≤ (matchSet table (b :: bits)).length := by simp [hm]
        exact (decodeBits_ambiguous hne two room).trans (decodeBits_ambiguous hne (hp.length_eq ▸ two) room).symm
      | [e] =>
        rw [hm, List.singleton_perm] at hp
        simp only [decodeLoop, hm, ← hp, ih]

/-- Settles O59: by induction on the bits, for every place in the code last matched. -/
theorem scanOrderUnobservable : Obligations.ScanOrderUnobservable := fun _ _ h bits => decodeLoop_perm h bits 0

/-! ## ENCODE, then DECODE (R184, R231) -/

/-- A PackedBuffer that ENCODE left passes DECODE's checks of it (R98, R221). -/
theorem State.PackedWritten.packedOk {s t : State} {bits : List Bool} (h : PackedWritten s t bits)
    (hfit : 1 + bytesFor bits.length ≤ t.params.pbCap) : t.PackedOk := by
  have := padBits_lt bits.length
  have := padBits_add bits.length
  rw [State.PackedOk, h.pbLen, h.header]
  omega

/-- UNPACK of what PACK made gives the bits back (R184, R222). -/
theorem State.PackedWritten.payloadBits_eq {s t : State} {bits : List Bool} (h : PackedWritten s t bits) :
    t.payloadBits = bits := by
  rw [State.payloadBits, h.payload, h.header, unpack_pack]

/-- With a table in which no code begins another, what an ENCODE without fault leaves decodes to ENCODE's input. -/
theorem exec_decode_of_encode {s t : State} (hwf : s.params.wellFormed = true)
    (hpf : (s.codeTable s.ctCount.toNat).Pairwise fun e f => ¬ e.code <+: f.code ∧ ¬ f.code <+: e.code)
    (he : exec .encode s = .next t) (hok : t.err = false) :
    ∃ u, exec .decode t = .next u ∧ State.Completed .decoded t u ∧
      State.SymbolsWritten t u (s.rawInput s.rawLen.toNat) := by
  obtain ⟨w, hrun⟩ := State.run_ok_of_complete (Host.Outcome.next.inj he) hok
  obtain ⟨table, bits, hpos, hcap, htable, encoded, hfit, -⟩ := encodeRun_inv hrun
  obtain ⟨t', he', completed, written⟩ :=
    exec_encode_completes (Nat.one_le_iff_ne_zero.2 hpos) hcap hwf htable encoded hfit
  cases he.symm.trans he'
  have hparams := completed.kept.params
  have kept := completed.kept.tableCheck_eq hwf (by decide) (by decide)
  obtain ⟨hs, rfl⟩ := State.tableOk_of_tableCheck_ok htable
  obtain ⟨ht, same⟩ := State.tableOk_of_tableCheck_ok (kept.trans htable)
  refine exec_decode_completes (hparams.symm ▸ hwf) ht (written.packedOk (hparams.symm ▸ hfit)) ?_
  rw [← same, written.payloadBits_eq]
  refine decodeBits_encodeBits hpf (fun _ => State.codeTable_code_ne_nil hs.codeLen_ne_zero) encoded ?_
  rwa [s.length_rawInput, hparams]

/-! ## The round trip (R231) -/

/-- The table BUILD leaves, read back. -/
theorem State.CodeTableWritten.codeTable_eq {s t : State} {table : List CodeEntry} (h : CodeTableWritten s t table) :
    t.codeTable t.ctCount.toNat = table := by
  refine List.ext_getElem (by rw [State.length_codeTable, h.count]) fun k hk hk' => ?_
  rw [State.getElem_codeTable, h.entry k hk']

/-- No code of the table BUILD makes begins another (R158). -/
theorem State.builtTable_prefixFree (s : State) :
    s.builtTable.Pairwise fun e f => ¬ e.code <+: f.code ∧ ¬ f.code <+: e.code := by
  refine List.pairwise_iff_getElem.2 fun j k hj hk hlt => ?_
  rw [s.getElem_builtTable, s.getElem_builtTable]
  exact List.pairwise_iff_getElem.1 (buildCodes_prefixFree ..) j k _ _ hlt

/-- Settles O60: ANALYZE leaves a list of one entry or more, BUILD a table in which no code begins another, and both
the raw input as it was, so that DECODE gives ENCODE's input back. -/
theorem roundTrip : Obligations.RoundTrip := by
  intro s t u v hwf _ h1 h2 ha hb he hok
  obtain ⟨t', ha', analyzed, list⟩ := exec_analyze_completes h1 h2
  cases ha.symm.trans ha'
  have hraw : s.rawInput s.rawLen.toNat ≠ [] := List.ne_nil_of_length_pos (by rw [s.length_rawInput]; exact h1)
  have hcount : 1 ≤ t.ftCount.val := list.count ▸ List.length_pos_iff.2 (frequencyList_ne_nil hraw)
  obtain ⟨u', hb', built, table⟩ := exec_build_completes hcount
  cases hb.symm.trans hb'
  have hwft : t.params.wellFormed = true := analyzed.kept.params.symm ▸ hwf
  have hwfu : u.params.wellFormed = true := built.kept.params.symm ▸ hwft
  obtain ⟨z, hz, completed, written⟩ :=
    exec_decode_of_encode hwfu (table.codeTable_eq.symm ▸ t.builtTable_prefixFree) he hok
  have hinput : u.rawInput u.rawLen.toNat = s.rawInput s.rawLen.toNat := by
    rw [built.kept.rawLen_eq, analyzed.kept.rawLen_eq, built.kept.rawInput_eq hwft (analyzed.kept.params.symm ▸ h2),
      analyzed.kept.rawInput_eq hwf h2]
  rw [hinput] at written
  refine ⟨z, hz, completed.err.trans hok, BitVec.eq_of_toNat_eq ?_, ?_⟩
  · rw [written.decLen, s.length_rawInput]
  · simpa using written.symbols

end Sys2Proof.Machine
end

section
/-!
SUPPORT. Which transactions pass the check of R261, and what each of them does, whole: registers (R256, R257), windows
(R258, R259), the writes dropped while BUSY = 1 (R260) and the bus errors (R262).
-/

namespace Sys2Proof.Machine

/-! ## The check every transaction passes first (R261) -/

theorem Region.writable_iff (r : Region) : r.writable = true ↔ r = .ctab ∨ r = .rawbuf ∨ r = .pbuf := by
  cases r <;> decide

theorem Reg.writable_iff_offset (r : Reg) :
    r.writable = true ↔ r.offset ∈ [0x004, 0x008, 0x010, 0x014, 0x01C, 0x020] := by
  cases r <;> decide

theorem lt_of_regionOf_registers {p : Params} {a : Nat} (h : regionOf p a = some .registers) : a < 0x34 :=
  ((Region.covers_iff ..).1 (covers_of_regionOf h)).2

/-- Settles O29: an access that passes reaches a register at its offset or lies in a window; conversely an aligned
access among the registers is at the offset of one. -/
theorem transactionCheck : Obligations.TransactionCheck := by
  intro p acc size a hsize
  constructor
  · rintro ⟨t, ht⟩
    rcases busCheck_ok ht with ⟨reg, -, rfl, h4, hw⟩ | ⟨r, -, hr, -, inside, aligned, hw⟩
    · have := reg.offset_lt
      exact ⟨.registers, fun i hi => regionOf_registers (by omega), fun _ => h4, fun _ => reg.offset_mod,
        fun ha => .inr (.inr (.inr ⟨rfl, reg.writable_iff_offset.1 (hw ha)⟩))⟩
    · refine ⟨r, inside, fun h => absurd h hr, aligned, fun ha => ?_⟩
      rcases r.writable_iff.1 (hw ha) with h | h | h <;> simp [h]
  · rintro ⟨r, inside, hsize4, aligned, hw⟩
    have hpos : 0 < size := by omega
    by_cases hr : r = .registers
    · subst hr
      obtain rfl := hsize4 rfl
      obtain ⟨reg, rfl⟩ := Reg.exists_of_aligned (lt_of_regionOf_registers (inside 0 hpos)) (aligned rfl)
      exact ⟨_, busCheck_register p acc reg fun ha => reg.writable_iff_offset.2 (by simpa using hw ha)⟩
    · exact ⟨_, busCheck_window hr hpos inside aligned fun ha => r.writable_iff.2 (by simpa [hr] using hw ha)⟩

/-! ## Bus errors (R262) -/

theorem State.hostRead_error {s : State} {size : Nat} {o : Word} {e : BusError}
    (h : busCheck s.params .read size o.toNat = .error e) : s.hostRead size o = s.respond .busErr := by
  rw [State.hostRead, h]

theorem State.hostWrite_error {s : State} {size : Nat} {o : Word} {e : BusError}
    (h : busCheck s.params .write size o.toNat = .error e) (v : Word) : s.hostWrite size o v = s.respond .busErr := by
  rw [State.hostWrite, h]

/-- Settles O30: each transaction answers BUSERR when its own check fails. -/
theorem busErrorChangesNothing : Obligations.BusErrorChangesNothing := fun _ _ _ _ _ =>
  ⟨fun h => congrArg _ (State.hostRead_error h), fun h => congrArg _ (State.hostRead_error h),
    fun h => congrArg _ (State.hostWrite_error h _), fun h => congrArg _ (State.hostWrite_error h _)⟩

/-! ## Registers (R256, R257) -/

theorem bitVal_eq_toNat (b : Bool) : bitVal b = b.toNat := by cases b <;> rfl

theorem exec_rd32_of_hidden {s : State} {r : Reg} (h : s.RegHidden r) :
    exec (.rd32 (BitVec.ofNat 32 r.offset)) s =
      .next { s.respond (.data (Config.freeWord s.draws)) with draws := s.draws + 1 } := by
  rw [State.regHidden_iff] at h
  rw [exec_rd32_register, State.readRegister, if_pos h]

/-- Settles O31: a hidden register answers a draw, every other its current value, whose bits for CTRL and STATUS are
those of the flags. -/
theorem registerReads : Obligations.RegisterReads := by
  refine fun s r => ⟨exec_rd32_of_hidden, fun h => (exec_rd32_of_not_hidden h).trans ?_⟩
  cases r
  case ctrl => rw [State.regWord, State.ctrlWord, bitVal_eq_toNat]; rfl
  case status => simp only [State.regWord, State.statusWord, bitVal_eq_toNat]; rfl
  all_goals rfl

theorem exec_wr32_of_writeRegister {s t : State} {r : Reg} {v : Word} (hw : r.writable = true)
    (h : s.writeRegister r v = t) : exec (.wr32 (BitVec.ofNat 32 r.offset) v) s = .next (t.respond .ok) := by
  rw [exec_wr32_register s hw, h]

/-- A write of RAW_LEN, CT_COUNT or PB_LEN while BUSY is dropped (R257). -/
theorem exec_wr32_length_busy {s : State} (hb : s.busy = true) {r : Reg}
    (hr : r = .rawLen ∨ r = .ctCount ∨ r = .pbLen) (v : Word) :
    exec (.wr32 (BitVec.ofNat 32 r.offset) v) s = .next (s.dropWrite.respond .ok) := by
  rcases hr with rfl | rfl | rfl <;> exact exec_wr32_of_writeRegister rfl (if_pos hb)

theorem forall_mem_lengthOffsets {P : Word → Prop}
    (h : ∀ r : Reg, r = .rawLen ∨ r = .ctCount ∨ r = .pbLen → P (BitVec.ofNat 32 r.offset)) :
    ∀ o ∈ [0x014#32, 0x01C#32, 0x020#32], P o := by
  simpa using ⟨h .rawLen (by simp), h .ctCount (by simp), h .pbLen (by simp)⟩

theorem forall_mem_readOnlyOffsets {P : Word → Prop}
    (h : ∀ r : Reg, r.writable = false → P (BitVec.ofNat 32 r.offset)) :
    ∀ o ∈ [0x000#32, 0x00C#32, 0x018#32, 0x024#32, 0x028#32, 0x02C#32, 0x030#32], P o := by
  simpa using ⟨h .id rfl, h .errcode rfl, h .ftCount rfl, h .decLen rfl, h .totalBits rfl, h .inCapReg rfl,
    h .pbCapReg rfl⟩

/-- Settles O32: a writable register passes the check and takes its own rule, a read-only one is a bus error. -/
theorem registerWrites : Obligations.RegisterWrites := by
  intro s v
  refine ⟨exec_wr32_register (r := .ctrl) s rfl v, exec_wr32_register (r := .status) s rfl v, exec_wr32_cmd s v,
    fun hb => ?_, fun hb => forall_mem_lengthOffsets fun r hr => exec_wr32_length_busy hb hr v,
    forall_mem_readOnlyOffsets fun r hr => exec_wr32_readOnly s hr v⟩
  have idle : ¬ s.busy = true := Bool.eq_false_iff.1 hb
  exact ⟨exec_wr32_of_writeRegister (r := .rawLen) rfl (if_neg idle),
    exec_wr32_of_writeRegister (r := .ctCount) rfl (if_neg idle),
    exec_wr32_of_writeRegister (r := .pbLen) rfl (if_neg idle)⟩

/-! ## Windows (R258, R259) -/

section Window

variable {s : State} {r : Region} {size : Nat} {o : Word}

/-- A read in a window that no pending command may be writing answers the bytes there (R258). -/
theorem State.hostRead_window_visible (hn : 0 < size) (hin : InWindow s.params r size o) (h : ¬ s.RegionHidden r) :
    s.hostRead size o = s.respond (.data (wordOfBytes (s.readBytes r o.toNat size))) := by
  rw [State.regionHidden_iff] at h
  rw [State.hostRead_window hn hin, State.readWindow, if_neg h]

/-- A read in the pending command's destination answers one draw for each byte (R45, R258). -/
theorem State.hostRead_window_hidden (hn : 0 < size) (hin : InWindow s.params r size o) (h : s.RegionHidden r) :
    s.hostRead size o =
      { s.respond (.data (wordOfBytes ((List.range size).map fun i => Config.freeByte (s.draws + i)))) with
        draws := s.draws + size } := by
  rw [State.regionHidden_iff] at h
  rw [State.hostRead_window hn hin, State.readWindow, if_pos h]

theorem State.hostWrite_window_busy (hb : s.busy = true) (hw : r.writable = true) (hn : 0 < size)
    (hin : InWindow s.params r size o) (v : Word) : s.hostWrite size o v = s.dropWrite.respond .ok := by
  rw [State.hostWrite_window hw hn hin, State.writeWindow, if_pos hb]

theorem State.hostWrite_window_stored (hb : s.busy = false) (hw : r.writable = true) (hn : 0 < size)
    (hin : InWindow s.params r size o) (v : Word) :
    s.hostWrite size o v = (s.writeBytes o.toNat (bytesOfWord size v)).respond .ok := by
  rw [State.hostWrite_window hw hn hin, State.writeWindow, if_neg (by simp [hb])]

/-- Byte j of what a write stores is at its place. -/
theorem InWindow.byteAt?_writeBytes (hin : InWindow s.params r size o) (v : Word) {j : Nat} (hj : j < size) :
    (s.writeBytes o.toNat (bytesOfWord size v)).byteAt? (o.toNat + j) = some (v.extractLsb' (8 * j) 8) := by
  obtain ⟨hr, inside, -⟩ := hin
  refine (State.byteAt?_eq (s := s.writeBytes _ _) hr (inside j hj)).trans ?_
  rw [State.readByte_writeBytes_in s r _ _ (by simpa using hj)]
  simp [bytesOfWord]

end Window

/-- Settles O33: the word of the bytes that are answered, taken apart byte by byte. -/
theorem windowReads : Obligations.WindowReads := by
  refine fun s r o => ⟨fun hin => ⟨fun h => ?_, fun h => ?_⟩, fun hin => ⟨fun h => ?_, fun h => ?_⟩⟩
  · rw [exec_rd8, State.hostRead_window_visible (by decide) hin h, ← wordOfBytes_singleton]; rfl
  · rw [exec_rd8, State.hostRead_window_hidden (by decide) hin h, ← wordOfBytes_singleton]; rfl
  · refine ⟨_, congrArg _ (State.hostRead_window_visible (by decide) hin h), fun j hj => ?_⟩
    rw [extractByte_wordOfBytes _ hj (by simp), List.getD_eq_getElem _ _ (by simpa using hj), State.getElem_readBytes]
  · refine ⟨_, congrArg _ (State.hostRead_window_hidden (by decide) hin h), fun j hj => ?_⟩
    rw [extractByte_wordOfBytes _ hj (by simp), List.getD_eq_getElem _ _ (by simpa using hj)]
    simp

/-- Settles O34: a stored byte is at its place, and a byte outside those stored is as before. -/
theorem windowWrites : Obligations.WindowWrites := by
  intro s r o v b hr
  have hw := r.writable_iff.2 hr
  refine ⟨fun hin => ⟨fun hb => congrArg _ (State.hostWrite_window_busy hb hw (by decide) hin _),
      fun hb => ⟨s.mem.setBytes o.toNat (bytesOfWord 1 (b.setWidth 32)), ?_, ?_, fun a ha => ?_⟩⟩,
    fun hin => ⟨fun hb => congrArg _ (State.hostWrite_window_busy hb hw (by decide) hin v),
      fun hb => ⟨s.mem.setBytes o.toNat (bytesOfWord 4 v), ?_, fun j hj => hin.byteAt?_writeBytes v hj,
        fun a ha => ?_⟩⟩⟩
  · exact congrArg _ (State.hostWrite_window_stored hb hw (by decide) hin _)
  · exact (hin.byteAt?_writeBytes (b.setWidth 32) Nat.one_pos).trans (congrArg some (extractByte_setWidth b))
  · exact s.byteAt?_writeBytes_out _ _ (by rw [length_bytesOfWord]; omega)
  · exact congrArg _ (State.hostWrite_window_stored hb hw (by decide) hin v)
  · exact s.byteAt?_writeBytes_out _ _ (by rw [length_bytesOfWord]; omega)

/-! ## While BUSY = 1 (R260) -/

theorem State.writeCmd_of_busy {s : State} (hb : s.busy = true) (w : Word) : s.writeCmd w = s.dropWrite := if_pos hb

/-- A read that passes the check is answered with data and touches no STATUS bit (R255). -/
theorem State.hostRead_of_ok {s : State} {size : Nat} {o : Word} {t : Target}
    (h : busCheck s.params .read size o.toNat = .ok t) :
    ∃ v, (s.hostRead size o).responses = .data v :: s.responses ∧ (s.hostRead size o).werr = s.werr := by
  rw [State.hostRead, h]
  cases t with
  | register r => simp only [State.readRegister]; split <;> exact ⟨_, rfl, rfl⟩
  | window r => simp only [State.readWindow]; split <;> exact ⟨_, rfl, rfl⟩

/-- Settles O35: every write is dropped but those of CTRL and STATUS, whose rules do not look at BUSY; a
read leaves WERR alone. -/
theorem writesDroppedWhileBusy : Obligations.WritesDroppedWhileBusy := by
  intro s hb
  refine ⟨fun r o v b hr => ?_, fun v => List.forall_mem_cons.2 ⟨?_, ?_⟩, fun v => ?_, fun v => ?_, fun o => ?_⟩
  · have hw := r.writable_iff.2 hr
    exact ⟨fun hin => congrArg _ (State.hostWrite_window_busy hb hw (by decide) hin _),
      fun hin => congrArg _ (State.hostWrite_window_busy hb hw (by decide) hin v)⟩
  · rw [exec_wr32_cmd, State.writeCmd_of_busy hb]; rfl
  · exact forall_mem_lengthOffsets fun r hr => exec_wr32_length_busy hb hr v
  · exact ⟨_, exec_wr32_register (r := .ctrl) s rfl v, rfl, rfl⟩
  · exact ⟨_, exec_wr32_register (r := .status) s rfl v, rfl⟩
  · exact ⟨fun _ ht => have ⟨v, hv⟩ := State.hostRead_of_ok ht; ⟨_, v, rfl, hv⟩,
      fun _ ht => have ⟨v, hv⟩ := State.hostRead_of_ok ht; ⟨_, v, rfl, hv⟩⟩

end Sys2Proof.Machine
end

section
/-!
SUPPORT. The commands: their issue and rejection (R250, R251), CLEAR (R254), what a completion leaves alone (R253), and
that every run ends with no command in flight (R252, R335).
-/

namespace Sys2Proof.Machine

/-! ## Issue and CLEAR (R250, R251, R254) -/

/-- A one-byte access among the registers fails the check (R63, R261). -/
theorem busCheck_register_byte (p : Params) (acc : Access) {a : Nat} (h : a < 0x34) :
    busCheck p acc 1 a = .error .badSize := by
  have h0 := regionOf_registers (p := p) h
  have hin : insideRegion p .registers 1 a = true :=
    (insideRegion_iff ..).2 fun i hi => regionOf_registers (by omega)
  simp [busCheck, h0, hin]

/-- Settles O17: the cases of a CMD write, the check's size rule, and the completion of a word that decodes to
nothing. -/
theorem commandIssue : Obligations.CommandIssue := by
  refine ⟨fun s w => ⟨_, exec_wr32_cmd s w, State.writeCmd_of_busy (w := w), ?_, fun hb => State.writeCmd_of_err hb,
    fun hb => State.writeCmd_of_not_err hb⟩, fun s b => ?_, fun s w e he _ h => ?_⟩
  · rintro - rfl
    exact exec_clear s
  · exact congrArg Host.Outcome.next
      (State.hostWrite_error (o := 0x010#32) (busCheck_register_byte s.params .write (by decide)) _)
  · exact ⟨_, step_completion_error h he, rfl, rfl, rfl⟩

/-- Settles O18: CLEAR is the CMD write of its word, in the two cases of BUSY. -/
theorem clearEffect : Obligations.ClearEffect := fun _ =>
  ⟨fun hb => congrArg _ (State.writeCmd_clearWord hb), fun hb => congrArg _ (State.writeCmd_of_busy hb clearWord)⟩

/-! ## What a completion leaves alone (R253, R290, R293) -/

/-- Settles O19: a run that succeeds writes its destination only, and so does fault entry. -/
theorem commandFrames : Obligations.CommandFrames := fun s =>
  ⟨⟨_, exec_analyze s, s.keptOutside_complete _ _ fun _ h => (analyzeRun_ranOk h).kept⟩,
    ⟨_, exec_build s, s.keptOutside_complete _ _ fun _ h => (buildRun_ranOk h).kept⟩,
    ⟨_, exec_encode s, s.keptOutside_complete _ _ fun _ h => (encodeRun_ranOk h).kept⟩,
    ⟨_, exec_decode s, s.keptOutside_complete _ _ fun _ h => (decodeRun_ranOk h).kept⟩⟩

/-! ## Runs (R252, R335) -/

/-- Settles O7: each kind of step answers a next state. -/
theorem everyStepAnswersNext : Obligations.EveryStepAnswersNext := fun _ => step_answers_next _

@[simp] theorem State.writeCmd_moves (s : State) (w : Word) : (s.writeCmd w).moves = s.moves := by
  rcases s.writeCmd_cases w with ⟨-, he⟩ | ⟨-, -, he⟩ | ⟨-, -, -, he⟩ | ⟨-, -, -, he⟩ <;> rw [he] <;> rfl

theorem exec_request_moves {s t : State} {r : Request} (ht : exec (decodeRequest r) s = .next t) :
    t.moves = s.moves := by
  rcases exec_request_cases ht with ⟨same, -⟩ | ⟨-, rfl, -⟩ | ⟨v, -, rfl⟩ | ⟨-, w, -, rfl⟩
  · exact same.moves
  · rfl
  · rfl
  · exact s.writeCmd_moves w

theorem step_completion_moves {s t : State} {w : Word} (h : nextTurn s = .completion w) (ht : step s = .next t) :
    t.moves = s.moves.tail := by
  by_cases hw : w = clearWord
  · subst hw
    cases (step_completion_ok h decodeCmd_clearWord).symm.trans ht
    exact State.writeCmd_moves ..
  · obtain ⟨d, r, he, ends⟩ := step_completion_runEnds h hw
    cases he.symm.trans ht
    exact ends.keptOutside.moves

/-- Every step uses up one scheduled move, if there is one (R72). -/
theorem step_moves {s t : State} (ht : step s = .next t) : t.moves = s.moves.tail := by
  rcases step_cases s with ⟨-, he⟩ | ⟨_, -, -, he⟩ | ⟨-, he⟩ | ⟨-, he⟩ | ⟨r, -, -, he⟩ | ⟨w, h, -⟩
  · cases he.symm.trans ht; rfl
  · cases he.symm.trans ht; rfl
  · cases he.symm.trans ht; rfl
  · cases he.symm.trans ht; rfl
  · exact exec_request_moves (he.symm.trans ht)
  · exact step_completion_moves h ht

/-- With no move left a pending command completes, for `rst` is not asserted then (R252, R322). -/
theorem State.Inv.pending_of_no_moves {s t : State} (hi : s.Inv) (hm : s.moves = []) (ht : step s = .next t) :
    t.pending = none := by
  cases hp : s.pending with
  | none =>
    have he : step s = .next s.popMove := by simp [step, nextTurn, hm, hp]
    cases he.symm.trans ht
    exact hp
  | some w =>
    have hr : s.rst = false := Bool.eq_false_iff.2 fun hr => by simp [hi.rst_idle hr] at hp
    have turn : nextTurn s = .completion w := by simp [nextTurn, hm, hr, hp]
    obtain ⟨d, r, he, -⟩ := step_completion_runEnds turn (hi.completion_ne_clearWord turn)
    cases he.symm.trans ht
    exact State.complete_pending ..

/-- Settles O8: by induction on the scheduled moves, each of which takes one step; the last step completes what is
still pending. -/
theorem everyRunEndsWithNothingPending : Obligations.EveryRunEndsWithNothingPending := by
  intro s hi
  generalize hm : s.moves = ms
  induction ms generalizing s with
  | nil =>
    obtain ⟨t, ht⟩ := step_answers_next s
    exact ⟨t, run_succ 0 ht, (step_moves ht).trans (by rw [hm, List.tail_nil]), hi.pending_of_no_moves hm ht⟩
  | cons m ms ih =>
    obtain ⟨t, ht⟩ := step_answers_next s
    obtain ⟨u, hu⟩ := ih t (stepKeepsInvariant s t hi ht) ((step_moves ht).trans (by rw [hm, List.tail_cons]))
    exact ⟨u, by rw [← hu.1]; exact run_succ _ ht, hu.2⟩

end Sys2Proof.Machine
end

section
/-!
SUPPORT. Faults and the interrupt: fault entry with its code (R281, R290), ERR and ERRCODE over a step (R280, R291), and
the level of `irq` after each event (R298, R299).
-/

namespace Sys2Proof.Machine

/-! ## Fault entry (R281, R290) -/

/-- A completion whose run faulted takes the fault, and ERRCODE reads its code. -/
theorem State.complete_takes_fault {s : State} {d : Dest} {r : Except Cause State} {c : Cause} (h : r = .error c) :
    State.FaultTaken d c s (s.complete d r) ∧ (s.complete d r).regWord .errcode = c.code.setWidth 32 := by
  subst h
  exact ⟨s.faultTaken_complete d c, rfl⟩

/-- Settles O20: each command's completion takes the fault of its run, and an illegal word's takes ILLEGAL_CMD. -/
theorem faultEntry : Obligations.FaultEntry := fun s _ =>
  ⟨fun h => ⟨_, exec_analyze s, State.complete_takes_fault h⟩,
    fun h => ⟨_, exec_build s, State.complete_takes_fault h⟩,
    fun h => ⟨_, exec_encode s, State.complete_takes_fault h⟩,
    fun h => ⟨_, exec_decode s, State.complete_takes_fault h⟩,
    s.faultTaken_complete .nothing .illegalCmd⟩

/-- Settles O21: ERRCODE is never hidden, and each line of R281's table agrees with `Cause.code`. -/
theorem faultCodes : Obligations.FaultCodes := by
  refine fun s c => ⟨fun code hmem => ?_, s.toNat_errcodeWord.trans_le s.cause.code_le⟩
  have hcode : c.code.setWidth 32 = BitVec.ofNat 32 code :=
    (by decide : ∀ line ∈ (_ : List (Cause × Nat)), line.1.code.setWidth 32 = BitVec.ofNat 32 line.2) _ hmem
  rw [← hcode]
  exact exec_rd32_of_not_hidden (s := { s with cause := c }) (r := .errcode) (by simp [State.RegHidden])

/-! ## ERR and ERRCODE over a step (R280, R291) -/

/-- A CMD write that leaves ERR = 1 found it so, and leaves the cause (R250, R251). -/
theorem State.err_and_cause_of_writeCmd_err {s : State} {w : Word} (h : (s.writeCmd w).err = true) :
    s.err = true ∧ (s.writeCmd w).cause = s.cause := by
  rcases s.writeCmd_cases w with ⟨-, he⟩ | ⟨-, -, he⟩ | ⟨-, -, -, he⟩ | ⟨-, -, -, he⟩ <;> rw [he] at h ⊢
  · exact ⟨h, rfl⟩
  · cases h
  · exact ⟨h, rfl⟩
  · exact ⟨h, rfl⟩

/-- Settles O22: of the effects a step can have, only a completion can leave ERR = 1 after ERR = 0. -/
theorem faultsOnlyAtCompletion : Obligations.FaultsOnlyAtCompletion := by
  intro s t ht hs hset
  cases stepEffect_of_step ht with
  | quiet same => simp [same.err, hs] at hset
  | reset turn => cases hset
  | dropped busy drops => simp [hs] at hset
  | statusWrite next => simp [hs] at hset
  | cmdWrite next busy =>
    have herr := (State.err_and_cause_of_writeCmd_err (s := s.popMove) hset).1
    simp [hs] at herr
  | completion turn ends => exact ⟨_, pending_of_completion turn, turn⟩
  | pendingClear turn => exact ⟨_, pending_of_completion turn, turn⟩

/-- A host transaction that leaves ERR = 1 leaves the cause: only CLEAR touches it, and clears ERR with it (R254). -/
theorem cause_eq_of_exec_request {s t : State} {r : Request} (ht : exec (decodeRequest r) s = .next t)
    (he : t.err = true) : t.cause = s.cause := by
  rcases exec_request_cases ht with ⟨same, -⟩ | ⟨-, rfl, -⟩ | ⟨v, -, rfl⟩ | ⟨-, w, -, rfl⟩
  · exact same.cause
  · rfl
  · rfl
  · exact (State.err_and_cause_of_writeCmd_err (s := s) he).2

/-- A step that is no completion and leaves ERR = 1 leaves the cause. -/
theorem cause_eq_of_step {s t : State} (hnc : ∀ w, nextTurn s ≠ .completion w) (ht : step s = .next t)
    (he : t.err = true) : t.cause = s.cause := by
  rcases step_cases s with ⟨-, hstep⟩ | ⟨_, -, -, hstep⟩ | ⟨-, hstep⟩ | ⟨-, hstep⟩ | ⟨r, -, -, hstep⟩ | ⟨w, turn, -⟩
  · cases hstep.symm.trans ht; rfl
  · cases hstep.symm.trans ht; rfl
  · cases hstep.symm.trans ht; cases he
  · cases hstep.symm.trans ht; rfl
  · exact (cause_eq_of_exec_request (hstep.symm.trans ht) he).trans s.popMove_cause
  · exact absurd turn (hnc w)

/-- Settles O23: with ERR = 1 nothing is pending, so the step is no completion. -/
theorem firstFaultCodeKept : Obligations.FirstFaultCodeKept := by
  intro s t hi hs ht
  have hnc : ∀ w, nextTurn s ≠ .completion w := fun w turn => by simp [hi.not_err_of_completion turn] at hs
  exact ⟨hnc, cause_eq_of_step hnc ht⟩

/-! ## The interrupt (R49, R298, R299) -/

theorem State.irq_of_done {s : State} (h : s.done = true) : s.irq = s.ie := by rw [State.irq, h, Bool.and_true]

theorem State.irq_of_not_done {s : State} (h : s.done = false) : s.irq = false := by
  rw [State.irq, h, Bool.and_false]

/-- Every completion sets DONE and leaves CTRL (R252, R253). -/
theorem State.irq_complete {s : State} {d : Dest} {r : Except Cause State}
    (h : ∀ t, r = .ok t → State.RanOk d s t) : (s.complete d r).irq = s.ie :=
  (State.irq_of_done (s.complete_done d r)).trans (s.keptOutside_complete d r fun t ht => (h t ht).kept).ie

theorem State.irq_completeIllegal (s : State) : s.completeIllegal.irq = s.ie :=
  State.irq_complete (d := .nothing) fun _ h => absurd h nofun

/-- Settles O27: each event by what it does to DONE and IE. -/
theorem interruptLevel : Obligations.InterruptLevel := by
  refine fun s => ⟨fun v => ⟨_, exec_wr32_register (r := .ctrl) s rfl v, rfl, rfl⟩,
    fun v hv => ⟨_, exec_wr32_register (r := .status) s rfl v, State.irq_of_not_done ?_, rfl⟩,
    fun w hb he hw => ⟨_, exec_wr32_cmd s w, ?_⟩, fun hb => ⟨_, exec_clear s, ?_⟩, fun ms hm => ?_,
    fun w hb he hw => ⟨_, exec_wr32_cmd s w, ?_⟩, s.irq_completeIllegal,
    ⟨_, exec_analyze s, State.irq_complete fun _ => analyzeRun_ranOk⟩,
    ⟨_, exec_build s, State.irq_complete fun _ => buildRun_ranOk⟩,
    ⟨_, exec_encode s, State.irq_complete fun _ => encodeRun_ranOk⟩,
    ⟨_, exec_decode s, State.irq_complete fun _ => decodeRun_ranOk⟩⟩
  · change (s.done && !v.getLsbD 1) = false
    rw [hv, Bool.not_true, Bool.and_false]
  · rw [State.writeCmd_of_not_err hb hw he]
    exact ⟨State.irq_of_not_done rfl, rfl⟩
  · rw [State.writeCmd_clearWord hb]
    exact ⟨State.irq_of_not_done rfl, rfl⟩
  · exact ⟨_, step_assertReset (by simp [nextTurn, hm]), State.irq_of_not_done rfl⟩
  · rw [State.writeCmd_of_err hb hw he]
    exact State.irq_of_done rfl

end Sys2Proof.Machine
end

section
/-!
SUPPORT. Reset and the end of a run: the steps while `rst` is asserted (R320, R322), what ends a pending command, the
faults the reset values give (R321), and the step of a finished run (R335).
-/

namespace Sys2Proof.Machine

/-! ## Reset (R320, R322) -/

/-- While `rst` is asserted the Core takes no step (R322). -/
theorem rst_of_completion {s : State} {w : Word} (h : nextTurn s = .completion w) : s.rst = false := by
  rcases step_cases s with ⟨h', -⟩ | ⟨_, h', -⟩ | ⟨h', -⟩ | ⟨h', -⟩ | ⟨_, h', -⟩ | ⟨_, -, hr, -⟩
  case inr.inr.inr.inr.inr => exact hr
  all_goals cases h.symm.trans h'

theorem step_ignored {s : State} {r : Request} (h : nextTurn s = .ignored r) :
    step s = .next (s.popMove.respond .platform) := by
  simp [step, h]

theorem step_releaseReset {s : State} (h : nextTurn s = .releaseReset) : step s = .next s.popMove.releaseReset := by
  simp [step, h]

/-- No host transaction ends a pending command (R46, R250). -/
theorem pending_of_exec_request_busy {s t : State} {r : Request} (hb : s.busy = true)
    (ht : exec (decodeRequest r) s = .next t) : t.pending = s.pending := by
  obtain ⟨_, _, _, _, _, rfl⟩ := exec_request_busy hb ht
  rfl

/-- What ends a pending command: its completion, or reset (R252, R322). -/
theorem State.Inv.step_ends_pending {s t : State} {w : Word} (hi : s.Inv) (hp : s.pending = some w)
    (ht : step s = .next t) (hend : t.pending = none) :
    nextTurn s = .completion w ∨ nextTurn s = .assertReset := by
  have hb : s.busy = true := by rw [← hi.pending_iff_busy, hp, Option.isSome_some]
  have hne : t.pending ≠ s.pending := by simp [hend, hp]
  rcases step_cases s with
    ⟨-, he⟩ | ⟨_, -, -, he⟩ | ⟨turn, -⟩ | ⟨-, he⟩ | ⟨r, -, -, he⟩ | ⟨v, turn, -, hv, -⟩
  · cases he.symm.trans ht
    exact absurd rfl hne
  · cases he.symm.trans ht
    exact absurd rfl hne
  · exact .inr turn
  · cases he.symm.trans ht
    exact absurd rfl hne
  · exact absurd (pending_of_exec_request_busy (s := s.popMove) hb (he.symm.trans ht)) hne
  · cases hv.symm.trans hp
    exact .inl turn

/-- Settles O15: the step of each turn of the platform, and what can end a pending command. -/
theorem resetAbandonsPendingCommand : Obligations.ResetAbandonsPendingCommand := by
  refine ⟨fun s ms hm => ?_, fun s hr w turn => ?_, fun s r ms hr hm => ?_, fun s ms hm => ?_,
    fun s t w hi hp ht hend => hi.step_ends_pending hp ht hend⟩
  · rw [step_assertReset (by simp [nextTurn, hm]), State.popMove_of_moves hm]
    rfl
  · cases hr.symm.trans (rst_of_completion turn)
  · rw [step_ignored (r := r) (by simp [nextTurn, hm, hr]), State.popMove_of_moves hm]
    rfl
  · rw [step_releaseReset (by simp [nextTurn, hm]), State.popMove_of_moves hm]
    rfl

/-! ## The end of a run (R335) -/

theorem State.finished_iff (s : State) : s.finished = true ↔ s.moves = [] ∧ s.pending = none ∧ s.rst = false := by
  simp [State.finished, and_assoc]

/-- Settles O6: with nothing scheduled and nothing pending the machine idles, and there is no move to use up. -/
theorem finishedRunStaysFinished : Obligations.FinishedRunStaysFinished := by
  intro s hs
  obtain ⟨hm, hp, -⟩ := s.finished_iff.1 hs
  have turn : nextTurn s = .idle := by simp [nextTurn, hm, hp]
  simp [step, turn, State.popMove_of_nil hm]

/-! ## The commands right after reset (R321) -/

/-- Settles O16: FT_COUNT, RAW_LEN and CT_COUNT are 0 at reset, where the first check of each command fails. -/
theorem commandsRightAfterResetFault : Obligations.CommandsRightAfterResetFault := by
  obtain ⟨ftCount_zero, -, build⟩ := buildFaults
  obtain ⟨emptyFreq, -⟩ := build State.reset
  obtain ⟨emptyInput, -⟩ := encodeFaults State.reset
  obtain ⟨emptyTable, -⟩ := decodeChecks State.reset
  exact ⟨rfl, emptyFreq ftCount_zero, emptyInput rfl, emptyTable rfl⟩

end Sys2Proof.Machine
end
